-- ==== Sys2Proof/Word.lean ====
section
/-! DEFINITION. Word.lean: the widths of 00_scope.md R7, and nothing else. -/

namespace Sys2Proof

/-- A byte of scratch or main memory. -/
abbrev Byte := BitVec 8

/-- A 16-bit register, sample or field (`u16` or `s16`: the reader of it chooses). -/
abbrev Half := BitVec 16

/-- A 24-bit main-memory address (20_memory.md R72). -/
abbrev Addr24 := BitVec 24

/-- A 32-bit command word or a 32-bit register. -/
abbrev Word := BitVec 32

end Sys2Proof
end

