-- ==== Sys2Proof/Config.lean ====
section
/-! DEFINITION. Config.lean: what is fixed for the machine (00_scope.md R6) and the free values.

The parameters that 00_scope.md R6 calls arguments of the model are the structure `Params`; a state carries one
value of it and no command changes it (log 1). The constants without a body are the free values: nothing can be proved about them. -/

namespace Sys2Proof

/-- `SCRATCH_SIZE`: 65536 bytes, fixed (00_scope.md R6). -/
abbrev Config.scratchSize : Nat := 65536

/-- `CODEBOOK_SIZE`: 128 entries, fixed (00_scope.md R6). -/
abbrev Config.codebookSize : Nat := 128

/-- `ENV_BLOCK_SIZE`: 80 bytes, fixed (00_scope.md R6). -/
abbrev Config.envBlockSize : Nat := 80

/-- `MM_ADDR_BITS` is 24 (00_scope.md R6): the largest main memory there is. -/
abbrev Config.mmLimit : Nat := 16777216

/-- `MM_ALIGN`: 8, the spec's decision D9 (00_scope.md R6). -/
abbrev Config.mmAlign : Nat := 8

/-- `OPCODE_TABLE_SIZE`: 32, the spec's decision D2 (00_scope.md R6). -/
abbrev Config.opcodeTableSize : Nat := 32

/-- `ACC_OVERFLOW` (00_scope.md R6, R8): what `acc32` does with a value outside 32 bits. -/
inductive AccOverflow where
  | fault
  | wrap32
deriving DecidableEq, Repr

/-- `RESOLVE` (20_memory.md R78): how an address word becomes a 24-bit address. `low24` is the instance the spec's
vectors use; `table n` is the n-th base-address table of the host, about which nothing is known. -/
inductive Resolve where
  | low24
  | table (n : Nat)
deriving DecidableEq, Repr

/-- One kernel of the resampler's lookup table: 4 signed taps in Q1.15 (43_resample.md R300). -/
structure Taps where
  t0 : Half
  t1 : Half
  t2 : Half
  t3 : Half
deriving DecidableEq, Repr, Inhabited

/-- `RESAMPLE_LUT`: 64 kernels of 4 taps (43_resample.md R300). -/
abbrev Lut := Vector Taps 64

/-- The parameters of 00_scope.md R6 that are arguments of the model. -/
structure Params where
  /-- `MM_SIZE`, 1 to 2^24. -/
  mmSize : Nat
  /-- `RESOLVE`. -/
  resolve : Resolve
  /-- `RESAMPLE_LUT`. -/
  lut : Lut
  /-- `ACC_OVERFLOW`. -/
  accOverflow : AccOverflow
  /-- `DMEM_BASE`. -/
  dmemBase : Half
deriving DecidableEq, Repr

/-- The n-th base-address table of the host (20_memory.md R78): an uninterpreted function of the address word. -/
opaque Config.resolveTable : Nat → Word → Addr24

/-- The sum of a kernel's taps. -/
def Taps.sum (k : Taps) : Int := k.t0.toInt + k.t1.toInt + k.t2.toInt + k.t3.toInt

/-- The table constraint of 43_resample.md R301: kernel 0 gives back a constant 1000, so its taps sum to 32768 up to 32800. -/
def Lut.MeetsR301 (lut : Lut) : Prop := 32768 ≤ (lut.get 0).sum ∧ (lut.get 0).sum ≤ 32800

/-- A table the model accepts as the hardware's (43_resample.md R301). -/
structure HardwareTable where
  lut : Lut
  ok : lut.MeetsR301

/-- There are tables that meet R301, such as kernels of four quarters (0x2000 is a quarter in Q1.15): Lean asks for one
before it grants a constant without a body, which keeps nothing of it. -/
@[reducible] def HardwareTable.inhabited : Inhabited HardwareTable where
  default :=
    { lut := Vector.replicate 64 ⟨0x2000, 0x2000, 0x2000, 0x2000⟩
      ok := by unfold Lut.MeetsR301 Taps.sum; decide }

/-- A table that meets R301; its values are not in the spec, so nothing else is known of it (log 3). -/
opaque Config.someHardwareTable [Inhabited HardwareTable] : HardwareTable

/-- The hardware's resampler table (43_resample.md R300), with the one thing known of it (R301). -/
def Config.hardwareTable : HardwareTable := @Config.someHardwareTable HardwareTable.inhabited

/-- The hardware's resampler table (43_resample.md R300): nothing is known of it but R301. -/
def Config.hardwareLut : Lut := Config.hardwareTable.lut

/-- The hardware's table meets R301. -/
theorem Config.hardwareLut_meets_r301 : Config.hardwareLut.MeetsR301 := Config.hardwareTable.ok

/-- The free values: "any value" of 41_adpcm.md R204 and 42_envmixer.md R245 and R248, one for each draw (log 10). -/
opaque Config.freeValue : Nat → Half

end Sys2Proof
end

