-- ==== Sys2Proof/Syntax.lean ====
section
/-! DEFINITION. Syntax.lean: the commands, one constructor for each row of spec/opcode_table.json.

A constructor holds the fields its layout names (30_encoding.md R107 to R119) and nothing of the bits a layout leaves
unnamed, which are ignored (R106, log 24). -/

namespace Sys2Proof

/-- A volume channel: 0 is left, 1 is right (30_encoding.md R113). -/
inductive Side where
  | left
  | right
deriving DecidableEq, Repr

/-- The commands. -/
inductive Instr where
  /-- NOOP, op 0x00 (R107). -/
  | noop
  /-- ADPCM, op 0x01 (R108). -/
  | adpcm (init loop twobit : Bool) (lfa : Word)
  /-- CLEARBUFF, op 0x02 (R109). -/
  | clearbuff (dmem count : Half)
  /-- ENVMIXER (exponential), op 0x03 (R110). -/
  | envmixer (init aux : Bool) (block : Word)
  /-- RESAMPLE with FLAG2 clear, op 0x05 (R111). -/
  | resample (init : Bool) (pitch : Half) (state : Word)
  /-- RESAMPLE with FLAG2 set, op 0x05 (R111, refused by R306). -/
  | resampleFlag2
  /-- SETBUFF with AUX clear, op 0x08 (R112). -/
  | setbuff (inp out count : Half)
  /-- SETBUFF with AUX set, op 0x08 (R112). -/
  | setbuffAux (dryRight wetLeft wetRight : Half)
  /-- SETVOL, the gains form, op 0x09 (R113). -/
  | setvolAux (dry wet : Half)
  /-- SETVOL, the start volume form, op 0x09 (R113). -/
  | setvolVol (side : Side) (vol : Half)
  /-- SETVOL, the target and rate form, op 0x09 (R113). -/
  | setvol (side : Side) (target : Half) (rate : Word)
  /-- LOADADPCM, op 0x0B (R114). -/
  | loadadpcm (count : Half) (addr : Word)
  /-- SETLOOP, op 0x0F (R115). -/
  | setloop (addr : Word)
  /-- ENVMIXER_LIN, op 0x10 (R116). -/
  | envmixerLin (init : Bool) (block : Word)
  /-- ENVSETUP1, op 0x12 (R117). -/
  | envsetup1 (value2 : Byte) (step2 step0 step1 : Half)
  /-- ENVMIXER_NEAD, op 0x13 (R118). -/
  | envmixerNead (inp count : Byte) (swap xorWl xorWr xorDl xorDr : Bool) (dl dr wl wr : Byte)
  /-- ENVSETUP2, op 0x16 (R119). -/
  | envsetup2 (value0 value1 : Half)
  /-- Slot 0x04, LOADBUFF, outside the block (R103, R105). -/
  | loadbuff
  /-- Slot 0x06, SAVEBUFF, outside the block. -/
  | savebuff
  /-- Slot 0x07, SEGMENT, outside the block. -/
  | segment
  /-- Slot 0x0A, DMEMMOVE, outside the block. -/
  | dmemmove
  /-- Slot 0x0C, MIXER, outside the block. -/
  | mixer
  /-- Slot 0x0D, INTERLEAVE, outside the block. -/
  | interleave
  /-- Slot 0x0E, POLEF, outside the block. -/
  | polef
  /-- Slot 0x11, unnamed, outside the block. -/
  | slot11
  /-- Slot 0x14. -/
  | slot14
  /-- Slot 0x15. -/
  | slot15
  /-- Slot 0x17. -/
  | slot17
  /-- Slot 0x18. -/
  | slot18
  /-- Slot 0x19. -/
  | slot19
  /-- Slot 0x1A. -/
  | slot1A
  /-- Slot 0x1B. -/
  | slot1B
  /-- Slot 0x1C. -/
  | slot1C
  /-- Slot 0x1D. -/
  | slot1D
  /-- Slot 0x1E. -/
  | slot1E
  /-- Slot 0x1F. -/
  | slot1F
  /-- An opcode 0x20 to 0x3F, beyond the table (R104). -/
  | beyond20 (op : Byte)
  /-- An opcode 0x40 to 0x7F, beyond the table (R104). -/
  | beyond40 (op : Byte)
  /-- An opcode 0x80 to 0xFF, beyond the table (R104). -/
  | beyond80 (op : Byte)
deriving DecidableEq, Repr

end Sys2Proof
end

