-- ==== Sys2Proof/Machine/State.lean ====
section
/-! DEFINITION. Machine/State.lean: the state of the block (10_state.md R30), its outcomes (60_exceptions.md R342 to
R345) and the power-on state (R43, R370). -/

namespace Sys2Proof.Machine

/-! ## Memory -/

/-- A memory: the bytes that differ from `Mem.unlisted`, addresses strictly rising (see `Mem.wf`). -/
abbrev Mem := List Host.Cell

/-- What an address that a memory does not list reads as, in scratch and in main memory alike: DESIGN CHOICE 0
(10_state.md R43 leaves both contents open; logs 5 and 6). -/
def Mem.unlisted : Byte := 0

/-- The canonical form over addresses below `bound`: strictly rising, none at or above `bound`, none holding what an
unlisted address reads as. -/
abbrev Mem.wf (bound : Nat) (m : Mem) : Prop :=
  m.Pairwise (fun x y => x.1 < y.1) ∧ ∀ x ∈ m, x.1 < bound ∧ x.2 ≠ Mem.unlisted

/-! ## Engine registers -/

/-- An engine register: its stored bits and its written-bit of `W` (10_state.md R32, R33). -/
structure Reg (w : Nat) where
  value : BitVec w
  written : Bool
deriving DecidableEq, Repr

/-- A nead envelope channel c = 0, 1, 2 (10_state.md R38). -/
inductive EnvCh where
  | c0
  | c1
  | c2
deriving DecidableEq, Repr

/-- The names of the engine registers (10_state.md R32); a fault names the register it read. -/
inductive RegName where
  | inp
  | out
  | count
  | dryRight
  | wetLeft
  | wetRight
  | dry
  | wet
  | vol (c : Side)
  | target (c : Side)
  | rate (c : Side)
  | loop
  | codebook (i : Fin 128)
  | envValue (c : EnvCh)
  | envStep (c : EnvCh)
deriving DecidableEq, Repr

/-- The engine registers `E` with their written-bits `W` (10_state.md R32, R33). -/
structure Engine where
  inp : Reg 16
  out : Reg 16
  count : Reg 16
  dryRight : Reg 16
  wetLeft : Reg 16
  wetRight : Reg 16
  dry : Reg 16
  wet : Reg 16
  volLeft : Reg 16
  volRight : Reg 16
  targetLeft : Reg 16
  targetRight : Reg 16
  rateLeft : Reg 32
  rateRight : Reg 32
  loop : Reg 24
  codebook : Vector (Reg 16) 128
  envValue0 : Reg 16
  envValue1 : Reg 16
  envValue2 : Reg 16
  envStep0 : Reg 16
  envStep1 : Reg 16
  envStep2 : Reg 16
deriving DecidableEq, Repr

/-! ## Outcomes -/

/-- The fault kinds with their info (60_exceptions.md R344). -/
inductive FaultKind where
  /-- `F_UNWRITTEN`: a register or codebook entry was read whose written-bit is clear. -/
  | unwritten (r : RegName)
  /-- `F_ACC_OVERFLOW`: `acc32` left 32 bits while `ACC_OVERFLOW = fault`. -/
  | accOverflow
deriving DecidableEq, Repr

/-- The refusal reasons (60_exceptions.md R345). -/
inductive RefuseReason where
  | outOfBlockOpcode
  | oddSampleAddr
  | mmRange
  | mmAlign
  | cmdlistSize
  | cmdlistWrite
  | loadadpcmSize
  | resampleFlag2
deriving DecidableEq, Repr

/-- How a command or an invocation ends short: a fault or a refusal. -/
inductive Stop where
  | fault (k : FaultKind)
  | refuse (r : RefuseReason)
deriving DecidableEq, Repr

/-- `status` (10_state.md R40). -/
inductive Status where
  | idle
  | running
  | faulted (k : FaultKind)
  | refused (r : RefuseReason)
deriving DecidableEq, Repr

/-- A diagnostic event of `log` (10_state.md R41): the one warning code of 60_exceptions.md R343 with its info. -/
inductive Warning where
  | unknownOpcode (op : Byte) (addr : Nat)
deriving DecidableEq, Repr

/-- What the host asks for between invocations (40_control.md R140; 20_memory.md R78, R82; log 12). -/
inductive HostAction where
  /-- `Invoke(cl_addr, cl_size)`. -/
  | invoke (addr size : Nat)
  /-- The host stores a byte to scratch. -/
  | writeScratch (addr : Half) (v : Byte)
  /-- The host stores a byte to main memory. -/
  | writeMain (addr : Addr24) (v : Byte)
  /-- The host changes the base-address table. -/
  | setResolve (r : Resolve)
deriving DecidableEq, Repr

/-! ## The state -/

/-- The state of the block: (SM, MM, E with W, cp, cend, status, log) of 10_state.md R30, then what the model adds. -/
structure State where
  /-- `SM`, the scratch memory (20_memory.md R70). -/
  sm : Mem
  /-- `MM`, main memory (20_memory.md R72). -/
  mm : Mem
  /-- `E` and `W` (10_state.md R32, R33). -/
  eng : Engine
  /-- `cp`: the address of the next command to fetch (10_state.md R39). -/
  cp : Nat
  /-- `cend`: one past the last byte of the list (10_state.md R39). -/
  cend : Nat
  /-- `status` (10_state.md R40). -/
  status : Status
  /-- `log`, oldest event first (10_state.md R41). -/
  log : List Warning
  /-- The model's own: the parameters of 00_scope.md R6, which no command changes (log 1). -/
  params : Params
  /-- The model's own: what the host will ask for next, in order (log 12). -/
  host : List HostAction
  /-- The model's own: the free values that are drawn first (log 10). -/
  supply : List Half
  /-- The model's own: how many free values came from `Config.freeValue` so far (log 10). -/
  draws : Nat
deriving DecidableEq, Repr

/-- A fault of the model (60_exceptions.md R344). Each carries the state at the stop, which keeps every write made
before it and whose `status` is the fault (10_state.md R40, R347; log 11). -/
inductive Fault where
  /-- Raised by ADPCM, ENVMIXER, ENVMIXER_LIN, ENVMIXER_NEAD and RESAMPLE where they read an engine register or codebook
  entry whose written-bit is clear: the spec states this stop (R33, R344). Safe: a faulted run satisfies no claim about an
  end state (R342). -/
  | unwritten (r : RegName) (last : State)
  /-- Raised by ADPCM, ENVMIXER, ENVMIXER_LIN and RESAMPLE when `acc32` leaves 32 bits and `ACC_OVERFLOW = fault` (R8).
  Safe: the run ends where the hardware goes on. -/
  | accOverflow (last : State)
deriving DecidableEq, Repr

/-- A refusal of the model (60_exceptions.md R345). Each but the first carries the state at the stop (log 11). All are
safe: the model declines where the hardware goes on. -/
inductive Refusal where
  /-- Raised by `exec` for a row that has no meaning in this model yet: there is none. Safe. -/
  | notModelled (mnemonic : String)
  /-- Raised by the 19 rows outside the block (R105). Safe. -/
  | outOfBlockOpcode (last : State)
  /-- Raised by every 16-bit scratch access at an odd address (R76). Safe. -/
  | oddSampleAddr (last : State)
  /-- Raised by main-memory accesses, fetch and Invoke beyond `MM_SIZE` (R75, R140). Safe. -/
  | mmRange (last : State)
  /-- Raised by Invoke and by LOADADPCM, ADPCM, ENVMIXER, ENVMIXER_LIN and RESAMPLE for a misaligned base (R77). Safe. -/
  | mmAlign (last : State)
  /-- Raised by Invoke for a length that is no multiple of 8 (R140). Safe. -/
  | cmdlistSize (last : State)
  /-- Raised by ADPCM, ENVMIXER, ENVMIXER_LIN and RESAMPLE for a store into the unread list (R83). Safe. -/
  | cmdlistWrite (last : State)
  /-- Raised by LOADADPCM for more than 128 entries (R149). Safe. -/
  | loadadpcmSize (last : State)
  /-- Raised by RESAMPLE with flag bit 1 set (R306). Safe. -/
  | resampleFlag2 (last : State)
deriving DecidableEq, Repr

/-! ## Power-on -/

/-- A register at power-on: its written-bit clear (R43), its bits a DESIGN CHOICE of 0 that nothing can read (log 7). -/
def Reg.blank {w : Nat} : Reg w := ⟨0, false⟩

/-- Every engine register at power-on (R43). -/
def Engine.blank : Engine where
  inp := .blank
  out := .blank
  count := .blank
  dryRight := .blank
  wetLeft := .blank
  wetRight := .blank
  dry := .blank
  wet := .blank
  volLeft := .blank
  volRight := .blank
  targetLeft := .blank
  targetRight := .blank
  rateLeft := .blank
  rateRight := .blank
  loop := .blank
  codebook := Vector.replicate 128 .blank
  envValue0 := .blank
  envValue1 := .blank
  envValue2 := .blank
  envStep0 := .blank
  envStep1 := .blank
  envStep2 := .blank

/-- The parameters State.reset carries: DESIGN CHOICE (logs 2, 3, 4). -/
def paramsAtReset : Params where
  mmSize := Config.mmLimit
  resolve := .low24
  lut := Config.hardwareLut
  accOverflow := .fault
  dmemBase := 0

/-- The power-on state (10_state.md R43, 70_reset_and_hazards.md R370). -/
def State.reset : State where
  sm := []
  mm := []
  eng := .blank
  cp := 0
  cend := 0
  status := .idle
  log := []
  params := paramsAtReset
  host := []
  supply := []
  draws := 0

end Sys2Proof.Machine
end

