-- ==== Sys2Proof/Machine/Flags.lean ====
section
/-! DEFINITION. Machine/Flags.lean: the arithmetic primitives of 00_scope.md R8.

The block has no condition flags (10_state.md R31). What other machines compute as overflow and saturation flags is
here the range test of `acc32` and the limit of `clamp16`. Every value is an exact integer (R7). -/

namespace Sys2Proof.Machine

/-- `asr(v, n)`: floor(v / 2^n). -/
def asr (v : Int) (n : Nat) : Int := v / 2 ^ n

/-- `shl(v, n)`: v times 2^n. -/
def shl (v : Int) (n : Nat) : Int := v * 2 ^ n

/-- `tdiv(a, b)`: a / b truncated toward zero. -/
def tdiv (a b : Int) : Int := a.tdiv b

/-- `clamp16(v)`: v limited to the signed 16-bit range. -/
def clamp16 (v : Int) : Int := min 32767 (max (-32768) v)

/-- `lo16(v)`: v mod 2^16. -/
def lo16 (v : Int) : Half := BitVec.ofInt 16 v

/-- `to_s16(v)`: the low 16 bits of v read as two's complement. -/
def toS16 (v : Int) : Int := (lo16 v).toInt

/-- `align_up(v, a)`: the least multiple of a at or above v. -/
def alignUp (v a : Nat) : Nat := (v + (a - 1)) / a * a

/-- The signed 32-bit range. -/
def fitsS32 (v : Int) : Bool := decide (-2147483648 ≤ v ∧ v ≤ 2147483647)

/-- `sext_32(v mod 2^32)`. -/
def wrapS32 (v : Int) : Int := (BitVec.ofInt 32 v).toInt

/-- `acc32(v)`: v where it fits 32 bits; otherwise a fault (none) or the wrapped value, as `ACC_OVERFLOW` says. -/
def acc32Result (mode : AccOverflow) (v : Int) : Option Int :=
  if fitsS32 v then some v
  else match mode with
    | .fault => none
    | .wrap32 => some (wrapS32 v)

end Sys2Proof.Machine
end

