-- ==== Sys2Proof/Machine/Ops.lean ====
section
/-! DEFINITION. Machine/Ops.lean: the operations the commands share: memory, registers, loops, free values, and the
ways a run ends short (00_scope.md R9 to R12; 20_memory.md; 60_exceptions.md).

A command is an `Act`: it runs on a state and ends with a value and a state, or stops with the state at the stop, which
keeps every write made before (10_state.md R40). Statements execute in the order written (R12). -/

namespace Sys2Proof.Machine

/-- A piece of a command. -/
abbrev Act (α : Type) := EStateM Stop State α

/-- Look at the state. -/
def look {α : Type} (f : State → α) : Act α := fun s => .ok (f s) s

/-- Change the state. -/
def change (f : State → State) : Act Unit := fun s => .ok () (f s)

/-! ## Ending a run: faults, refusals, warnings (R11, R342)

The block takes no exception, has no vector and saves no register (60_exceptions.md R347): what stands in its place is
the one operation `stop`, and there is no return from it (R348, R40). -/

/-- End the run here. -/
def stop {α : Type} (why : Stop) : Act α := fun s => .error why s

/-- `raise Fault(k)`. -/
def raise {α : Type} (k : FaultKind) : Act α := stop (.fault k)

/-- `refuse(r)`. -/
def refuse {α : Type} (r : RefuseReason) : Act α := stop (.refuse r)

/-- `if bad: refuse(r)`. -/
def refuseIf (bad : Bool) (r : RefuseReason) : Act Unit := if bad then refuse r else pure ()

/-- The status a stop leaves (R40). -/
def Stop.status : Stop → Status
  | .fault k => .faulted k
  | .refuse r => .refused r

/-- The model's fault for a fault kind, with the state at the stop. -/
def Fault.of (k : FaultKind) (last : State) : Fault :=
  match k with
  | .unwritten r => .unwritten r last
  | .accOverflow => .accOverflow last

/-- The model's refusal for a reason, with the state at the stop. -/
def Refusal.of (r : RefuseReason) (last : State) : Refusal :=
  match r with
  | .outOfBlockOpcode => .outOfBlockOpcode last
  | .oddSampleAddr => .oddSampleAddr last
  | .mmRange => .mmRange last
  | .mmAlign => .mmAlign last
  | .cmdlistSize => .cmdlistSize last
  | .cmdlistWrite => .cmdlistWrite last
  | .loadadpcmSize => .loadadpcmSize last
  | .resampleFlag2 => .resampleFlag2 last

/-- How the model answers a stop: the run has ended, its status says how, and every earlier write stands (R40, R342). -/
def Stop.outcome (why : Stop) (s : State) : Host.Outcome State Fault Refusal :=
  match why with
  | .fault k => .fault (Fault.of k { s with status := .faulted k })
  | .refuse r => .refused (Refusal.of r { s with status := .refused r })

/-- The outcome of a whole command. -/
def runAct (x : Act Unit) (s : State) : Host.Outcome State Fault Refusal :=
  match x s with
  | .ok _ t => .next t
  | .error why t => why.outcome t

/-- `warn(UNKNOWN_OPCODE)`: append the event and go on (R41, R343). The command's address is `cp - 8` (R144). -/
def warnUnknown (op : Byte) : Act Unit :=
  change fun s => { s with log := s.log ++ [.unknownOpcode op (s.cp - 8)] }

/-! ## Loops (R12: for i in 0..n-1, i upward) -/

/-- `for i in 0..n-1: f i`. -/
def loop (n : Nat) (f : Nat → Act Unit) : Act Unit :=
  match n with
  | 0 => pure ()
  | n + 1 => do
    loop n f
    f n

/-- `for i in 0..n-1: b <- f i b`, from b. -/
def loopFrom {β : Type} (n : Nat) (b : β) (f : Nat → β → Act β) : Act β :=
  match n with
  | 0 => pure b
  | n + 1 => do
    let b' ← loopFrom n b f
    f n b'

/-- The list of `f 0` to `f (n-1)`, run in that order. -/
def collect {α : Type} (n : Nat) (f : Nat → Act α) : Act (List α) :=
  match n with
  | 0 => pure []
  | n + 1 => do
    let xs ← collect n f
    let x ← f n
    pure (xs ++ [x])

/-! ## Parameters and free values -/

/-- The parameters of 00_scope.md R6. -/
def getParams : Act Params := look fun s => s.params

/-- A fresh "any value" of 16 bits: the next of the supply, or an uninterpreted value no earlier draw had (log 10). -/
def drawHalf : Act Half := fun s =>
  match s.supply with
  | v :: rest => .ok v { s with supply := rest }
  | [] => .ok (Config.freeValue s.draws) { s with draws := s.draws + 1 }

/-- A fresh "any value" of 8 bits. -/
def drawByte : Act Byte := do
  let v ← drawHalf
  pure (v.extractLsb' 0 8)

/-- `acc32(v)` (R8). -/
def acc32 (v : Int) : Act Int := do
  let p ← getParams
  match acc32Result p.accOverflow v with
  | some r => pure r
  | none => raise .accOverflow

/-! ## The memory list -/

/-- The byte at an address. -/
def Mem.read : Mem → Nat → Byte
  | [], _ => Mem.unlisted
  | (b, w) :: m, a => if a = b then w else Mem.read m a

/-- Put a listed byte in front unless it is what an unlisted address reads as. -/
def Mem.consCell (a : Nat) (v : Byte) (m : Mem) : Mem := if v = Mem.unlisted then m else (a, v) :: m

/-- No cell of the list is at the address. -/
def Mem.erase (m : Mem) (a : Nat) : Mem := m.filter (fun c => c.1 != a)

/-- Store a byte, keeping the canonical form. -/
def Mem.write : Mem → Nat → Byte → Mem
  | [], a, v => Mem.consCell a v []
  | (b, w) :: m, a, v =>
    if b < a then (b, w) :: Mem.write m a v
    else Mem.consCell a v (Mem.erase ((b, w) :: m) a)

/-! ## Scratch memory (R10, R70, R71, R74, R76) -/

/-- A scratch address reduced mod 65536 (R71). -/
def scratchAddr (a : Nat) : Nat := a % Config.scratchSize

/-- The byte of a state's scratch memory at an address. -/
def State.scratch (s : State) (a : Nat) : Byte := s.sm.read (scratchAddr a)

/-- The signed sample of a state's scratch memory at an address, big-endian (R74). -/
def State.sample (s : State) (a : Nat) : Int := (s.scratch a ++ s.scratch (a + 1)).toInt

/-- `D8(a)`. -/
def d8 (a : Nat) : Act Byte := look fun s => s.scratch a

/-- `D8w(a, v)`. -/
def d8w (a : Nat) (v : Byte) : Act Unit := change fun s => { s with sm := s.sm.write (scratchAddr a) v }

/-- An odd address of a 16-bit access is refused (R76). -/
def checkEven (a : Nat) : Act Unit := refuseIf (a % 2 != 0) .oddSampleAddr

/-- `D16(a)`. -/
def d16 (a : Nat) : Act Int := do
  checkEven a
  look fun s => s.sample a

/-- `D16w(a, v)`. -/
def d16w (a : Nat) (v : Int) : Act Unit := do
  checkEven a
  d8w a ((lo16 v).extractLsb' 8 8)
  d8w (a + 1) ((lo16 v).extractLsb' 0 8)

/-! ## Main memory (R10, R72 to R77, R83) -/

/-- Every byte of an access lies below `MM_SIZE` (R75). -/
def checkRange (a n : Nat) : Act Unit := do
  let p ← getParams
  refuseIf (decide (p.mmSize < a + n)) .mmRange

/-- No byte of a store lies in `[cp, cend)`, the part of the list not yet fetched (R83). -/
def checkUnread (a n : Nat) : Act Unit := do
  let cp ← look fun s => s.cp
  let cend ← look fun s => s.cend
  refuseIf (decide (cp < cend ∧ a < cend ∧ cp < a + n)) .cmdlistWrite

/-- A block base is a multiple of `MM_ALIGN` (R77). -/
def checkAlign (a : Nat) : Act Unit := refuseIf (a % Config.mmAlign != 0) .mmAlign

/-- The big-endian half at an address of a state's main memory (R74). -/
def State.mmHalf (s : State) (a : Nat) : Half := s.mm.read a ++ s.mm.read (a + 1)

/-- The big-endian word at an address of a state's main memory (R74). -/
def State.mmWord (s : State) (a : Nat) : Word :=
  s.mm.read a ++ s.mm.read (a + 1) ++ s.mm.read (a + 2) ++ s.mm.read (a + 3)

/-- `MemRead(a, 2)`. -/
def memRead16 (a : Nat) : Act Half := do
  checkRange a 2
  look fun s => s.mmHalf a

/-- `MemRead(a, 4)`. -/
def memRead32 (a : Nat) : Act Word := do
  checkRange a 4
  look fun s => s.mmWord a

/-- One byte of a checked store. -/
def mmStore (a : Nat) (v : Byte) : Act Unit := change fun s => { s with mm := s.mm.write a v }

/-- A store's checks: `MM_RANGE`, then `CMDLIST_WRITE` (log 16). -/
def checkStore (a n : Nat) : Act Unit := do
  checkRange a n
  checkUnread a n

/-- `MemWrite(a, 1, v)`, for the unnamed bytes of a save block. -/
def memWrite8 (a : Nat) (v : Byte) : Act Unit := do
  checkStore a 1
  mmStore a v

/-- `MemWrite(a, 2, v)`. -/
def memWrite16 (a : Nat) (v : Half) : Act Unit := do
  checkStore a 2
  mmStore a (v.extractLsb' 8 8)
  mmStore (a + 1) (v.extractLsb' 0 8)

/-- `MemWrite(a, 4, v)`. -/
def memWrite32 (a : Nat) (v : Word) : Act Unit := do
  checkStore a 4
  mmStore a (v.extractLsb' 24 8)
  mmStore (a + 1) (v.extractLsb' 16 8)
  mmStore (a + 2) (v.extractLsb' 8 8)
  mmStore (a + 3) (v.extractLsb' 0 8)

/-! ## Engine registers (R9, R32, R33) -/

/-- `E[name]`: a register whose written-bit is clear is no value but a fault (R33). -/
def readReg {w : Nat} (name : RegName) (get : Engine → Reg w) : Act (BitVec w) := do
  let r ← look fun s => get s.eng
  if r.written then pure r.value else raise (.unwritten name)

/-- Change the engine registers. -/
def setEng (f : Engine → Engine) : Act Unit := change fun s => { s with eng := f s.eng }

/-- A register just written: its bits, and the written-bit set (R33). -/
def Reg.of {w : Nat} (v : BitVec w) : Reg w := ⟨v, true⟩

/-- `E[vol][c]`. -/
def Engine.vol (e : Engine) : Side → Reg 16
  | .left => e.volLeft
  | .right => e.volRight

/-- `E[target][c]`. -/
def Engine.target (e : Engine) : Side → Reg 16
  | .left => e.targetLeft
  | .right => e.targetRight

/-- `E[rate][c]`. -/
def Engine.rate (e : Engine) : Side → Reg 32
  | .left => e.rateLeft
  | .right => e.rateRight

/-- `E[env_value][c]`. -/
def Engine.envValue (e : Engine) : EnvCh → Reg 16
  | .c0 => e.envValue0
  | .c1 => e.envValue1
  | .c2 => e.envValue2

/-- `E[env_step][c]`. -/
def Engine.envStep (e : Engine) : EnvCh → Reg 16
  | .c0 => e.envStep0
  | .c1 => e.envStep1
  | .c2 => e.envStep2

/-- `E[vol][c] <- v`. -/
def Engine.setVol (e : Engine) (c : Side) (v : Half) : Engine :=
  match c with
  | .left => { e with volLeft := .of v }
  | .right => { e with volRight := .of v }

/-- `E[target][c] <- v`. -/
def Engine.setTarget (e : Engine) (c : Side) (v : Half) : Engine :=
  match c with
  | .left => { e with targetLeft := .of v }
  | .right => { e with targetRight := .of v }

/-- `E[rate][c] <- v`. -/
def Engine.setRate (e : Engine) (c : Side) (v : Word) : Engine :=
  match c with
  | .left => { e with rateLeft := .of v }
  | .right => { e with rateRight := .of v }

/-- `E[env_value][c] <- v`. -/
def Engine.setEnvValue (e : Engine) (c : EnvCh) (v : Half) : Engine :=
  match c with
  | .c0 => { e with envValue0 := .of v }
  | .c1 => { e with envValue1 := .of v }
  | .c2 => { e with envValue2 := .of v }

/-- `E[codebook][i] <- v` for i below 128; no command writes beyond (R149). -/
def Engine.setCodebook (e : Engine) (i : Nat) (v : Half) : Engine :=
  { e with codebook := e.codebook.setIfInBounds i (.of v) }

/-- Every written-bit cleared, every value kept (R33, R371). -/
def Engine.clearWritten (e : Engine) : Engine where
  inp := ⟨e.inp.value, false⟩
  out := ⟨e.out.value, false⟩
  count := ⟨e.count.value, false⟩
  dryRight := ⟨e.dryRight.value, false⟩
  wetLeft := ⟨e.wetLeft.value, false⟩
  wetRight := ⟨e.wetRight.value, false⟩
  dry := ⟨e.dry.value, false⟩
  wet := ⟨e.wet.value, false⟩
  volLeft := ⟨e.volLeft.value, false⟩
  volRight := ⟨e.volRight.value, false⟩
  targetLeft := ⟨e.targetLeft.value, false⟩
  targetRight := ⟨e.targetRight.value, false⟩
  rateLeft := ⟨e.rateLeft.value, false⟩
  rateRight := ⟨e.rateRight.value, false⟩
  loop := ⟨e.loop.value, false⟩
  codebook := e.codebook.map (fun r => ⟨r.value, false⟩)
  envValue0 := ⟨e.envValue0.value, false⟩
  envValue1 := ⟨e.envValue1.value, false⟩
  envValue2 := ⟨e.envValue2.value, false⟩
  envStep0 := ⟨e.envStep0.value, false⟩
  envStep1 := ⟨e.envStep1.value, false⟩
  envStep2 := ⟨e.envStep2.value, false⟩

/-- `E[in]` as a scratch address. -/
def readInp : Act Half := readReg .inp (·.inp)

/-- `E[out]` as a scratch address. -/
def readOut : Act Half := readReg .out (·.out)

/-- `E[count]`, a byte count. -/
def readCount : Act Half := readReg .count (·.count)

/-- `E[dry_right]`. -/
def readDryRight : Act Half := readReg .dryRight (·.dryRight)

/-- `E[wet_left]`. -/
def readWetLeft : Act Half := readReg .wetLeft (·.wetLeft)

/-- `E[wet_right]`. -/
def readWetRight : Act Half := readReg .wetRight (·.wetRight)

/-- `E[dry]`, signed. -/
def readDry : Act Half := readReg .dry (·.dry)

/-- `E[wet]`, signed. -/
def readWet : Act Half := readReg .wet (·.wet)

/-- `E[vol][c]`, signed. -/
def readVol (c : Side) : Act Half := readReg (.vol c) (·.vol c)

/-- `E[target][c]`, signed. -/
def readTarget (c : Side) : Act Half := readReg (.target c) (·.target c)

/-- `E[rate][c]`, signed. -/
def readRate (c : Side) : Act Word := readReg (.rate c) (·.rate c)

/-- `E[loop]`. -/
def readLoop : Act Addr24 := readReg .loop (·.loop)

/-- `E[codebook][i]`, signed. -/
def readCodebook (i : Fin 128) : Act Half := readReg (.codebook i) (·.codebook.get i)

/-- `E[env_value][c]`, unsigned. -/
def readEnvValue (c : EnvCh) : Act Half := readReg (.envValue c) (·.envValue c)

/-- `E[env_step][c]`, unsigned. -/
def readEnvStep (c : EnvCh) : Act Half := readReg (.envStep c) (·.envStep c)

end Sys2Proof.Machine
end

