-- ==== Sys2Proof/Machine/Operands.lean ====
section
/-! DEFINITION. Machine/Operands.lean: operand assembly (30_encoding.md R120, 20_memory.md R78). -/

namespace Sys2Proof.Machine

/-- A scratch address field of SETBUFF or CLEARBUFF: `lo16(field + DMEM_BASE)` (R120). -/
def scratchField (p : Params) (field : Half) : Half := field + p.dmemBase

/-- `RESOLVE(w)` (R78): with `low24`, bits 23 to 0. -/
def resolveWord (r : Resolve) (w : Word) : Addr24 :=
  match r with
  | .low24 => w.extractLsb' 0 24
  | .table n => Config.resolveTable n w

/-- The main-memory address an address word names in a state. -/
def State.resolved (s : State) (w : Word) : Nat := (resolveWord s.params.resolve w).toNat

/-- `RESOLVE(w)` as a command uses it. -/
def resolve (w : Word) : Act Addr24 := look fun s => resolveWord s.params.resolve w

/-- A block base: resolved, then checked for alignment (R77). -/
def blockBase (w : Word) : Act Nat := do
  let a ← resolve w
  checkAlign a.toNat
  pure a.toNat

/-- A nead address field: `field << 4` (R120). -/
def neadAddr (field : Byte) : Nat := field.toNat * 16

/-- ENVSETUP1's value2: shifted left 8 (R120). -/
def value2Field (v : Byte) : Half := v ++ (0 : Byte)

/-- RESAMPLE's pitch: shifted left 1, a Q16.16 ratio (R120, R302). -/
def pitchRatio (field : Half) : Nat := field.toNat * 2

end Sys2Proof.Machine
end

