-- ==== Sys2Proof/Machine/Adpcm.lean ====
section
/-! DEFINITION. Machine/Adpcm.lean: the ADPCM decoder (41_adpcm.md R200 to R211). -/

namespace Sys2Proof.Machine

/-! ## Residuals (R201 to R203) -/

/-- `scale = h[7:4]` (R201). -/
def frameScale (h : Byte) : Nat := (h.extractLsb' 4 4).toNat

/-- `idx = h[3:0]` (R201). -/
def frameIndex (h : Byte) : Nat := (h.extractLsb' 0 4).toNat

/-- The two residuals of a 4-bit payload byte, the high nibble first (R202). -/
def residuals4 (scale : Nat) (b : Byte) : List Int :=
  [shl (b.extractLsb' 4 4).toInt (min scale 12), shl (b.extractLsb' 0 4).toInt (min scale 12)]

/-- The four residuals of a 2-bit payload byte, the most significant pair first (R203). -/
def residuals2 (scale : Nat) (b : Byte) : List Int :=
  [shl (b.extractLsb' 6 2).toInt (min scale 14), shl (b.extractLsb' 4 2).toInt (min scale 14),
   shl (b.extractLsb' 2 2).toInt (min scale 14), shl (b.extractLsb' 0 2).toInt (min scale 14)]

/-- The 16 residuals of a frame's payload bytes (R202, R203). -/
def frameResiduals (twobit : Bool) (scale : Nat) (payload : List Byte) : List Int :=
  payload.flatMap (if twobit then residuals2 scale else residuals4 scale)

/-- Payload bytes of a frame: 8 in 4-bit mode, 4 in 2-bit mode (R200). -/
def payloadBytes (twobit : Bool) : Nat := if twobit then 4 else 8

/-- Bytes of a frame with its header (R200). -/
def frameBytes (twobit : Bool) : Nat := payloadBytes twobit + 1

/-! ## Prediction (R204 to R207) -/

/-- The bits of `CB(j)`: a written entry below 128, a fault for an unwritten one, any value from 128 on (R204). -/
def codebookBits (j : Nat) : Act Half := if h : j < 128 then readCodebook ⟨j, h⟩ else drawHalf

/-- `CB(j)` (R204). -/
def codebookLookup (j : Nat) : Act Int := do
  let v ← codebookBits j
  pure v.toInt

/-- One turn of the block's loop: `book1[k]`, then `book2[k]`. -/
def codebookPair (idx k : Nat) : Act (Int × Int) := do
  let b1 ← codebookLookup (16 * idx + k)
  let b2 ← codebookLookup (16 * idx + 8 + k)
  pure (b1, b2)

/-- The block of an index, `(book1[k], book2[k])` for k upward (R205). The lookups alternate as the loop of R205 has them
(R12), which settles the first entry that faults (R346) and the order of the free values drawn. -/
def codebookBlock (idx : Nat) : Act (List (Int × Int)) := collect 8 (codebookPair idx)

/-- Element i of a list of samples. -/
def nth (xs : List Int) (i : Nat) : Int := xs.getD i 0

/-- The inner sum of R206: book2[k] times r[i-1-k], for k from 0 to n-1. -/
def innerSum (book2 r : List Int) (i : Nat) : Nat → Int
  | 0 => 0
  | n + 1 => innerSum book2 r i n + nth book2 n * nth r (i - 1 - n)

/-- The finished sum of sample i of a pass (R206). -/
def predictSum (book1 book2 r : List Int) (l1 l2 : Int) (i : Nat) : Int :=
  shl (nth r i) 11 + nth book1 i * l1 + nth book2 i * l2 + innerSum book2 r i i

/-- One pass: 8 residuals and 2 seeds to 8 samples (R206). -/
def predict (book1 book2 r : List Int) (l1 l2 : Int) : Act (List Int) :=
  collect 8 fun i => do
    let acc ← acc32 (predictSum book1 book2 r l1 l2 i)
    pure (clamp16 (asr acc 11))

/-- One frame at `inp` with the history before it: header, residuals, block, two passes (R205, R207, R211). -/
def decodeFrame (twobit : Bool) (inp : Nat) (hist : List Int) : Act (List Int) := do
  let h ← d8 inp
  let payload ← collect (payloadBytes twobit) fun j => d8 (inp + 1 + j)
  let r := frameResiduals twobit (frameScale h) payload
  let block ← codebookBlock (frameIndex h)
  let y0 ← predict (block.map (·.1)) (block.map (·.2)) (r.take 8) (nth hist 14) (nth hist 15)
  let y1 ← predict (block.map (·.1)) (block.map (·.2)) (r.drop 8) (nth y0 6) (nth y0 7)
  pure (y0 ++ y1)

/-! ## The command (R208 to R211) -/

/-- The history block at `src` (R208). -/
def readHistory (src : Nat) : Act (List Int) := do
  checkAlign src
  collect 16 fun i => do
    let v ← memRead16 (src + 2 * i)
    pure v.toInt

/-- The history at the start: zero, the loop block or the last-frame block (R208). -/
def loadHistory (init loop : Bool) (lfa : Nat) : Act (List Int) :=
  if init then pure (List.replicate 16 0)
  else if loop then do
    let a ← readLoop
    readHistory a.toNat
  else readHistory lfa

/-- 16 samples to scratch. -/
def storeSamples (o : Nat) (xs : List Int) : Act Unit := loop 16 fun i => d16w (o + 2 * i) (nth xs i)

/-- The number of frames: the byte count rounded up to 32, over 32 (R211). -/
def frameCount (count : Half) : Nat := alignUp count.toNat 32 / 32

/-- The frames in order; the last frame's samples come back (R211). -/
def decodeFrames (twobit : Bool) (inp out : Nat) (n : Nat) (hist : List Int) : Act (List Int) :=
  loopFrom n hist fun frame hist => do
    let y ← decodeFrame twobit (inp + frameBytes twobit * frame) hist
    storeSamples (out + 32 + 32 * frame) y
    pure y

/-- ADPCM (R211). -/
def adpcm (init loopFlag twobit : Bool) (lfaWord : Word) : Act Unit := do
  let lfa ← blockBase lfaWord
  let inp ← readInp
  let out ← readOut
  let count ← readCount
  let hist ← loadHistory init loopFlag lfa
  storeSamples out.toNat hist
  let last ← decodeFrames twobit inp.toNat out.toNat (frameCount count) hist
  loop 16 fun i => memWrite16 (lfa + 2 * i) (lo16 (nth last i))

/-- ADPCM (R211). -/
def execAdpcm (init loopFlag twobit : Bool) (lfa : Word) (s : State) : Host.Outcome State Fault Refusal :=
  runAct (adpcm init loopFlag twobit lfa) s

end Sys2Proof.Machine
end

