-- ==== Sys2Proof/Machine/Control.lean ====
section
/-! DEFINITION. Machine/Control.lean: NOOP, the setup commands, CLEARBUFF, LOADADPCM (40_control.md R145 to R152). -/

namespace Sys2Proof.Machine

/-- NOOP: do nothing (R145). -/
def execNoop (s : State) : Host.Outcome State Fault Refusal := runAct (pure ()) s

/-- SETBUFF with AUX clear (R146). -/
def setbuff (inp out count : Half) : Act Unit := do
  let p ← getParams
  setEng fun e => { e with inp := .of (scratchField p inp), out := .of (scratchField p out), count := .of count }

/-- SETBUFF with AUX clear (R146). -/
def execSetbuff (inp out count : Half) (s : State) : Host.Outcome State Fault Refusal := runAct (setbuff inp out count) s

/-- SETBUFF with AUX set (R146). -/
def setbuffAux (dryRight wetLeft wetRight : Half) : Act Unit := do
  let p ← getParams
  setEng fun e => { e with
    dryRight := .of (scratchField p dryRight)
    wetLeft := .of (scratchField p wetLeft)
    wetRight := .of (scratchField p wetRight) }

/-- SETBUFF with AUX set (R146). -/
def execSetbuffAux (dryRight wetLeft wetRight : Half) (s : State) : Host.Outcome State Fault Refusal :=
  runAct (setbuffAux dryRight wetLeft wetRight) s

/-- SETVOL with AUX set: the gain constants (R147). -/
def execSetvolAux (dry wet : Half) (s : State) : Host.Outcome State Fault Refusal :=
  runAct (setEng fun e => { e with dry := .of dry, wet := .of wet }) s

/-- SETVOL with AUX clear and VOL set: the start gain of a channel (R147). -/
def execSetvolVol (side : Side) (vol : Half) (s : State) : Host.Outcome State Fault Refusal :=
  runAct (setEng fun e => e.setVol side vol) s

/-- SETVOL with AUX and VOL clear: the target and rate of a channel (R147). -/
def execSetvol (side : Side) (target : Half) (rate : Word) (s : State) : Host.Outcome State Fault Refusal :=
  runAct (setEng fun e => (e.setTarget side target).setRate side rate) s

/-- SETLOOP (R148). -/
def setloop (addr : Word) : Act Unit := do
  let a ← resolve addr
  setEng fun e => { e with loop := .of a }

/-- SETLOOP (R148). -/
def execSetloop (addr : Word) (s : State) : Host.Outcome State Fault Refusal := runAct (setloop addr) s

/-- The number of entries LOADADPCM loads: the byte count rounded up to 8, halved (R149). -/
def loadCount (count : Half) : Nat := alignUp count.toNat 8 / 2

/-- LOADADPCM (R149). -/
def loadadpcm (count : Half) (addr : Word) : Act Unit := do
  let a ← resolve addr
  refuseIf (decide (Config.codebookSize < loadCount count)) .loadadpcmSize
  checkAlign a.toNat
  loop (loadCount count) fun i => do
    let v ← memRead16 (a.toNat + 2 * i)
    setEng fun e => e.setCodebook i v

/-- LOADADPCM (R149). -/
def execLoadadpcm (count : Half) (addr : Word) (s : State) : Host.Outcome State Fault Refusal :=
  runAct (loadadpcm count addr) s

/-- The number of bytes CLEARBUFF clears (R150). -/
def clearCount (count : Half) : Nat := alignUp count.toNat 16

/-- CLEARBUFF (R150). -/
def clearbuff (dmem count : Half) : Act Unit := do
  let p ← getParams
  loop (clearCount count) fun j => d8w ((scratchField p dmem).toNat + j) 0

/-- CLEARBUFF (R150). -/
def execClearbuff (dmem count : Half) (s : State) : Host.Outcome State Fault Refusal := runAct (clearbuff dmem count) s

/-- ENVSETUP1 (R151). -/
def execEnvsetup1 (value2 : Byte) (step2 step0 step1 : Half) (s : State) : Host.Outcome State Fault Refusal :=
  runAct (setEng fun e => { e with
    envValue2 := .of (value2Field value2), envStep2 := .of step2, envStep0 := .of step0, envStep1 := .of step1 }) s

/-- ENVSETUP2 (R152). -/
def execEnvsetup2 (value0 value1 : Half) (s : State) : Host.Outcome State Fault Refusal :=
  runAct (setEng fun e => { e with envValue0 := .of value0, envValue1 := .of value1 }) s

end Sys2Proof.Machine
end

