-- ==== Sys2Proof/Machine/EnvMixer.lean ====
section
/-! DEFINITION. Machine/EnvMixer.lean: the exponential and linear envelope mixers (42_envmixer.md R240 to R249). -/

namespace Sys2Proof.Machine

/-! ## Ramps (R241, R242) -/

/-- The registers of one ramp while a mixer runs (R241). -/
structure Ramp where
  value : Int
  target : Int
  step : Int
deriving DecidableEq, Repr

/-- What `ramp_step` does once the new value is known: snap to the target where it is reached (R242). -/
def Ramp.settle (r : Ramp) (v : Int) : Ramp :=
  if (if r.step ≤ 0 then v ≤ r.target else r.target ≤ v) then { r with value := r.target, step := 0 }
  else { r with value := v }

/-- `ramp_step` (R242); the gain is `Ramp.gain` of the result. -/
def rampStep (r : Ramp) : Act Ramp := do
  let v ← acc32 (r.value + r.step)
  pure (r.settle v)

/-- The gain: the value's upper 16 bits (R242). -/
def Ramp.gain (r : Ramp) : Int := asr r.value 16

/-! ## Gains and mixing (R243, R244) -/

/-- A channel gain from a ramp gain and a gain constant (R243). -/
def channelGain (g constant : Int) : Int := clamp16 (asr (g * constant + 0x4000) 15)

/-- What a channel adds for an input sample (R244). -/
def contribution (s g : Int) : Int := asr (s * g + 0x4000) 15

/-- `mix(b, g, p, s)` (R244). -/
def mix (b : Nat) (g : Int) (p : Nat) (s : Int) : Act Unit := do
  let old ← d16 (b + 2 * p)
  d16w (b + 2 * p) (clamp16 (old + contribution s g))

/-- The buffers of a mixer: the input, the dry pair, and the wet pair where the command uses it (R240). -/
structure MixBufs where
  inp : Nat
  dl : Nat
  dr : Nat
  wets : Option (Nat × Nat)
deriving DecidableEq, Repr

/-- Sample p with the two ramp gains: gains, input, then the channels in the order dl, dr, wl, wr (R243, R244). -/
def mixSample (b : MixBufs) (dry wet : Int) (p : Nat) (lv rv : Int) : Act Unit := do
  let s ← d16 (b.inp + 2 * p)
  mix b.dl (channelGain lv dry) p s
  mix b.dr (channelGain rv dry) p s
  match b.wets with
  | none => pure ()
  | some (wl, wr) => do
    mix wl (channelGain lv wet) p s
    mix wr (channelGain rv wet) p s

/-- One sample of a mixer: both ramps step, left first, and the sample is mixed (R242 to R244). -/
def mixerSample (b : MixBufs) (dry wet : Int) (p : Nat) (rs : Ramp × Ramp) : Act (Ramp × Ramp) := do
  let l ← rampStep rs.1
  let r ← rampStep rs.2
  mixSample b dry wet p l.gain r.gain
  pure (l, r)

/-- The 80-byte save block is checked whole before any byte is written (R246). -/
def checkSaveBlock (a : Nat) : Act Unit := checkStore a Config.envBlockSize

/-- The unnamed bytes of a save block get any value (R245, R248). -/
def saveUnnamed (a : Nat) (offsets : List Nat) : Act Unit :=
  match offsets with
  | [] => pure ()
  | o :: rest => do
    let v ← drawByte
    memWrite8 (a + o) v
    saveUnnamed a rest

/-- The low 32 bits of a ramp register, as a save block holds them. -/
def lo32 (v : Int) : Word := BitVec.ofInt 32 v

/-! ## The exponential mixer (R245, R246) -/

/-- A ramp of the exponential mixer: also its rate and its sequence (R241). -/
structure ExpRamp where
  ramp : Ramp
  rate : Int
  seq : Int
deriving DecidableEq, Repr

/-- The gain constants and the two ramps, as a command starts with them and saves them. -/
structure ExpState where
  wet : Int
  dry : Int
  left : ExpRamp
  right : ExpRamp
deriving DecidableEq, Repr

/-- A ramp once its value, target, rate and seq are known: `step <- acc32(target - value)` (R246). -/
def startStep (value target rate seq : Int) : Act ExpRamp := do
  let step ← acc32 (target - value)
  pure ⟨⟨value, target, step⟩, rate, seq⟩

/-- INIT: everything from the engine registers, read in the order R246 lists. -/
def expFromRegs : Act ExpState := do
  let dry ← readDry
  let wet ← readWet
  let volL ← readVol .left
  let volR ← readVol .right
  let tgL ← readTarget .left
  let tgR ← readTarget .right
  let rateL ← readRate .left
  let rateR ← readRate .right
  let seqL ← acc32 (volL.toInt * rateL.toInt)
  let seqR ← acc32 (volR.toInt * rateR.toInt)
  let l ← startStep (shl volL.toInt 16) (shl tgL.toInt 16) rateL.toInt seqL
  let r ← startStep (shl volR.toInt 16) (shl tgR.toInt 16) rateR.toInt seqR
  pure ⟨wet.toInt, dry.toInt, l, r⟩

/-- INIT clear: everything from the save block (R245, R246). -/
def expFromBlock (a : Nat) : Act ExpState := do
  let wet ← memRead16 (a + 2)
  let dry ← memRead16 (a + 6)
  let targetL ← memRead32 (a + 8)
  let targetR ← memRead32 (a + 12)
  let rateL ← memRead32 (a + 16)
  let rateR ← memRead32 (a + 20)
  let seqL ← memRead32 (a + 24)
  let seqR ← memRead32 (a + 28)
  let valueL ← memRead32 (a + 32)
  let valueR ← memRead32 (a + 36)
  let l ← startStep valueL.toInt targetL.toInt rateL.toInt seqL.toInt
  let r ← startStep valueR.toInt targetR.toInt rateR.toInt seqR.toInt
  pure ⟨wet.toInt, dry.toInt, l, r⟩

/-- What ENVMIXER starts with: the engine registers or the save block (R246). -/
def expLoad (init : Bool) (a : Nat) : Act ExpState := if init then expFromRegs else expFromBlock a

/-- At a segment's start, a moving ramp advances its sequence and recomputes its step (R246). -/
def segmentStart (r : ExpRamp) : Act ExpRamp :=
  if r.ramp.step = 0 then pure r
  else do
    let seq ← acc32 (asr (r.seq * r.rate) 16)
    let d ← acc32 (seq - r.ramp.value)
    pure ⟨{ r.ramp with step := asr d 3 }, r.rate, seq⟩

/-- One segment: the recompute, then 8 samples (R246). -/
def expSegment (b : MixBufs) (segment : Nat) (x : ExpState) : Act ExpState := do
  let l ← segmentStart x.left
  let r ← segmentStart x.right
  let rs ← loopFrom 8 (l.ramp, r.ramp) fun j rs => mixerSample b x.dry x.wet (8 * segment + j) rs
  pure { x with left := { l with ramp := rs.1 }, right := { r with ramp := rs.2 } }

/-- The bytes of the exponential save block no field names (R245). -/
def expUnnamed : List Nat := [0, 1, 4, 5] ++ List.range' 40 40

/-- The save of the exponential mixer (R245, R246). -/
def expSave (a : Nat) (x : ExpState) : Act Unit := do
  checkSaveBlock a
  memWrite16 (a + 2) (lo16 x.wet)
  memWrite16 (a + 6) (lo16 x.dry)
  memWrite32 (a + 8) (lo32 x.left.ramp.target)
  memWrite32 (a + 12) (lo32 x.right.ramp.target)
  memWrite32 (a + 16) (lo32 x.left.rate)
  memWrite32 (a + 20) (lo32 x.right.rate)
  memWrite32 (a + 24) (lo32 x.left.seq)
  memWrite32 (a + 28) (lo32 x.right.seq)
  memWrite32 (a + 32) (lo32 x.left.ramp.value)
  memWrite32 (a + 36) (lo32 x.right.ramp.value)
  saveUnnamed a expUnnamed

/-- The wet buffers, read only with AUX (R246). -/
def readWets (aux : Bool) : Act (Option (Nat × Nat)) :=
  if aux then do
    let wl ← readWetLeft
    let wr ← readWetRight
    pure (some (wl.toNat, wr.toNat))
  else pure none

/-- The number of segments: the byte count rounded up to 16, over 16 (R246). -/
def segmentCount (count : Half) : Nat := alignUp count.toNat 16 / 16

/-- ENVMIXER (R246). -/
def envmixer (init aux : Bool) (block : Word) : Act Unit := do
  let a ← blockBase block
  let inp ← readInp
  let dl ← readOut
  let count ← readCount
  let dr ← readDryRight
  let wets ← readWets aux
  let x ← expLoad init a
  let y ← loopFrom (segmentCount count) x (expSegment ⟨inp.toNat, dl.toNat, dr.toNat, wets⟩)
  expSave a y

/-- ENVMIXER (R246). -/
def execEnvmixer (init aux : Bool) (block : Word) (s : State) : Host.Outcome State Fault Refusal :=
  runAct (envmixer init aux block) s

/-! ## The linear mixer (R248, R249) -/

/-- The gain constants and the two ramps of the linear mixer. -/
structure LinState where
  wet : Int
  dry : Int
  ramps : Ramp × Ramp
deriving DecidableEq, Repr

/-- A linear ramp from the registers: `step <- tdiv(rate, 8)` (R249). -/
def linRamp (vol target : Half) (rate : Word) : Ramp :=
  ⟨shl vol.toInt 16, shl target.toInt 16, tdiv rate.toInt 8⟩

/-- INIT: everything from the engine registers, in the order of R246. -/
def linFromRegs : Act LinState := do
  let dry ← readDry
  let wet ← readWet
  let volL ← readVol .left
  let volR ← readVol .right
  let tgL ← readTarget .left
  let tgR ← readTarget .right
  let rateL ← readRate .left
  let rateR ← readRate .right
  pure ⟨wet.toInt, dry.toInt, linRamp volL tgL rateL, linRamp volR tgR rateR⟩

/-- INIT clear: everything from the save block (R248, R249). -/
def linFromBlock (a : Nat) : Act LinState := do
  let wet ← memRead16 (a + 2)
  let dry ← memRead16 (a + 6)
  let targetL ← memRead16 (a + 10)
  let targetR ← memRead16 (a + 14)
  let stepL ← memRead32 (a + 16)
  let stepR ← memRead32 (a + 20)
  let valueL ← memRead32 (a + 32)
  let valueR ← memRead32 (a + 36)
  pure ⟨wet.toInt, dry.toInt, ⟨valueL.toInt, shl targetL.toInt 16, stepL.toInt⟩,
    ⟨valueR.toInt, shl targetR.toInt 16, stepR.toInt⟩⟩

/-- What ENVMIXER_LIN starts with: the engine registers or the save block (R249). -/
def linLoad (init : Bool) (a : Nat) : Act LinState := if init then linFromRegs else linFromBlock a

/-- The bytes of the linear save block no field names (R248). -/
def linUnnamed : List Nat := [0, 1, 4, 5, 8, 9, 12, 13] ++ List.range' 24 8 ++ List.range' 40 40

/-- Bits 31 to 16 of a target, as the linear save block holds them (R248). -/
def targetHalf (v : Int) : Half := lo16 (asr v 16)

/-- The save of the linear mixer (R248, R249). -/
def linSave (a : Nat) (x : LinState) : Act Unit := do
  checkSaveBlock a
  memWrite16 (a + 2) (lo16 x.wet)
  memWrite16 (a + 6) (lo16 x.dry)
  memWrite16 (a + 10) (targetHalf x.ramps.1.target)
  memWrite16 (a + 14) (targetHalf x.ramps.2.target)
  memWrite32 (a + 16) (lo32 x.ramps.1.step)
  memWrite32 (a + 20) (lo32 x.ramps.2.step)
  memWrite32 (a + 32) (lo32 x.ramps.1.value)
  memWrite32 (a + 36) (lo32 x.ramps.2.value)
  saveUnnamed a linUnnamed

/-- The number of samples: the byte count rounded up to 2, over 2 (R249). -/
def linCount (count : Half) : Nat := alignUp count.toNat 2 / 2

/-- ENVMIXER_LIN (R249). -/
def envmixerLin (init : Bool) (block : Word) : Act Unit := do
  let a ← blockBase block
  let inp ← readInp
  let dl ← readOut
  let count ← readCount
  let dr ← readDryRight
  let wl ← readWetLeft
  let wr ← readWetRight
  let x ← linLoad init a
  let rs ← loopFrom (linCount count) x.ramps
    (mixerSample ⟨inp.toNat, dl.toNat, dr.toNat, some (wl.toNat, wr.toNat)⟩ x.dry x.wet)
  linSave a { x with ramps := rs }

/-- ENVMIXER_LIN (R249). -/
def execEnvmixerLin (init : Bool) (block : Word) (s : State) : Host.Outcome State Fault Refusal :=
  runAct (envmixerLin init block) s

end Sys2Proof.Machine
end

