-- ==== Sys2Proof/Machine/Nead.lean ====
section
/-! DEFINITION. Machine/Nead.lean: the nead mixer (42_envmixer.md R250 to R252). -/

namespace Sys2Proof.Machine

/-- A sign-inversion mask: 0xFFFF where the XOR flag is set (R250). -/
def xorMask (flag : Bool) : Half := if flag then 0xFFFF else 0

/-- `to_s16(lo16(asr(s·ev, 16)) XOR mask)`, the shape of every line of R251. -/
def neadScale (s : Int) (ev mask : Half) : Int := (lo16 (asr (s * ev.toNat) 16) ^^^ mask).toInt

/-- The four contributions of an input sample (R251). -/
structure NeadOut where
  l : Int
  r : Int
  lw : Int
  rw : Int
deriving DecidableEq, Repr

/-- The masks of the four channels (R250). -/
structure NeadMasks where
  dl : Half
  dr : Half
  wl : Half
  wr : Half
deriving DecidableEq, Repr

/-- The three envelope values (R250). -/
structure Envs where
  e0 : Half
  e1 : Half
  e2 : Half
deriving DecidableEq, Repr

/-- The nead sample (R251): the wet values come from the dry values after their XOR. -/
def neadSample (m : NeadMasks) (ev : Envs) (s : Int) : NeadOut :=
  { l := neadScale s ev.e0 m.dl
    r := neadScale s ev.e1 m.dr
    lw := neadScale (neadScale s ev.e0 m.dl) ev.e2 m.wl
    rw := neadScale (neadScale s ev.e1 m.dr) ev.e2 m.wr }

/-- Each envelope value advances by its step, mod 2^16 (R252). -/
def Envs.advance (ev es : Envs) : Envs := ⟨ev.e0 + es.e0, ev.e1 + es.e1, ev.e2 + es.e2⟩

/-- The buffers of the nead mixer, after SWAP. -/
structure NeadBufs where
  inp : Nat
  dl : Nat
  dr : Nat
  wl : Nat
  wr : Nat
deriving DecidableEq, Repr

/-- The buffers from the command's fields; SWAP exchanges the two wet destinations (R252). -/
def neadBufs (inp : Byte) (swap : Bool) (dl dr wl wr : Byte) : NeadBufs :=
  ⟨neadAddr inp, neadAddr dl, neadAddr dr, neadAddr (if swap then wr else wl), neadAddr (if swap then wl else wr)⟩

/-- A saturated accumulation into a channel buffer (R252). -/
def accumulate (a : Nat) (v : Int) : Act Unit := do
  let old ← d16 a
  d16w a (clamp16 (old + v))

/-- Sample p: the four channels in the order dl, dr, wl, wr (R252). -/
def neadMix (b : NeadBufs) (m : NeadMasks) (ev : Envs) (p : Nat) : Act Unit := do
  let s ← d16 (b.inp + 2 * p)
  let o := neadSample m ev s
  accumulate (b.dl + 2 * p) o.l
  accumulate (b.dr + 2 * p) o.r
  accumulate (b.wl + 2 * p) o.lw
  accumulate (b.wr + 2 * p) o.rw

/-- `E[env_value][c] <- ev[c]` for c = 0, 1, 2. -/
def storeEnvs (ev : Envs) : Act Unit :=
  setEng fun e => ((e.setEnvValue .c0 ev.e0).setEnvValue .c1 ev.e1).setEnvValue .c2 ev.e2

/-- One group of 8 samples, after which the envelope values advance and are written back (R252). -/
def neadGroup (b : NeadBufs) (m : NeadMasks) (es : Envs) (group : Nat) (ev : Envs) : Act Envs := do
  loop 8 fun i => neadMix b m ev (8 * group + i)
  storeEnvs (ev.advance es)
  pure (ev.advance es)

/-- The number of groups: the sample count rounded up to 8, over 8 (R252). -/
def groupCount (count : Byte) : Nat := alignUp count.toNat 8 / 8

/-- ENVMIXER_NEAD (R252). -/
def envmixerNead (inp count : Byte) (swap xorWl xorWr xorDl xorDr : Bool) (dl dr wl wr : Byte) : Act Unit := do
  let v0 ← readEnvValue .c0
  let v1 ← readEnvValue .c1
  let v2 ← readEnvValue .c2
  let s0 ← readEnvStep .c0
  let s1 ← readEnvStep .c1
  let s2 ← readEnvStep .c2
  let _ ← loopFrom (groupCount count) ⟨v0, v1, v2⟩
    (neadGroup (neadBufs inp swap dl dr wl wr) ⟨xorMask xorDl, xorMask xorDr, xorMask xorWl, xorMask xorWr⟩ ⟨s0, s1, s2⟩)
  pure ()

/-- ENVMIXER_NEAD (R252). -/
def execEnvmixerNead (inp count : Byte) (swap xorWl xorWr xorDl xorDr : Bool) (dl dr wl wr : Byte) (s : State) :
    Host.Outcome State Fault Refusal :=
  runAct (envmixerNead inp count swap xorWl xorWr xorDl xorDr dl dr wl wr) s

end Sys2Proof.Machine
end

