-- ==== Sys2Proof/Machine/Resample.lean ====
section
/-! DEFINITION. Machine/Resample.lean: the resampler (43_resample.md R300 to R306). -/

namespace Sys2Proof.Machine

/-- The read position and the fraction while the command runs (R302, R303). -/
structure Window where
  ip : Half
  acc : Half
deriving DecidableEq, Repr

/-- The kernel selected by the top 6 fractional bits, `acc[15:10]` (R304). -/
def kernelOf (lut : Lut) (acc : Half) : Taps := lut.get (acc.extractLsb' 10 6).toFin

/-- The dot product of 4 samples with a kernel (R304). -/
def dotTaps (k : Taps) (x0 x1 x2 x3 : Int) : Int :=
  x0 * k.t0.toInt + x1 * k.t1.toInt + x2 * k.t2.toInt + x3 * k.t3.toInt

/-- The window after one output: the ratio is added, its integer part moves the read position (R302, R304). -/
def Window.advance (w : Window) (pitch : Nat) : Window :=
  { ip := BitVec.ofNat 16 (w.ip.toNat + 2 * ((w.acc.toNat + pitch) / 65536))
    acc := BitVec.ofNat 16 (w.acc.toNat + pitch) }

/-- One output sample and the window after it (R304). -/
def resampleOne (pitch : Nat) (w : Window) : Act (Int × Window) := do
  let p ← getParams
  let x0 ← d16 w.ip.toNat
  let x1 ← d16 (w.ip.toNat + 2)
  let x2 ← d16 (w.ip.toNat + 4)
  let x3 ← d16 (w.ip.toNat + 6)
  let v ← acc32 (dotTaps (kernelOf p.lut w.acc) x0 x1 x2 x3)
  pure (clamp16 (asr v 15), w.advance pitch)

/-- The number of output samples: the byte count rounded up to 16, over 2 (R306). -/
def outputCount (count : Half) : Nat := alignUp count.toNat 16 / 2

/-- The 4 history samples into the window, and the fraction: zeros, or the state block's (R303, R305, R306). -/
def startWindow (init : Bool) (sa : Nat) (ip : Half) : Act Window :=
  if init then do
    loop 4 fun t => d16w (ip.toNat + 2 * t) 0
    pure ⟨ip, 0⟩
  else do
    loop 4 fun t => do
      let v ← memRead16 (sa + 2 * t)
      d16w (ip.toNat + 2 * t) v.toInt
    let acc ← memRead16 (sa + 8)
    pure ⟨ip, acc⟩

/-- Output j: one sample, stored at `o + 2j` (R306). -/
def resampleStep (pitch out : Nat) (j : Nat) (w : Window) : Act Window := do
  let y ← resampleOne pitch w
  d16w (out + 2 * j) y.1
  pure y.2

/-- The state block: the 4 window samples read back from scratch, and the fraction (R305, R306). -/
def saveWindow (sa : Nat) (w : Window) : Act Unit := do
  checkStore sa 10
  loop 4 fun t => do
    let v ← d16 (w.ip.toNat + 2 * t)
    memWrite16 (sa + 2 * t) (lo16 v)
  memWrite16 (sa + 8) w.acc

/-- RESAMPLE with FLAG2 clear (R306). -/
def resample (init : Bool) (pitch : Half) (stateWord : Word) : Act Unit := do
  let sa ← blockBase stateWord
  let inp ← readInp
  let out ← readOut
  let count ← readCount
  let w ← startWindow init sa (inp - 8)
  let w' ← loopFrom (outputCount count) w (resampleStep (pitchRatio pitch) out.toNat)
  saveWindow sa w'

/-- RESAMPLE with FLAG2 clear (R306). -/
def execResample (init : Bool) (pitch : Half) (stateWord : Word) (s : State) : Host.Outcome State Fault Refusal :=
  runAct (resample init pitch stateWord) s

/-- RESAMPLE with FLAG2 set is refused before any effect (R306). -/
def execResampleFlag2 (s : State) : Host.Outcome State Fault Refusal := runAct (refuse .resampleFlag2) s

end Sys2Proof.Machine
end

