-- ==== Sys2Proof/Machine/Slots.lean ====
section
/-! DEFINITION. Machine/Slots.lean: the opcode slots outside the block and the opcodes beyond the table
(30_encoding.md R103 to R105). -/

namespace Sys2Proof.Machine

/-- An in-table slot outside the block is refused before any effect (R105). -/
def outOfBlock : Act Unit := refuse .outOfBlockOpcode

/-- Slot 0x04 (R105). -/
def execLoadbuff (s : State) : Host.Outcome State Fault Refusal := runAct outOfBlock s

/-- Slot 0x06 (R105). -/
def execSavebuff (s : State) : Host.Outcome State Fault Refusal := runAct outOfBlock s

/-- Slot 0x07 (R105). -/
def execSegment (s : State) : Host.Outcome State Fault Refusal := runAct outOfBlock s

/-- Slot 0x0A (R105). -/
def execDmemmove (s : State) : Host.Outcome State Fault Refusal := runAct outOfBlock s

/-- Slot 0x0C (R105). -/
def execMixer (s : State) : Host.Outcome State Fault Refusal := runAct outOfBlock s

/-- Slot 0x0D (R105). -/
def execInterleave (s : State) : Host.Outcome State Fault Refusal := runAct outOfBlock s

/-- Slot 0x0E (R105). -/
def execPolef (s : State) : Host.Outcome State Fault Refusal := runAct outOfBlock s

/-- Slot 0x11 (R105). -/
def execSlot11 (s : State) : Host.Outcome State Fault Refusal := runAct outOfBlock s

/-- Slot 0x14 (R105). -/
def execSlot14 (s : State) : Host.Outcome State Fault Refusal := runAct outOfBlock s

/-- Slot 0x15 (R105). -/
def execSlot15 (s : State) : Host.Outcome State Fault Refusal := runAct outOfBlock s

/-- Slot 0x17 (R105). -/
def execSlot17 (s : State) : Host.Outcome State Fault Refusal := runAct outOfBlock s

/-- Slot 0x18 (R105). -/
def execSlot18 (s : State) : Host.Outcome State Fault Refusal := runAct outOfBlock s

/-- Slot 0x19 (R105). -/
def execSlot19 (s : State) : Host.Outcome State Fault Refusal := runAct outOfBlock s

/-- Slot 0x1A (R105). -/
def execSlot1A (s : State) : Host.Outcome State Fault Refusal := runAct outOfBlock s

/-- Slot 0x1B (R105). -/
def execSlot1B (s : State) : Host.Outcome State Fault Refusal := runAct outOfBlock s

/-- Slot 0x1C (R105). -/
def execSlot1C (s : State) : Host.Outcome State Fault Refusal := runAct outOfBlock s

/-- Slot 0x1D (R105). -/
def execSlot1D (s : State) : Host.Outcome State Fault Refusal := runAct outOfBlock s

/-- Slot 0x1E (R105). -/
def execSlot1E (s : State) : Host.Outcome State Fault Refusal := runAct outOfBlock s

/-- Slot 0x1F (R105). -/
def execSlot1F (s : State) : Host.Outcome State Fault Refusal := runAct outOfBlock s

/-- Opcodes 0x20 to 0x3F: a warning and otherwise a no-op (R104). -/
def execBeyond20 (op : Byte) (s : State) : Host.Outcome State Fault Refusal := runAct (warnUnknown op) s

/-- Opcodes 0x40 to 0x7F: a warning and otherwise a no-op (R104). -/
def execBeyond40 (op : Byte) (s : State) : Host.Outcome State Fault Refusal := runAct (warnUnknown op) s

/-- Opcodes 0x80 to 0xFF: a warning and otherwise a no-op (R104). -/
def execBeyond80 (op : Byte) (s : State) : Host.Outcome State Fault Refusal := runAct (warnUnknown op) s

end Sys2Proof.Machine
end

