-- ==== Sys2Proof/Machine/Dispatch.lean ====
section
/-! DEFINITION. Machine/Dispatch.lean: which meaning each command has (40_control.md R144). -/

namespace Sys2Proof.Machine

def exec (i : Instr) (s : State) : Host.Outcome State Fault Refusal :=
  match i with
  | .noop => Sys2Proof.Machine.execNoop s
  | .adpcm init loopFlag twobit lfa => Sys2Proof.Machine.execAdpcm init loopFlag twobit lfa s
  | .clearbuff dmem count => Sys2Proof.Machine.execClearbuff dmem count s
  | .envmixer init aux block => Sys2Proof.Machine.execEnvmixer init aux block s
  | .resample init pitch stateWord => Sys2Proof.Machine.execResample init pitch stateWord s
  | .resampleFlag2 => Sys2Proof.Machine.execResampleFlag2 s
  | .setbuff inp out count => Sys2Proof.Machine.execSetbuff inp out count s
  | .setbuffAux dryRight wetLeft wetRight => Sys2Proof.Machine.execSetbuffAux dryRight wetLeft wetRight s
  | .setvolAux dry wet => Sys2Proof.Machine.execSetvolAux dry wet s
  | .setvolVol side vol => Sys2Proof.Machine.execSetvolVol side vol s
  | .setvol side target rate => Sys2Proof.Machine.execSetvol side target rate s
  | .loadadpcm count addr => Sys2Proof.Machine.execLoadadpcm count addr s
  | .setloop addr => Sys2Proof.Machine.execSetloop addr s
  | .envmixerLin init block => Sys2Proof.Machine.execEnvmixerLin init block s
  | .envsetup1 value2 step2 step0 step1 => Sys2Proof.Machine.execEnvsetup1 value2 step2 step0 step1 s
  | .envmixerNead inp count swap xorWl xorWr xorDl xorDr dl dr wl wr => Sys2Proof.Machine.execEnvmixerNead inp count swap xorWl xorWr xorDl xorDr dl dr wl wr s
  | .envsetup2 value0 value1 => Sys2Proof.Machine.execEnvsetup2 value0 value1 s
  | .loadbuff => Sys2Proof.Machine.execLoadbuff s
  | .savebuff => Sys2Proof.Machine.execSavebuff s
  | .segment => Sys2Proof.Machine.execSegment s
  | .dmemmove => Sys2Proof.Machine.execDmemmove s
  | .mixer => Sys2Proof.Machine.execMixer s
  | .interleave => Sys2Proof.Machine.execInterleave s
  | .polef => Sys2Proof.Machine.execPolef s
  | .slot11 => Sys2Proof.Machine.execSlot11 s
  | .slot14 => Sys2Proof.Machine.execSlot14 s
  | .slot15 => Sys2Proof.Machine.execSlot15 s
  | .slot17 => Sys2Proof.Machine.execSlot17 s
  | .slot18 => Sys2Proof.Machine.execSlot18 s
  | .slot19 => Sys2Proof.Machine.execSlot19 s
  | .slot1A => Sys2Proof.Machine.execSlot1A s
  | .slot1B => Sys2Proof.Machine.execSlot1B s
  | .slot1C => Sys2Proof.Machine.execSlot1C s
  | .slot1D => Sys2Proof.Machine.execSlot1D s
  | .slot1E => Sys2Proof.Machine.execSlot1E s
  | .slot1F => Sys2Proof.Machine.execSlot1F s
  | .beyond20 op => Sys2Proof.Machine.execBeyond20 op s
  | .beyond40 op => Sys2Proof.Machine.execBeyond40 op s
  | .beyond80 op => Sys2Proof.Machine.execBeyond80 op s

end Sys2Proof.Machine
end

