-- ==== Sys2Proof/WellFormed.lean ====
section
/-! DEFINITION. WellFormed.lean: which instruction terms are commands.

Every field has exactly the width its layout gives it, so only the three rows beyond the table need a check: their
opcode lies in the row's own range (30_encoding.md R103, R104). -/

namespace Sys2Proof

/-- The opcode of a row beyond the table lies in that row's range. -/
def Instr.wf : Instr → Bool
  | .beyond20 op => decide (0x20 ≤ op.toNat ∧ op.toNat < 0x40)
  | .beyond40 op => decide (0x40 ≤ op.toNat ∧ op.toNat < 0x80)
  | .beyond80 op => decide (0x80 ≤ op.toNat)
  | .noop | .adpcm _ _ _ _ | .clearbuff _ _ | .envmixer _ _ _ | .resample _ _ _ | .resampleFlag2
  | .setbuff _ _ _ | .setbuffAux _ _ _ | .setvolAux _ _ | .setvolVol _ _ | .setvol _ _ _ | .loadadpcm _ _
  | .setloop _ | .envmixerLin _ _ | .envsetup1 _ _ _ _ | .envmixerNead _ _ _ _ _ _ _ _ _ _ _ | .envsetup2 _ _
  | .loadbuff | .savebuff | .segment | .dmemmove | .mixer | .interleave | .polef
  | .slot11 | .slot14 | .slot15 | .slot17 | .slot18 | .slot19 | .slot1A | .slot1B | .slot1C | .slot1D
  | .slot1E | .slot1F => true

end Sys2Proof
end

