-- ==== Sys2Proof/Decode.lean ====
section
/-! DEFINITION. Decode.lean: from bytes to commands and back (30_encoding.md R100 to R120).

A command is 8 bytes whatever its opcode (R101), so `decodeWords` is total on two words and the only rejection, by
name, is a byte list that ends before the eighth byte. The encoder is written from the same layouts, with 0 in every
bit they leave unnamed (log 24). -/

namespace Sys2Proof

/-- Why bytes are no command. -/
inductive DecodeError where
  /-- Fewer than 8 bytes are left (R101). -/
  | truncated
deriving DecidableEq, Repr

/-! ## Fields (R102) -/

/-- The opcode, `w[31:24]`. -/
def opcodeOf (w : Word) : Byte := w.extractLsb' 24 8

/-- Bits 31 to 16. -/
def hiHalf (w : Word) : Half := w.extractLsb' 16 16

/-- Bits 15 to 0. -/
def loHalf (w : Word) : Half := w.extractLsb' 0 16

/-- Byte k of a word, byte 0 the least significant. -/
def byteOf (k : Nat) (w : Word) : Byte := w.extractLsb' (8 * k) 8

/-- `f[n]`, bit n of the flags byte `w0[23:16]`. -/
def flagBit (n : Nat) (w0 : Word) : Bool := w0.getLsbD (16 + n)

/-- SETVOL's channel: 0 (left) when LEFT = f[1] is 1 (R113). -/
def sideOf (w0 : Word) : Side := if flagBit 1 w0 then .left else .right

/-- ENVMIXER_NEAD, op 0x13 (R118). -/
def decodeNead (w0 w1 : Word) : Instr :=
  .envmixerNead (byteOf 2 w0) (byteOf 1 w0) (w0.getLsbD 4) (w0.getLsbD 3) (w0.getLsbD 2) (w0.getLsbD 1) (w0.getLsbD 0)
    (byteOf 3 w1) (byteOf 2 w1) (byteOf 1 w1) (byteOf 0 w1)

/-- SETVOL, op 0x09: AUX = f[3] selects the gains form, then VOL = f[2] the start volume form (R113). -/
def decodeSetvol (w0 w1 : Word) : Instr :=
  if flagBit 3 w0 then .setvolAux (loHalf w0) (loHalf w1)
  else if flagBit 2 w0 then .setvolVol (sideOf w0) (loHalf w0)
  else .setvol (sideOf w0) (loHalf w0) w1

/-- SETBUFF, op 0x08: AUX = f[3] selects the form (R112). -/
def decodeSetbuff (w0 w1 : Word) : Instr :=
  if flagBit 3 w0 then .setbuffAux (loHalf w0) (hiHalf w1) (loHalf w1)
  else .setbuff (loHalf w0) (hiHalf w1) (loHalf w1)

/-- RESAMPLE, op 0x05: FLAG2 = f[1] set is the refused form (R111). -/
def decodeResample (w0 w1 : Word) : Instr :=
  if flagBit 1 w0 then .resampleFlag2 else .resample (flagBit 0 w0) (loHalf w0) w1

/-- An opcode of 0x20 or more, by the row of the table it falls in (R103, R104). -/
def decodeBeyond (op : Byte) : Instr :=
  if op.toNat < 0x40 then .beyond20 op else if op.toNat < 0x80 then .beyond40 op else .beyond80 op

/-- The opcode map of R103. -/
def decodeWords (w0 w1 : Word) : Instr :=
  match (opcodeOf w0).toNat with
  | 0x00 => .noop
  | 0x01 => .adpcm (flagBit 0 w0) (flagBit 1 w0) (flagBit 2 w0) w1
  | 0x02 => .clearbuff (loHalf w0) (loHalf w1)
  | 0x03 => .envmixer (flagBit 0 w0) (flagBit 3 w0) w1
  | 0x04 => .loadbuff
  | 0x05 => decodeResample w0 w1
  | 0x06 => .savebuff
  | 0x07 => .segment
  | 0x08 => decodeSetbuff w0 w1
  | 0x09 => decodeSetvol w0 w1
  | 0x0A => .dmemmove
  | 0x0B => .loadadpcm (loHalf w0) w1
  | 0x0C => .mixer
  | 0x0D => .interleave
  | 0x0E => .polef
  | 0x0F => .setloop w1
  | 0x10 => .envmixerLin (flagBit 0 w0) w1
  | 0x11 => .slot11
  | 0x12 => .envsetup1 (byteOf 2 w0) (loHalf w0) (hiHalf w1) (loHalf w1)
  | 0x13 => decodeNead w0 w1
  | 0x14 => .slot14
  | 0x15 => .slot15
  | 0x16 => .envsetup2 (hiHalf w1) (loHalf w1)
  | 0x17 => .slot17
  | 0x18 => .slot18
  | 0x19 => .slot19
  | 0x1A => .slot1A
  | 0x1B => .slot1B
  | 0x1C => .slot1C
  | 0x1D => .slot1D
  | 0x1E => .slot1E
  | 0x1F => .slot1F
  | _ => decodeBeyond (opcodeOf w0)

/-- Four bytes as a big-endian word (20_memory.md R74). -/
def wordOfBytes (a b c d : Byte) : Word := a ++ b ++ c ++ d

/-- The decoder over bytes: the first 8 are one command, the rest is handed back. -/
def decode : List Byte → Except DecodeError (Instr × List Byte)
  | b0 :: b1 :: b2 :: b3 :: b4 :: b5 :: b6 :: b7 :: rest =>
    .ok (decodeWords (wordOfBytes b0 b1 b2 b3) (wordOfBytes b4 b5 b6 b7), rest)
  | _ => .error .truncated

/-! ## The encoder -/

/-- The flags byte with f[0] to f[3] given and 0 above. -/
def flagsByte (f0 f1 f2 f3 : Bool) : Byte :=
  (0 : BitVec 4) ++ BitVec.ofBool f3 ++ BitVec.ofBool f2 ++ BitVec.ofBool f1 ++ BitVec.ofBool f0

/-- A first word from its opcode, its flags byte and its low half. -/
def packWord0 (op flags : Byte) (low : Half) : Word := op ++ flags ++ low

/-- A second word from its two halves. -/
def packHalves (hi lo : Half) : Word := hi ++ lo

/-- LEFT = 1 for channel 0 (R113). -/
def leftFlag : Side → Bool
  | .left => true
  | .right => false

/-- The low half of ENVMIXER_NEAD's first word: the count byte, then SWAP and the four XOR flags (R118). -/
def neadLow (count : Byte) (swap xorWl xorWr xorDl xorDr : Bool) : Half :=
  count ++ (0 : BitVec 3) ++ BitVec.ofBool swap ++ BitVec.ofBool xorWl ++ BitVec.ofBool xorWr ++ BitVec.ofBool xorDl
    ++ BitVec.ofBool xorDr

/-- The two words of a command (R107 to R119). -/
def encodeWords : Instr → Word × Word
  | .noop => (packWord0 0x00 0 0, 0)
  | .adpcm init loop twobit lfa => (packWord0 0x01 (flagsByte init loop twobit false) 0, lfa)
  | .clearbuff dmem count => (packWord0 0x02 0 dmem, packHalves 0 count)
  | .envmixer init aux block => (packWord0 0x03 (flagsByte init false false aux) 0, block)
  | .resample init pitch state => (packWord0 0x05 (flagsByte init false false false) pitch, state)
  | .resampleFlag2 => (packWord0 0x05 (flagsByte false true false false) 0, 0)
  | .setbuff inp out count => (packWord0 0x08 0 inp, packHalves out count)
  | .setbuffAux dryRight wetLeft wetRight =>
    (packWord0 0x08 (flagsByte false false false true) dryRight, packHalves wetLeft wetRight)
  | .setvolAux dry wet => (packWord0 0x09 (flagsByte false false false true) dry, packHalves 0 wet)
  | .setvolVol side vol => (packWord0 0x09 (flagsByte false (leftFlag side) true false) vol, 0)
  | .setvol side target rate => (packWord0 0x09 (flagsByte false (leftFlag side) false false) target, rate)
  | .loadadpcm count addr => (packWord0 0x0B 0 count, addr)
  | .setloop addr => (packWord0 0x0F 0 0, addr)
  | .envmixerLin init block => (packWord0 0x10 (flagsByte init false false false) 0, block)
  | .envsetup1 value2 step2 step0 step1 => (packWord0 0x12 value2 step2, packHalves step0 step1)
  | .envmixerNead inp count swap xorWl xorWr xorDl xorDr dl dr wl wr =>
    (packWord0 0x13 inp (neadLow count swap xorWl xorWr xorDl xorDr), wordOfBytes dl dr wl wr)
  | .envsetup2 value0 value1 => (packWord0 0x16 0 0, packHalves value0 value1)
  | .loadbuff => (packWord0 0x04 0 0, 0)
  | .savebuff => (packWord0 0x06 0 0, 0)
  | .segment => (packWord0 0x07 0 0, 0)
  | .dmemmove => (packWord0 0x0A 0 0, 0)
  | .mixer => (packWord0 0x0C 0 0, 0)
  | .interleave => (packWord0 0x0D 0 0, 0)
  | .polef => (packWord0 0x0E 0 0, 0)
  | .slot11 => (packWord0 0x11 0 0, 0)
  | .slot14 => (packWord0 0x14 0 0, 0)
  | .slot15 => (packWord0 0x15 0 0, 0)
  | .slot17 => (packWord0 0x17 0 0, 0)
  | .slot18 => (packWord0 0x18 0 0, 0)
  | .slot19 => (packWord0 0x19 0 0, 0)
  | .slot1A => (packWord0 0x1A 0 0, 0)
  | .slot1B => (packWord0 0x1B 0 0, 0)
  | .slot1C => (packWord0 0x1C 0 0, 0)
  | .slot1D => (packWord0 0x1D 0 0, 0)
  | .slot1E => (packWord0 0x1E 0 0, 0)
  | .slot1F => (packWord0 0x1F 0 0, 0)
  | .beyond20 op => (packWord0 op 0 0, 0)
  | .beyond40 op => (packWord0 op 0 0, 0)
  | .beyond80 op => (packWord0 op 0 0, 0)

/-- The four bytes of a word, most significant first (20_memory.md R74). -/
def wordBytes (w : Word) : List Byte := [byteOf 3 w, byteOf 2 w, byteOf 1 w, byteOf 0 w]

/-- The 8 bytes of a command as main memory holds them (R100). -/
def encode (i : Instr) : List Byte := wordBytes (encodeWords i).1 ++ wordBytes (encodeWords i).2

/-! ## The opcode table's rows -/

/-- The `match` and `mask` that spec/opcode_table.json gives an instruction's row, over the first word. -/
def Instr.row : Instr → Word × Word
  | .noop => (0x00000000, 0xFF000000)
  | .adpcm _ _ _ _ => (0x01000000, 0xFF000000)
  | .clearbuff _ _ => (0x02000000, 0xFF000000)
  | .envmixer _ _ _ => (0x03000000, 0xFF000000)
  | .resample _ _ _ => (0x05000000, 0xFF020000)
  | .resampleFlag2 => (0x05020000, 0xFF020000)
  | .setbuff _ _ _ => (0x08000000, 0xFF080000)
  | .setbuffAux _ _ _ => (0x08080000, 0xFF080000)
  | .setvolAux _ _ => (0x09080000, 0xFF080000)
  | .setvolVol _ _ => (0x09040000, 0xFF0C0000)
  | .setvol _ _ _ => (0x09000000, 0xFF0C0000)
  | .loadadpcm _ _ => (0x0B000000, 0xFF000000)
  | .setloop _ => (0x0F000000, 0xFF000000)
  | .envmixerLin _ _ => (0x10000000, 0xFF000000)
  | .envsetup1 _ _ _ _ => (0x12000000, 0xFF000000)
  | .envmixerNead _ _ _ _ _ _ _ _ _ _ _ => (0x13000000, 0xFF000000)
  | .envsetup2 _ _ => (0x16000000, 0xFF000000)
  | .loadbuff => (0x04000000, 0xFF000000)
  | .savebuff => (0x06000000, 0xFF000000)
  | .segment => (0x07000000, 0xFF000000)
  | .dmemmove => (0x0A000000, 0xFF000000)
  | .mixer => (0x0C000000, 0xFF000000)
  | .interleave => (0x0D000000, 0xFF000000)
  | .polef => (0x0E000000, 0xFF000000)
  | .slot11 => (0x11000000, 0xFF000000)
  | .slot14 => (0x14000000, 0xFF000000)
  | .slot15 => (0x15000000, 0xFF000000)
  | .slot17 => (0x17000000, 0xFF000000)
  | .slot18 => (0x18000000, 0xFF000000)
  | .slot19 => (0x19000000, 0xFF000000)
  | .slot1A => (0x1A000000, 0xFF000000)
  | .slot1B => (0x1B000000, 0xFF000000)
  | .slot1C => (0x1C000000, 0xFF000000)
  | .slot1D => (0x1D000000, 0xFF000000)
  | .slot1E => (0x1E000000, 0xFF000000)
  | .slot1F => (0x1F000000, 0xFF000000)
  | .beyond20 _ => (0x20000000, 0xE0000000)
  | .beyond40 _ => (0x40000000, 0xC0000000)
  | .beyond80 _ => (0x80000000, 0x80000000)

/-- The bits of a command's two words that its layout names, by opcode and (for the forms that share one) by flags
(R107 to R119); every other bit is ignored (R106). -/
def namedBits (i : Instr) : Word × Word :=
  match i with
  | .noop => (0xFF000000, 0)
  | .adpcm _ _ _ _ => (0xFF070000, 0xFFFFFFFF)
  | .clearbuff _ _ => (0xFF00FFFF, 0x0000FFFF)
  | .envmixer _ _ _ => (0xFF090000, 0xFFFFFFFF)
  | .resample _ _ _ => (0xFF03FFFF, 0xFFFFFFFF)
  | .resampleFlag2 => (0xFF020000, 0)
  | .setbuff _ _ _ => (0xFF08FFFF, 0xFFFFFFFF)
  | .setbuffAux _ _ _ => (0xFF08FFFF, 0xFFFFFFFF)
  | .setvolAux _ _ => (0xFF08FFFF, 0x0000FFFF)
  | .setvolVol _ _ => (0xFF0EFFFF, 0)
  | .setvol _ _ _ => (0xFF0EFFFF, 0xFFFFFFFF)
  | .loadadpcm _ _ => (0xFF00FFFF, 0xFFFFFFFF)
  | .setloop _ => (0xFF000000, 0xFFFFFFFF)
  | .envmixerLin _ _ => (0xFF010000, 0xFFFFFFFF)
  | .envsetup1 _ _ _ _ => (0xFFFFFFFF, 0xFFFFFFFF)
  | .envmixerNead _ _ _ _ _ _ _ _ _ _ _ => (0xFFFFFF1F, 0xFFFFFFFF)
  | .envsetup2 _ _ => (0xFF000000, 0xFFFFFFFF)
  | .loadbuff | .savebuff | .segment | .dmemmove | .mixer | .interleave | .polef | .slot11 | .slot14 | .slot15
  | .slot17 | .slot18 | .slot19 | .slot1A | .slot1B | .slot1C | .slot1D | .slot1E | .slot1F
  | .beyond20 _ | .beyond40 _ | .beyond80 _ => (0xFF000000, 0)

/-! ## The host's view of one word -/

/-- The instruction the decoder reads from an instruction whose bits are `w` in the table's numbering: the first word
is bits 31 to 0, the second bits 63 to 32, and every bit from `nbits` on is 0. Each word is laid out big-endian. -/
def tableBytes (nbits w : Nat) : List Byte :=
  wordBytes (BitVec.ofNat 32 (w % 2 ^ nbits)) ++ wordBytes (BitVec.ofNat 32 ((w % 2 ^ nbits) / 2 ^ 32))

/-- See `tableBytes`; none where the decoder refuses. -/
def decodeTableWord (nbits w : Nat) : Option Instr :=
  match decode (tableBytes nbits w) with
  | .ok (i, _) => some i
  | .error _ => none

end Sys2Proof
end

