-- ==== Sys2Proof/Machine/Sequencer.lean ====
section
/-! DEFINITION. Machine/Sequencer.lean: invocation, the host's actions between invocations, and fetch (40_control.md R140
to R142; 20_memory.md R78, R82, R83). `step` only puts these together with `exec`. -/

namespace Sys2Proof.Machine

/-- `Invoke(cl_addr, cl_size)` (R140): the checks in their order, then every written-bit cleared, cp, cend and status. -/
def invoke (addr size : Nat) : Act Unit := do
  refuseIf (size % 8 != 0) .cmdlistSize
  checkAlign addr
  checkRange addr size
  change fun s => { s with eng := s.eng.clearWritten, cp := addr, cend := addr + size, status := .running }

/-- One action of the host (R140, R82, R78). -/
def hostAction : HostAction → Act Unit
  | .invoke addr size => invoke addr size
  | .writeScratch a v => d8w a.toNat v
  | .writeMain a v => do
    checkRange a.toNat 1
    mmStore a.toNat v
  | .setResolve r => change fun s => { s with params := { s.params with resolve := r } }

/-- The block is Idle: it takes the host's next action, or nothing happens (logs 12 and 13). -/
def idleStep (s : State) : Host.Outcome State Fault Refusal :=
  match s.host with
  | [] => .next s
  | a :: rest => runAct (hostAction a) { s with host := rest }

/-- Fetch: the two words at cp, then cp advances by 8 (R141). -/
def fetch : Act (Word × Word) := do
  let cp ← look fun s => s.cp
  let w0 ← memRead32 cp
  let w1 ← memRead32 (cp + 4)
  change fun s => { s with cp := s.cp + 8 }
  pure (w0, w1)

/-- The end of the list: `status <- Idle` (R141, R142). -/
def endOfList (s : State) : State := { s with status := .idle }

/-- Where the next command of a state can stand: at cp, unless 8 bytes from there leave main memory. -/
def fetchPlace (s : State) : Nat := if s.cp + 8 ≤ s.params.mmSize then s.cp else 0

/-- A state's main memory with a list of bytes stored from an address up. -/
def Mem.writeBytes (m : Mem) (a : Nat) : List Byte → Mem
  | [] => m
  | b :: bs => Mem.writeBytes (m.write a b) (a + 1) bs

/-- A state about to fetch the given 8 bytes as the last command of its list: they stand at cp, cend is past them and
the run is on (log 19). -/
def placeCommand (s : State) (bytes : List Byte) : State :=
  { s with
    mm := s.mm.writeBytes (fetchPlace s) bytes
    cp := fetchPlace s
    cend := fetchPlace s + 8
    status := .running }

end Sys2Proof.Machine
end

