-- ==== Sys2Proof/Machine/Step.lean ====
section
/-! DEFINITION. Machine/Step.lean: one step of the block (40_control.md R141; 10_state.md R40). -/

namespace Sys2Proof.Machine

/-- Fetch, decode and execute one command (R141, R144). -/
def commandStep (s : State) : Host.Outcome State Fault Refusal :=
  match fetch s with
  | .ok (w0, w1) t => exec (decodeWords w0 w1) t
  | .error why t => why.outcome t

/-- One step: by `status`, a host action, a command or the end of the list, or the stop that ended the run (R40, R141). -/
def step (s : State) : Host.Outcome State Fault Refusal :=
  match s.status with
  | .idle => idleStep s
  | .running => if s.cp = s.cend then .next (endOfList s) else commandStep s
  | .faulted k => (Stop.fault k).outcome s
  | .refused r => (Stop.refuse r).outcome s

/-- `s` about to fetch the instruction whose bits are `w` in the table's numbering (log 19). -/
def State.withFetchWord (s : State) (nbits w : Nat) : State := placeCommand s (tableBytes nbits w)

end Sys2Proof.Machine
end

