-- ==== Sys2Proof/Safety.lean ====
section
/-! DEFINITION. Safety.lean: the invariant of the block, what a command may touch, and how runs end, in the terms the
statements use. -/

namespace Sys2Proof.Machine

/-! ## The invariant -/

/-- Main memory has at least one byte and no address above 24 bits (00_scope.md R6). -/
def MmSizeOk (p : Params) : Prop := 1 ≤ p.mmSize ∧ p.mmSize ≤ Config.mmLimit

/-- What every step keeps: the memories are in canonical form and hold no byte outside the scratch size and `MM_SIZE`,
and while a list runs, cp and cend are multiples of 8 with cp not past cend and cend not past `MM_SIZE` (10_state.md R39). -/
structure State.Inv (s : State) : Prop where
  smWf : Mem.wf Config.scratchSize s.sm
  mmWf : Mem.wf s.params.mmSize s.mm
  mmSizeOk : MmSizeOk s.params
  list : s.status = .running → s.cp ≤ s.cend ∧ s.cend ≤ s.params.mmSize ∧ s.cp % 8 = 0 ∧ s.cend % 8 = 0

/-- Every written-bit of `W` is clear (10_state.md R33). -/
structure Engine.Unwritten (e : Engine) : Prop where
  inp : e.inp.written = false
  out : e.out.written = false
  count : e.count.written = false
  dryRight : e.dryRight.written = false
  wetLeft : e.wetLeft.written = false
  wetRight : e.wetRight.written = false
  dry : e.dry.written = false
  wet : e.wet.written = false
  vol : ∀ c, (e.vol c).written = false
  target : ∀ c, (e.target c).written = false
  rate : ∀ c, (e.rate c).written = false
  loop : e.loop.written = false
  codebook : ∀ i : Fin 128, (e.codebook.get i).written = false
  envValue : ∀ c, (e.envValue c).written = false
  envStep : ∀ c, (e.envStep c).written = false

/-! ## Regions -/

/-- The scratch address a lies in the n bytes from `base` up, which wrap at 65536 (20_memory.md R71). -/
def inScratch (base n a : Nat) : Prop := (a + 65536 - base % 65536) % 65536 < n

/-- The main-memory address a lies in the n bytes from `base` up. -/
def inMain (base n a : Nat) : Prop := base ≤ a ∧ a < base + n

/-- Two scratch regions have no byte in common. -/
def apart (b1 n1 b2 n2 : Nat) : Prop := ∀ a, a < 65536 → ¬ (inScratch b1 n1 a ∧ inScratch b2 n2 a)

/-! ## Frames -/

/-- The sequencer, the log, the parameters and the host's queue are as before: cp, cend, status, log, params, host. -/
structure SameControl (s t : State) : Prop where
  cp : t.cp = s.cp
  cend : t.cend = s.cend
  status : t.status = s.status
  log : t.log = s.log
  params : t.params = s.params
  host : t.host = s.host

/-- No free value was drawn. -/
def SameDraws (s t : State) : Prop := t.supply = s.supply ∧ t.draws = s.draws

/-- Every scratch byte outside a set of addresses reads as before. -/
def SameScratchOutside (touched : Nat → Prop) (s t : State) : Prop :=
  ∀ a, a < 65536 → ¬ touched a → t.scratch a = s.scratch a

/-- Every main-memory byte outside a set of addresses reads as before. -/
def SameMainOutside (touched : Nat → Prop) (s t : State) : Prop :=
  ∀ a, ¬ touched a → t.mm.read a = s.mm.read a

/-- Every scratch byte reads as before. -/
def SameScratch (s t : State) : Prop := ∀ a, t.scratch a = s.scratch a

/-- Every main-memory byte reads as before. -/
def SameMain (s t : State) : Prop := ∀ a, t.mm.read a = s.mm.read a

/-! ## What a main-memory block must meet -/

/-- A block of n bytes that a command may store to: its base is aligned (R77), it lies below `MM_SIZE` (R75) and no byte
of it is in the unread part of the list (R83). -/
def storable (s : State) (a n : Nat) : Prop :=
  a % 8 = 0 ∧ a + n ≤ s.params.mmSize ∧ ∀ b, inMain a n b → ¬ (s.cp ≤ b ∧ b < s.cend)

/-- A block of n bytes that a command may load from (R77, R75). -/
def loadable (s : State) (a n : Nat) : Prop := a % 8 = 0 ∧ a + n ≤ s.params.mmSize

/-! ## How a run ends -/

/-- The state at a fault. -/
def Fault.last : Fault → State
  | .unwritten _ t => t
  | .accOverflow t => t

/-- The fault's kind. -/
def Fault.kind : Fault → FaultKind
  | .unwritten r _ => .unwritten r
  | .accOverflow _ => .accOverflow

/-- The reason of a refusal and the state at it; the name `Refusal` gives a row without meaning has neither. -/
def Refusal.stopped : Refusal → Option (RefuseReason × State)
  | .outOfBlockOpcode t => some (.outOfBlockOpcode, t)
  | .oddSampleAddr t => some (.oddSampleAddr, t)
  | .mmRange t => some (.mmRange, t)
  | .mmAlign t => some (.mmAlign, t)
  | .cmdlistSize t => some (.cmdlistSize, t)
  | .cmdlistWrite t => some (.cmdlistWrite, t)
  | .loadadpcmSize t => some (.loadadpcmSize, t)
  | .resampleFlag2 t => some (.resampleFlag2, t)
  | _ => none

/-- A state with another choice of `ACC_OVERFLOW` (00_scope.md R6). -/
def State.withAcc (s : State) (m : AccOverflow) : State := { s with params := { s.params with accOverflow := m } }

/-! ## Setup (70_reset_and_hazards.md R374) -/

/-- The written-bit of a register (10_state.md R33). -/
def Engine.isWritten (e : Engine) : RegName → Bool
  | .inp => e.inp.written
  | .out => e.out.written
  | .count => e.count.written
  | .dryRight => e.dryRight.written
  | .wetLeft => e.wetLeft.written
  | .wetRight => e.wetRight.written
  | .dry => e.dry.written
  | .wet => e.wet.written
  | .vol c => (e.vol c).written
  | .target c => (e.target c).written
  | .rate c => (e.rate c).written
  | .loop => e.loop.written
  | .codebook i => (e.codebook.get i).written
  | .envValue c => (e.envValue c).written
  | .envStep c => (e.envStep c).written

/-- The registers the mixers read with INIT, in the order of 42_envmixer.md R246. -/
def initRegs : List RegName :=
  [.dry, .wet, .vol .left, .vol .right, .target .left, .target .right, .rate .left, .rate .right]

/-- The registers a command reads before any effect, in its own order (R374); the codebook is read frame by frame. -/
def setupOf : Instr → List RegName
  | .adpcm init loopFlag _ _ => [.inp, .out, .count] ++ if !init && loopFlag then [.loop] else []
  | .envmixer init aux _ =>
    [.inp, .out, .count, .dryRight] ++ (if aux then [.wetLeft, .wetRight] else []) ++ if init then initRegs else []
  | .envmixerLin init _ => [.inp, .out, .count, .dryRight, .wetLeft, .wetRight] ++ if init then initRegs else []
  | .envmixerNead _ _ _ _ _ _ _ _ _ _ _ =>
    [.envValue .c0, .envValue .c1, .envValue .c2, .envStep .c0, .envStep .c1, .envStep .c2]
  | .resample _ _ _ => [.inp, .out, .count]
  | .noop | .clearbuff _ _ | .resampleFlag2 | .setbuff _ _ _ | .setbuffAux _ _ _ | .setvolAux _ _ | .setvolVol _ _
  | .setvol _ _ _ | .loadadpcm _ _ | .setloop _ | .envsetup1 _ _ _ _ | .envsetup2 _ _
  | .loadbuff | .savebuff | .segment | .dmemmove | .mixer | .interleave | .polef
  | .slot11 | .slot14 | .slot15 | .slot17 | .slot18 | .slot19 | .slot1A | .slot1B | .slot1C | .slot1D
  | .slot1E | .slot1F | .beyond20 _ | .beyond40 _ | .beyond80 _ => []

/-- The address word of the block a command checks for alignment before it reads a register (20_memory.md R77). -/
def blockWordOf : Instr → Option Word
  | .adpcm _ _ _ w | .envmixer _ _ w | .envmixerLin _ w | .resample _ _ w => some w
  | .envmixerNead _ _ _ _ _ _ _ _ _ _ _ | .loadadpcm _ _
  | .noop | .clearbuff _ _ | .resampleFlag2 | .setbuff _ _ _ | .setbuffAux _ _ _ | .setvolAux _ _ | .setvolVol _ _
  | .setvol _ _ _ | .setloop _ | .envsetup1 _ _ _ _ | .envsetup2 _ _
  | .loadbuff | .savebuff | .segment | .dmemmove | .mixer | .interleave | .polef
  | .slot11 | .slot14 | .slot15 | .slot17 | .slot18 | .slot19 | .slot1A | .slot1B | .slot1C | .slot1D
  | .slot1E | .slot1F | .beyond20 _ | .beyond40 _ | .beyond80 _ => none

/-- Every register a command reads before any effect is written. -/
def Ready (i : Instr) (s : State) : Prop := ∀ r ∈ setupOf i, s.eng.isWritten r = true

/-- A 32-bit sum does not end the run: it fits, or it wraps (00_scope.md R8). -/
def AccOk (s : State) (v : Int) : Prop := s.params.accOverflow = .wrap32 ∨ fitsS32 v = true

/-- The bytes of a command's block that it stores at its end: the ADPCM history, an envelope save block, the resampler
state (20_memory.md R84). -/
def blockBytesOf : Instr → Nat
  | .adpcm _ _ _ _ => 32
  | .envmixer _ _ _ | .envmixerLin _ _ => 80
  | .resample _ _ _ => 10
  | .envmixerNead _ _ _ _ _ _ _ _ _ _ _ | .loadadpcm _ _
  | .noop | .clearbuff _ _ | .resampleFlag2 | .setbuff _ _ _ | .setbuffAux _ _ _ | .setvolAux _ _ | .setvolVol _ _
  | .setvol _ _ _ | .setloop _ | .envsetup1 _ _ _ _ | .envsetup2 _ _
  | .loadbuff | .savebuff | .segment | .dmemmove | .mixer | .interleave | .polef
  | .slot11 | .slot14 | .slot15 | .slot17 | .slot18 | .slot19 | .slot1A | .slot1B | .slot1C | .slot1D
  | .slot1E | .slot1F | .beyond20 _ | .beyond40 _ | .beyond80 _ => 0

/-- The events a command adds to the log of a state: one for an opcode beyond the table (60_exceptions.md R343). -/
def eventsOf (i : Instr) (s : State) : List Warning :=
  match i with
  | .beyond20 op | .beyond40 op | .beyond80 op => [.unknownOpcode op (s.cp - 8)]
  | .adpcm _ _ _ _ | .envmixer _ _ _ | .envmixerLin _ _ | .resample _ _ _
  | .envmixerNead _ _ _ _ _ _ _ _ _ _ _ | .loadadpcm _ _
  | .noop | .clearbuff _ _ | .resampleFlag2 | .setbuff _ _ _ | .setbuffAux _ _ _ | .setvolAux _ _ | .setvolVol _ _
  | .setvol _ _ _ | .setloop _ | .envsetup1 _ _ _ _ | .envsetup2 _ _
  | .loadbuff | .savebuff | .segment | .dmemmove | .mixer | .interleave | .polef
  | .slot11 | .slot14 | .slot15 | .slot17 | .slot18 | .slot19 | .slot1A | .slot1B | .slot1C | .slot1D
  | .slot1E | .slot1F => []

/-- The rows of the opcode table outside the block (30_encoding.md R103, R105). -/
def outOfBlockRows : List Instr :=
  [.loadbuff, .savebuff, .segment, .dmemmove, .mixer, .interleave, .polef, .slot11, .slot14, .slot15, .slot17, .slot18,
    .slot19, .slot1A, .slot1B, .slot1C, .slot1D, .slot1E, .slot1F]

/-- The n bytes of a state's main memory from an address up. -/
def State.mmBytes (s : State) (a n : Nat) : List Byte := (List.range n).map fun k => s.mm.read (a + k)

/-- The state after SETBUFF has set the count alone anew. -/
def State.setCount (s : State) (n : Half) : State := { s with eng := { s.eng with count := .of n } }

/-- The state after SETBUFF and SETBUFF.AUX have moved every buffer d bytes on and set the count (42_envmixer.md R254). -/
def State.shiftBuffers (s : State) (d n : Half) : State :=
  { s with
    eng := { s.eng with
      inp := .of (s.eng.inp.value + d)
      out := .of (s.eng.out.value + d)
      dryRight := .of (s.eng.dryRight.value + d)
      wetLeft := .of (s.eng.wetLeft.value + d)
      wetRight := .of (s.eng.wetRight.value + d)
      count := .of n } }

/-- The state after SETBUFF has set in, out and count (40_control.md R146, with `DMEM_BASE` already added). -/
def State.setBuffers (s : State) (inp out n : Half) : State :=
  { s with eng := { s.eng with inp := .of inp, out := .of out, count := .of n } }

/-- The registers after LOADADPCM has loaded entries 0 to n-1 from main memory at a (40_control.md R149). -/
def State.codebookFrom (s : State) (a n : Nat) : Engine :=
  { s.eng with
    codebook := Vector.ofFn fun i : Fin 128 => if i.val < n then .of (s.mmHalf (a + 2 * i.val)) else s.eng.codebook.get i }

/-! ## What the engines compute, by recursion on numbers alone

Where `AccOk` holds of a sum, `acc32` of it is `wrapS32` of it: a sum that fits is its own low 32 bits. -/

/-- Buffer addresses of a state, as numbers. -/
def State.inpAddr (s : State) : Nat := s.eng.inp.value.toNat

/-- `E[out]`. -/
def State.outAddr (s : State) : Nat := s.eng.out.value.toNat

/-- `E[dry_right]`. -/
def State.dryRightAddr (s : State) : Nat := s.eng.dryRight.value.toNat

/-- `E[wet_left]`. -/
def State.wetLeftAddr (s : State) : Nat := s.eng.wetLeft.value.toNat

/-- `E[wet_right]`. -/
def State.wetRightAddr (s : State) : Nat := s.eng.wetRight.value.toNat

/-- A ramp after n samples (42_envmixer.md R242). -/
def Ramp.after (r : Ramp) : Nat → Ramp
  | 0 => r
  | n + 1 => (r.after n).settle (wrapS32 ((r.after n).value + (r.after n).step))

/-- The sums of the first n samples of a ramp do not end the run. -/
def Ramp.ok (s : State) (r : Ramp) (n : Nat) : Prop := ∀ p, p < n → AccOk s ((r.after p).value + (r.after p).step)

/-- What ENVMIXER_LIN starts with (R249). -/
def linStart (s : State) (init : Bool) (a : Nat) : LinState :=
  if init then
    ⟨s.eng.wet.value.toInt, s.eng.dry.value.toInt,
      linRamp s.eng.volLeft.value s.eng.targetLeft.value s.eng.rateLeft.value,
      linRamp s.eng.volRight.value s.eng.targetRight.value s.eng.rateRight.value⟩
  else
    ⟨(s.mmHalf (a + 2)).toInt, (s.mmHalf (a + 6)).toInt,
      ⟨(s.mmWord (a + 32)).toInt, shl (s.mmHalf (a + 10)).toInt 16, (s.mmWord (a + 16)).toInt⟩,
      ⟨(s.mmWord (a + 36)).toInt, shl (s.mmHalf (a + 14)).toInt 16, (s.mmWord (a + 20)).toInt⟩⟩

/-- A ramp of the exponential mixer from its value, target, rate and seq (R246). -/
def expRampStart (value target rate seq : Int) : ExpRamp := ⟨⟨value, target, wrapS32 (target - value)⟩, rate, seq⟩

/-- An INIT ramp of the exponential mixer (R246). -/
def expRampInit (vol target : Half) (rate : Word) : ExpRamp :=
  expRampStart (shl vol.toInt 16) (shl target.toInt 16) rate.toInt (wrapS32 (vol.toInt * rate.toInt))

/-- What ENVMIXER starts with (R246). -/
def expStart (s : State) (init : Bool) (a : Nat) : ExpState :=
  if init then
    ⟨s.eng.wet.value.toInt, s.eng.dry.value.toInt,
      expRampInit s.eng.volLeft.value s.eng.targetLeft.value s.eng.rateLeft.value,
      expRampInit s.eng.volRight.value s.eng.targetRight.value s.eng.rateRight.value⟩
  else
    ⟨(s.mmHalf (a + 2)).toInt, (s.mmHalf (a + 6)).toInt,
      expRampStart (s.mmWord (a + 32)).toInt (s.mmWord (a + 8)).toInt (s.mmWord (a + 16)).toInt (s.mmWord (a + 24)).toInt,
      expRampStart (s.mmWord (a + 36)).toInt (s.mmWord (a + 12)).toInt (s.mmWord (a + 20)).toInt (s.mmWord (a + 28)).toInt⟩

/-- The sums of ENVMIXER's start do not end the run (R246). -/
def expStartOk (s : State) (init : Bool) (a : Nat) : Prop :=
  (init = true → AccOk s (s.eng.volLeft.value.toInt * s.eng.rateLeft.value.toInt) ∧
    AccOk s (s.eng.volRight.value.toInt * s.eng.rateRight.value.toInt)) ∧
  AccOk s ((expStart s init a).left.ramp.target - (expStart s init a).left.ramp.value) ∧
  AccOk s ((expStart s init a).right.ramp.target - (expStart s init a).right.ramp.value)

/-- A moving ramp at the start of a segment advances its sequence and recomputes its step (R246). -/
def ExpRamp.recompute (r : ExpRamp) : ExpRamp :=
  if r.ramp.step = 0 then r
  else
    { ramp := { r.ramp with step := asr (wrapS32 (wrapS32 (asr (r.seq * r.rate) 16) - r.ramp.value)) 3 }
      rate := r.rate
      seq := wrapS32 (asr (r.seq * r.rate) 16) }

/-- A ramp of the exponential mixer after k segments (R246). -/
def ExpRamp.after (r : ExpRamp) : Nat → ExpRamp
  | 0 => r
  | k + 1 => { (r.after k).recompute with ramp := (r.after k).recompute.ramp.after 8 }

/-- The gain of an exponential ramp at sample p. -/
def ExpRamp.gainAt (r : ExpRamp) (p : Nat) : Int := ((r.after (p / 8)).recompute.ramp.after (p % 8 + 1)).gain

/-- The sums of the first n segments of a ramp do not end the run. -/
def ExpRamp.ok (s : State) (r : ExpRamp) (n : Nat) : Prop :=
  ∀ k, k < n →
    ((r.after k).ramp.step ≠ 0 → AccOk s (asr ((r.after k).seq * (r.after k).rate) 16) ∧
      AccOk s (wrapS32 (asr ((r.after k).seq * (r.after k).rate) 16) - (r.after k).ramp.value)) ∧
    (r.after k).recompute.ramp.ok s 8

/-- A stalled ramp: its step is 0 above its target (R242). -/
def Ramp.stalled (r : Ramp) : Prop := r.step = 0 ∧ r.target < r.value

/-- The channel buffers of ENVMIXER in a state (R246). -/
def expBufs (s : State) (aux : Bool) : MixBufs :=
  ⟨s.inpAddr, s.outAddr, s.dryRightAddr, if aux then some (s.wetLeftAddr, s.wetRightAddr) else none⟩

/-- The buffers of ENVMIXER_LIN in a state (R249). -/
def linBufs (s : State) : MixBufs := expBufs s true

/-- Every scratch byte of n samples of a mixer's channel buffers. -/
def mixTouched (b : MixBufs) (n : Nat) (a : Nat) : Prop :=
  inScratch b.dl (2 * n) a ∨ inScratch b.dr (2 * n) a ∨
    match b.wets with
    | none => False
    | some (wl, wr) => inScratch wl (2 * n) a ∨ inScratch wr (2 * n) a

/-- Every scratch byte of n samples of the nead mixer's channel buffers. -/
def neadTouched (b : NeadBufs) (n : Nat) (a : Nat) : Prop :=
  inScratch b.dl (2 * n) a ∨ inScratch b.dr (2 * n) a ∨ inScratch b.wl (2 * n) a ∨ inScratch b.wr (2 * n) a

/-- The nead envelope values in group g: each has advanced g times by its step, mod 2^16 (R252). -/
def State.envsAt (s : State) (g : Nat) : Envs :=
  ⟨s.eng.envValue0.value + BitVec.ofNat 16 g * s.eng.envStep0.value,
    s.eng.envValue1.value + BitVec.ofNat 16 g * s.eng.envStep1.value,
    s.eng.envValue2.value + BitVec.ofNat 16 g * s.eng.envStep2.value⟩

/-- How many samples the read position has moved after j outputs (43_resample.md R302). -/
def windowMoved (acc : Half) (pitch : Half) (j : Nat) : Nat := (acc.toNat + j * pitchRatio pitch) / 65536

/-- The accumulator after j outputs: it wraps mod 65536 (R302). -/
def accAfter (acc : Half) (pitch : Half) (j : Nat) : Half := BitVec.ofNat 16 (acc.toNat + j * pitchRatio pitch)

/-- The accumulator RESAMPLE starts with (R306). -/
def accStart (s : State) (init : Bool) (sa : Nat) : Half := if init then 0 else s.mmHalf (sa + 8)

/-- Sample k of RESAMPLE's input, counted from the window's start: 4 history samples, then the caller's (R303). -/
def streamSample (s : State) (init : Bool) (sa : Nat) (k : Nat) : Int :=
  if k < 4 then (if init then 0 else (s.mmHalf (sa + 2 * k)).toInt)
  else s.sample (s.inpAddr + 65528 + 2 * k)

/-- The dot product of output j (R304). -/
def outputDot (s : State) (init : Bool) (pitch : Half) (sa : Nat) (j : Nat) : Int :=
  dotTaps (kernelOf s.params.lut (accAfter (accStart s init sa) pitch j))
    (streamSample s init sa (windowMoved (accStart s init sa) pitch j))
    (streamSample s init sa (windowMoved (accStart s init sa) pitch j + 1))
    (streamSample s init sa (windowMoved (accStart s init sa) pitch j + 2))
    (streamSample s init sa (windowMoved (accStart s init sa) pitch j + 3))

/-- Entry j of the codebook as a signed number; it is used for j below 128 only (41_adpcm.md R204). -/
def State.codebookAt (s : State) (j : Nat) : Int := if h : j < 128 then (s.eng.codebook.get ⟨j, h⟩).value.toInt else 0

/-- The two prediction vectors of a block (R205). -/
def State.book1 (s : State) (idx : Nat) : List Int := (List.range 8).map fun k => s.codebookAt (16 * idx + k)

/-- The second prediction vector of a block (R205). -/
def State.book2 (s : State) (idx : Nat) : List Int := (List.range 8).map fun k => s.codebookAt (16 * idx + 8 + k)

/-- A pass over 8 residuals with its two seeds (R206). -/
def passSamples (book1 book2 r : List Int) (l1 l2 : Int) : List Int :=
  (List.range 8).map fun i => clamp16 (asr (wrapS32 (predictSum book1 book2 r l1 l2 i)) 11)

/-- The header byte of frame f (R200, R201). -/
def State.frameHeader (s : State) (twobit : Bool) (f : Nat) : Byte := s.scratch (s.inpAddr + frameBytes twobit * f)

/-- The 16 residuals of frame f (R202, R203). -/
def State.residualsOf (s : State) (twobit : Bool) (f : Nat) : List Int :=
  frameResiduals twobit (frameScale (s.frameHeader twobit f))
    ((List.range (payloadBytes twobit)).map fun j => s.scratch (s.inpAddr + frameBytes twobit * f + 1 + j))

/-- The 8 samples of the first pass of frame f, after a history (R207). -/
def State.firstPass (s : State) (twobit : Bool) (f : Nat) (hist : List Int) : List Int :=
  passSamples (s.book1 (frameIndex (s.frameHeader twobit f))) (s.book2 (frameIndex (s.frameHeader twobit f)))
    ((s.residualsOf twobit f).take 8) (nth hist 14) (nth hist 15)

/-- The 16 samples of frame f, after a history (R207). -/
def State.frameSamples (s : State) (twobit : Bool) (f : Nat) (hist : List Int) : List Int :=
  s.firstPass twobit f hist ++
    passSamples (s.book1 (frameIndex (s.frameHeader twobit f))) (s.book2 (frameIndex (s.frameHeader twobit f)))
      ((s.residualsOf twobit f).drop 8) (nth (s.firstPass twobit f hist) 6) (nth (s.firstPass twobit f hist) 7)

/-- The history ADPCM starts with: zero, the loop block or the last-frame block (R208). -/
def State.historyStart (s : State) (init loopFlag : Bool) (lfa : Nat) : List Int :=
  if init then List.replicate 16 0
  else (List.range 16).map fun i => (s.mmHalf ((if loopFlag then s.eng.loop.value.toNat else lfa) + 2 * i)).toInt

/-- The history after f frames: the frame decoded last, or the history of the start (R210, R211). -/
def State.historyAfter (s : State) (twobit : Bool) (hist : List Int) : Nat → List Int
  | 0 => hist
  | f + 1 => s.frameSamples twobit f (s.historyAfter twobit hist f)

/-- Every written-bit of a block that exists is set (R204, R205). -/
def State.blockWritten (s : State) (idx : Nat) : Prop :=
  ∀ j : Fin 128, 16 * idx ≤ j.val → j.val < 16 * idx + 16 → (s.eng.codebook.get j).written = true

/-- No prediction sum over a block ends the run: sums wrap, or the block exists and its coefficients are at most 7054 in
size, so that no sum of R206 leaves 32 bits. -/
def State.blockFits (s : State) (idx : Nat) : Prop :=
  s.params.accOverflow = .wrap32 ∨
    (idx < 8 ∧ ∀ j, 16 * idx ≤ j → j < 16 * idx + 16 → -7054 ≤ s.codebookAt j ∧ s.codebookAt j ≤ 7054)

/-! ## Safe runs -/

/-- Every one of the first k steps answers a next state. -/
def SafeFor (k : Nat) (s : State) : Prop := ∃ t, Sys2Proof.core.run k s = .next t

end Sys2Proof.Machine
end

