-- ==== Sys2Proof/Certificates/Slice0/Obligations.lean ====
section
/-! DEFINITION. Certificates/Slice0/Obligations.lean: the statements, from the numbered rules of spec/. -/

section

open Sys2Proof Sys2Proof.Machine

/-! ## Encoding (30_encoding.md) -/

/-- Every command survives encoding: no operand bit is dropped (R100 to R119). -/
def Obligations.DecodeOfEncodeIsIdentity : Prop :=
  ∀ (i : Instr) (rest : List Byte), i.wf = true → decode (encode i ++ rest) = .ok (i, rest)

/-- Encoding what two words decode to gives the two words back with every unnamed bit 0 (R106 to R119; the 0 is the
encoder's own, log 24). -/
def Obligations.EncodeOfDecodeKeepsTheNamedBits : Prop :=
  ∀ w0 w1 : Word,
    encodeWords (decodeWords w0 w1)
      = (w0 &&& (namedBits (decodeWords w0 w1)).1, w1 &&& (namedBits (decodeWords w0 w1)).2)

/-- Bits a layout does not name change nothing, but for RESAMPLE's flag bit 1, which is refused (R106). -/
def Obligations.UnnamedBitsAreIgnored : Prop :=
  (∀ w0 w1 v0 v1 : Word,
    (w0 ^^^ v0) &&& (namedBits (decodeWords w0 w1)).1 = 0 → (w1 ^^^ v1) &&& (namedBits (decodeWords w0 w1)).2 = 0 →
      decodeWords v0 v1 = decodeWords w0 w1) ∧
  ∀ (w0 w1 : Word) (s : State), w0.extractLsb' 24 8 = 0x05 → w0.getLsbD 17 = true →
    exec (decodeWords w0 w1) s = .refused (.resampleFlag2 { s with status := .refused .resampleFlag2 })

/-- Any two words are a well-formed command whose row of the opcode table they match, and they match no other row (R103). -/
def Obligations.EveryWordPairIsExactlyOneRow : Prop :=
  ∀ w0 w1 : Word,
    (decodeWords w0 w1).wf = true ∧ w0 &&& (decodeWords w0 w1).row.2 = (decodeWords w0 w1).row.1 ∧
      ∀ j : Instr, j.wf = true → w0 &&& j.row.2 = j.row.1 → j.row = (decodeWords w0 w1).row

/-- A command is 8 bytes whatever its opcode: any 8 bytes are one, fewer are none (R101). -/
def Obligations.EveryEightBytesAreOneCommand : Prop :=
  ∀ bs : List Byte,
    (8 ≤ bs.length → ∃ i, decode bs = .ok (i, bs.drop 8)) ∧ (bs.length < 8 → decode bs = .error .truncated)

/-- Words written out from the layouts of R107 to R119 decode to the commands they stand for. -/
def Obligations.WrittenOutWordsDecode : Prop :=
  decodeWords 0x08000100 0x02000040 = .setbuff 0x100 0x200 0x40 ∧
  decodeWords 0x08080300 0x04000500 = .setbuffAux 0x300 0x400 0x500 ∧
  decodeWords 0x09027000 0x00018000 = .setvol .left 0x7000 0x00018000 ∧
  decodeWords 0x09047000 0x00000000 = .setvolVol .right 0x7000 ∧
  decodeWords 0x09087FFF 0x00004000 = .setvolAux 0x7FFF 0x4000 ∧
  decodeWords 0x0B000060 0x00010000 = .loadadpcm 0x60 0x00010000 ∧
  decodeWords 0x01060000 0x00020000 = .adpcm false true true 0x00020000 ∧
  decodeWords 0x03090000 0x00050000 = .envmixer true true 0x00050000 ∧
  decodeWords 0x10010000 0x00050000 = .envmixerLin true 0x00050000 ∧
  decodeWords 0x13101012 0x20304050 = .envmixerNead 0x10 0x10 true false false true false 0x20 0x30 0x40 0x50 ∧
  decodeWords 0x05018000 0x00040000 = .resample true 0x8000 0x00040000 ∧
  decodeWords 0x04000000 0x00000000 = .loadbuff ∧
  decodeWords 0x20ABCDEF 0x12345678 = .beyond20 0x20

/-! ## The sequencer (40_control.md R140 to R144; 10_state.md) -/

/-- While the list runs, a step is the command that the 8 bytes at cp decode to, run with cp already past it (R141, R39). -/
def Obligations.StepRunsTheFetchedCommand : Prop :=
  ∀ (s : State) (i : Instr) (rest : List Byte),
    s.status = .running → s.cp ≠ s.cend → s.cp + 8 ≤ s.params.mmSize → decode (s.mmBytes s.cp 8) = .ok (i, rest) →
      i.wf = true ∧ step s = exec i { s with cp := s.cp + 8 }

/-- At the end of the list the run ends with status Idle, and nothing else changes (R142). -/
def Obligations.EndOfListSetsIdle : Prop :=
  ∀ s : State, s.status = .running → s.cp = s.cend → step s = .next { s with status := .idle }

/-- Invoke makes its three checks in order, then clears every written-bit, sets cp, cend and Running; an empty list then
ends with nothing run (R140). -/
def Obligations.InvokeMakesItsChecksInOrder : Prop :=
  ∀ (s : State) (addr size : Nat) (rest : List HostAction), s.status = .idle → s.host = .invoke addr size :: rest →
    step s
      = (if size % 8 ≠ 0 then .refused (.cmdlistSize { s with host := rest, status := .refused .cmdlistSize })
        else if addr % 8 ≠ 0 then .refused (.mmAlign { s with host := rest, status := .refused .mmAlign })
        else if s.params.mmSize < addr + size then .refused (.mmRange { s with host := rest, status := .refused .mmRange })
        else .next { s with
          host := rest, eng := s.eng.clearWritten, cp := addr, cend := addr + size, status := .running }) ∧
    (size = 0 → addr % 8 = 0 → addr ≤ s.params.mmSize →
      Sys2Proof.core.run 2 s
        = .next { s with host := rest, eng := s.eng.clearWritten, cp := addr, cend := addr, status := .idle })

/-- Each Invoke leaves every engine register and codebook entry unwritten, and keeps both memories and the log (R371). -/
def Obligations.InvokeLeavesEveryRegisterUnwritten : Prop :=
  ∀ (s t : State) (addr size : Nat) (rest : List HostAction),
    s.status = .idle → s.host = .invoke addr size :: rest → step s = .next t →
      t.eng.Unwritten ∧ t.sm = s.sm ∧ t.mm = s.mm ∧ t.log = s.log

/-- Between invocations the host stores to scratch and to main memory and changes the base-address table (R82, R78); that
a main-memory byte beyond `MM_SIZE` is refused is the model's choice (log 23). -/
def Obligations.HostActsBetweenInvocations : Prop :=
  (∀ (s : State) (a : Half) (v : Byte) (rest : List HostAction), s.status = .idle → s.host = .writeScratch a v :: rest →
    ∃ t, step s = .next t ∧ t = { s with host := rest, sm := t.sm } ∧
      ∀ b, b < 65536 → t.scratch b = if b = a.toNat then v else s.scratch b) ∧
  (∀ (s : State) (a : Addr24) (v : Byte) (rest : List HostAction), s.status = .idle → s.host = .writeMain a v :: rest →
    (a.toNat < s.params.mmSize → ∃ t, step s = .next t ∧ t = { s with host := rest, mm := t.mm } ∧
      ∀ b, t.mm.read b = if b = a.toNat then v else s.mm.read b) ∧
    (s.params.mmSize ≤ a.toNat →
      step s = .refused (.mmRange { s with host := rest, status := .refused .mmRange }))) ∧
  ∀ (s : State) (r : Resolve) (rest : List HostAction), s.status = .idle → s.host = .setResolve r :: rest →
    step s = .next { s with host := rest, params := { s.params with resolve := r } }

/-- A fault or refusal leaves the status that names it, and that status is final: the next step is the same stop (R40, R342). -/
def Obligations.FaultedAndRefusedAreFinal : Prop :=
  (∀ (s : State) (f : Fault), step s = .fault f → f.last.status = .faulted f.kind ∧ step f.last = .fault f) ∧
  ∀ (s : State) (r : Refusal), step s = .refused r →
    ∃ why t, r.stopped = some (why, t) ∧ t.status = .refused why ∧ step t = .refused r

/-- No command moves cp or cend, changes the status or the parameters or takes from the host's queue, and the log grows
only by the one event of an opcode beyond the table (R143, R154, R78, R41). -/
def Obligations.CommandsLeaveTheSequencerAlone : Prop :=
  ∀ (i : Instr) (s t : State), exec i s = .next t →
    t.cp = s.cp ∧ t.cend = s.cend ∧ t.status = s.status ∧ t.params = s.params ∧ t.host = s.host ∧
      t.log = s.log ++ eventsOf i s

/-- Each engine register changes only by the commands that R32's table names as writing it. -/
def Obligations.OnlySetupCommandsWriteRegisters : Prop :=
  ∀ (i : Instr) (s t : State), exec i s = .next t →
    ((∀ a b c, i ≠ .setbuff a b c) → t.eng.inp = s.eng.inp ∧ t.eng.out = s.eng.out ∧ t.eng.count = s.eng.count) ∧
    ((∀ a b c, i ≠ .setbuffAux a b c) →
      t.eng.dryRight = s.eng.dryRight ∧ t.eng.wetLeft = s.eng.wetLeft ∧ t.eng.wetRight = s.eng.wetRight) ∧
    ((∀ a b, i ≠ .setvolAux a b) → t.eng.dry = s.eng.dry ∧ t.eng.wet = s.eng.wet) ∧
    (∀ c, (∀ a, i ≠ .setvolVol c a) → t.eng.vol c = s.eng.vol c) ∧
    (∀ c, (∀ a b, i ≠ .setvol c a b) → t.eng.target c = s.eng.target c ∧ t.eng.rate c = s.eng.rate c) ∧
    ((∀ a, i ≠ .setloop a) → t.eng.loop = s.eng.loop) ∧
    ((∀ a b, i ≠ .loadadpcm a b) → t.eng.codebook = s.eng.codebook) ∧
    ((∀ a b c d, i ≠ .envsetup1 a b c d) → ∀ c, t.eng.envStep c = s.eng.envStep c) ∧
    ((∀ a b c d e f g h j k l, i ≠ .envmixerNead a b c d e f g h j k l) →
      ((∀ a b c d, i ≠ .envsetup1 a b c d) → t.eng.envValue .c2 = s.eng.envValue .c2) ∧
      ((∀ a b, i ≠ .envsetup2 a b) →
        t.eng.envValue .c0 = s.eng.envValue .c0 ∧ t.eng.envValue .c1 = s.eng.envValue .c1))

/-- No command changes a byte of the unread part of the list, however it ends (R83). -/
def Obligations.NoCommandChangesTheUnreadList : Prop :=
  ∀ (i : Instr) (s : State) (a : Nat), s.cp ≤ a → a < s.cend →
    (∀ t, exec i s = .next t → t.mm.read a = s.mm.read a) ∧
    (∀ f, exec i s = .fault f → f.last.mm.read a = s.mm.read a) ∧
    ∀ r why t, exec i s = .refused r → r.stopped = some (why, t) → t.mm.read a = s.mm.read a

/-- While a list runs, the part of it still to be fetched is as it stood at the start, and each step fetches the next
8 bytes: no list modifies itself (R83, R141, R143). -/
def Obligations.TheListIsFetchedAsItStood : Prop :=
  ∀ (k : Nat) (s u : State), s.status = .running → s.host = [] → Sys2Proof.core.run k s = .next u →
    u.status = .running →
      u.cp = s.cp + 8 * k ∧ u.cend = s.cend ∧ ∀ a, u.cp ≤ a → a < u.cend → u.mm.read a = s.mm.read a

/-- A list that fits its memory ends after its `cl_size / 8` commands, or earlier by a fault or refusal: one step more
than that finds the block Idle with cp at the end (R143, R142). -/
def Obligations.EveryListTerminates : Prop :=
  ∀ s t : State, s.Inv → s.status = .running → Sys2Proof.core.run ((s.cend - s.cp) / 8 + 1) s = .next t →
    t.status = .idle ∧ t.cp = s.cend

/-- Every step keeps the invariant: canonical memories within their sizes, and while a list runs cp and cend are multiples
of 8 with cp not past cend and cend not past `MM_SIZE` (R39, R70, R75). -/
def Obligations.StepKeepsTheInvariant : Prop :=
  ∀ s t : State, s.Inv → step s = .next t → t.Inv

/-- The power-on state meets the invariant. -/
def Obligations.ResetMeetsTheInvariant : Prop :=
  State.reset.Inv

/-- At power-on the status is Idle, the log is empty, no engine register or codebook entry is written (R43, R370), and the
resampler's table is one the model accepts as the hardware's: kernel 0's taps sum to 32768 up to 32800 (R301). -/
def Obligations.ResetIsThePowerOnState : Prop :=
  State.reset.status = .idle ∧ State.reset.log = [] ∧ State.reset.eng.Unwritten ∧
    32768 ≤ (State.reset.params.lut.get 0).sum ∧ (State.reset.params.lut.get 0).sum ≤ 32800

/-- Where a command ends with `ACC_OVERFLOW = fault`, it ends the same way with `wrap32`; and with `wrap32` no command
faults with F_ACC_OVERFLOW (R8, R344). -/
def Obligations.FaultModeRefinesWrapMode : Prop :=
  (∀ (i : Instr) (s t : State), exec i (s.withAcc .fault) = .next t → exec i (s.withAcc .wrap32) = .next (t.withAcc .wrap32)) ∧
  ∀ (i : Instr) (s : State) (f : Fault), s.params.accOverflow = .wrap32 → exec i s = .fault f → f.kind ≠ .accOverflow

/-! ## Setup commands (40_control.md R145 to R152; 30_encoding.md R104, R105) -/

/-- NOOP changes nothing, whatever its other 56 bits (R145). -/
def Obligations.NoopChangesNothing : Prop :=
  (∀ s : State, exec .noop s = .next s) ∧
  ∀ (w0 w1 : Word) (s : State), w0.extractLsb' 24 8 = 0x00 → exec (decodeWords w0 w1) s = .next s

/-- SETBUFF writes in, out and count, or with AUX the three other buffer registers, `DMEM_BASE` added to each address mod
65536, and nothing else (R146). -/
def Obligations.SetbuffSetsTheBufferRegisters : Prop :=
  (∀ (inp out count : Half) (s : State),
    exec (.setbuff inp out count) s
      = .next { s with eng := { s.eng with
          inp := .of (inp + s.params.dmemBase), out := .of (out + s.params.dmemBase), count := .of count } }) ∧
  (∀ (dr wl wr : Half) (s : State),
    exec (.setbuffAux dr wl wr) s
      = .next { s with eng := { s.eng with
          dryRight := .of (dr + s.params.dmemBase), wetLeft := .of (wl + s.params.dmemBase),
          wetRight := .of (wr + s.params.dmemBase) } }) ∧
  ∀ w0 w1 : Word, w0.extractLsb' 24 8 = 0x08 →
    decodeWords w0 w1
      = if w0.getLsbD 19 then .setbuffAux (w0.extractLsb' 0 16) (w1.extractLsb' 16 16) (w1.extractLsb' 0 16)
        else .setbuff (w0.extractLsb' 0 16) (w1.extractLsb' 16 16) (w1.extractLsb' 0 16)

/-- SETVOL writes the gain constants, or one channel's start volume, or one channel's target and rate, and nothing else;
AUX wins over VOL, and LEFT selects channel 0 (R147). -/
def Obligations.SetvolSetsGainsAndRamps : Prop :=
  (∀ (dry wet : Half) (s : State),
    exec (.setvolAux dry wet) s = .next { s with eng := { s.eng with dry := .of dry, wet := .of wet } }) ∧
  (∀ (v : Half) (s : State),
    exec (.setvolVol .left v) s = .next { s with eng := { s.eng with volLeft := .of v } } ∧
    exec (.setvolVol .right v) s = .next { s with eng := { s.eng with volRight := .of v } }) ∧
  (∀ (v : Half) (r : Word) (s : State),
    exec (.setvol .left v r) s = .next { s with eng := { s.eng with targetLeft := .of v, rateLeft := .of r } } ∧
    exec (.setvol .right v r) s = .next { s with eng := { s.eng with targetRight := .of v, rateRight := .of r } }) ∧
  ∀ w0 w1 : Word, w0.extractLsb' 24 8 = 0x09 →
    decodeWords w0 w1
      = if w0.getLsbD 19 then .setvolAux (w0.extractLsb' 0 16) (w1.extractLsb' 0 16)
        else if w0.getLsbD 18 then .setvolVol (if w0.getLsbD 17 then .left else .right) (w0.extractLsb' 0 16)
        else .setvol (if w0.getLsbD 17 then .left else .right) (w0.extractLsb' 0 16) w1

/-- SETLOOP writes the resolved address to `E[loop]`, and nothing else; it checks no alignment or range (R148). -/
def Obligations.SetloopSetsTheLoopAddress : Prop :=
  (∀ (addr : Word) (s : State),
    exec (.setloop addr) s = .next { s with eng := { s.eng with loop := .of (resolveWord s.params.resolve addr) } }) ∧
  ∀ w0 w1 : Word, w0.extractLsb' 24 8 = 0x0F → decodeWords w0 w1 = .setloop w1

/-- LOADADPCM loads its byte count, rounded up to 8, over 2 entries from main memory into entries 0 up; it refuses more
than 128 entries, then a misaligned source, then the first entry beyond `MM_SIZE`, where earlier entries stay loaded (R149). -/
def Obligations.LoadadpcmLoadsTheCodebook : Prop :=
  (∀ (count : Half) (addr : Word) (s : State),
    let a := s.resolved addr
    let n := (count.toNat + 7) / 8 * 4
    exec (.loadadpcm count addr) s
      = if 128 < n then .refused (.loadadpcmSize { s with status := .refused .loadadpcmSize })
        else if a % 8 ≠ 0 then .refused (.mmAlign { s with status := .refused .mmAlign })
        else if n = 0 ∨ a + 2 * n ≤ s.params.mmSize then .next { s with eng := s.codebookFrom a n }
        else .refused (.mmRange { s with
          eng := s.codebookFrom a ((s.params.mmSize - a) / 2), status := .refused .mmRange })) ∧
  ∀ w0 w1 : Word, w0.extractLsb' 24 8 = 0x0B → decodeWords w0 w1 = .loadadpcm (w0.extractLsb' 0 16) w1

/-- CLEARBUFF zeroes its byte count, rounded up to 16, from its address plus `DMEM_BASE` up, wrapping at 65536, and
changes nothing else (R150). -/
def Obligations.ClearbuffZeroesItsRange : Prop :=
  (∀ (dmem count : Half) (s : State),
    ∃ t, exec (.clearbuff dmem count) s = .next t ∧ t = { s with sm := t.sm } ∧
      ∀ a, a < 65536 →
        (inScratch (dmem + s.params.dmemBase).toNat ((count.toNat + 15) / 16 * 16) a → t.scratch a = 0) ∧
        (¬ inScratch (dmem + s.params.dmemBase).toNat ((count.toNat + 15) / 16 * 16) a → t.scratch a = s.scratch a)) ∧
  ∀ w0 w1 : Word, w0.extractLsb' 24 8 = 0x02 →
    decodeWords w0 w1 = .clearbuff (w0.extractLsb' 0 16) (w1.extractLsb' 0 16)

/-- ENVSETUP1 writes the third envelope value, shifted left 8, and the three steps; ENVSETUP2 the first two values; nothing
else changes (R151, R152). -/
def Obligations.EnvsetupSetsTheNeadRegisters : Prop :=
  (∀ (value2 : Byte) (step2 step0 step1 : Half) (s : State),
    exec (.envsetup1 value2 step2 step0 step1) s
      = .next { s with eng := { s.eng with
          envValue2 := .of (BitVec.ofNat 16 (value2.toNat * 256)), envStep2 := .of step2, envStep0 := .of step0,
          envStep1 := .of step1 } }) ∧
  (∀ (value0 value1 : Half) (s : State),
    exec (.envsetup2 value0 value1) s
      = .next { s with eng := { s.eng with envValue0 := .of value0, envValue1 := .of value1 } }) ∧
  ∀ w0 w1 : Word,
    (w0.extractLsb' 24 8 = 0x12 → decodeWords w0 w1
      = .envsetup1 (w0.extractLsb' 16 8) (w0.extractLsb' 0 16) (w1.extractLsb' 16 16) (w1.extractLsb' 0 16)) ∧
    (w0.extractLsb' 24 8 = 0x16 → decodeWords w0 w1 = .envsetup2 (w1.extractLsb' 16 16) (w1.extractLsb' 0 16))

/-- An opcode beyond the table appends one warning, with the opcode and the command's address, and is otherwise a no-op
(R104; that the address is cp - 8 is R144's). -/
def Obligations.UnknownOpcodesOnlyWarn : Prop :=
  (∀ (op : Byte) (s : State),
    exec (.beyond20 op) s = .next { s with log := s.log ++ [.unknownOpcode op (s.cp - 8)] } ∧
    exec (.beyond40 op) s = .next { s with log := s.log ++ [.unknownOpcode op (s.cp - 8)] } ∧
    exec (.beyond80 op) s = .next { s with log := s.log ++ [.unknownOpcode op (s.cp - 8)] }) ∧
  ∀ (w0 w1 : Word) (s : State), 0x20 ≤ (w0.extractLsb' 24 8).toNat →
    exec (decodeWords w0 w1) s = .next { s with log := s.log ++ [.unknownOpcode (w0.extractLsb' 24 8) (s.cp - 8)] }

/-- An in-table slot outside the block is refused before any effect (R105). -/
def Obligations.OutOfBlockSlotsAreRefused : Prop :=
  (∀ (i : Instr) (s : State), i ∈ outOfBlockRows →
    exec i s = .refused (.outOfBlockOpcode { s with status := .refused .outOfBlockOpcode })) ∧
  ∀ (w0 w1 : Word) (s : State),
    (w0.extractLsb' 24 8).toNat ∈ [0x04, 0x06, 0x07, 0x0A, 0x0C, 0x0D, 0x0E, 0x11, 0x14, 0x15, 0x17, 0x18, 0x19, 0x1A,
      0x1B, 0x1C, 0x1D, 0x1E, 0x1F] →
      exec (decodeWords w0 w1) s = .refused (.outOfBlockOpcode { s with status := .refused .outOfBlockOpcode })

/-- RESAMPLE with flag bit 1 set is refused first, before any effect (R306, R111). -/
def Obligations.ResampleFlag2IsRefused : Prop :=
  ∀ s : State, exec .resampleFlag2 s = .refused (.resampleFlag2 { s with status := .refused .resampleFlag2 })

/-! ## Memory (20_memory.md) -/

/-- A 16-bit store to an even scratch address is big-endian, is what a later load reads, and leaves every other sample and
byte; an odd address is refused by load and store (R71, R74, R76). -/
def Obligations.ScratchSamplesRoundTrip : Prop :=
  ∀ (s : State) (a : Nat) (v : Int),
    (a % 2 = 0 → ∃ t, d16w a v s = .ok () t ∧ t = { s with sm := t.sm } ∧
      t.scratch a = (lo16 v).extractLsb' 8 8 ∧ t.scratch (a + 1) = (lo16 v).extractLsb' 0 8 ∧
      (∀ b, b % 2 = 0 → d16 b t = .ok (if b % 65536 = a % 65536 then toS16 v else s.sample b) t) ∧
      ∀ b, b % 65536 ≠ a % 65536 → b % 65536 ≠ (a + 1) % 65536 → t.scratch b = s.scratch b) ∧
    (a % 2 ≠ 0 → d16w a v s = .error (.refuse .oddSampleAddr) s ∧ d16 a s = .error (.refuse .oddSampleAddr) s)

/-- A main-memory store is big-endian, is what a later load reads, and leaves every other byte; one with a byte at or
beyond `MM_SIZE` is refused, then one with a byte in the unread list, before any byte is written (R74, R75, R83; that the
range is checked first is log 16). -/
def Obligations.MainMemoryRoundTrip : Prop :=
  (∀ (s : State) (a : Nat) (v : Word),
    (a + 4 ≤ s.params.mmSize → (∀ b, a ≤ b → b < a + 4 → ¬ (s.cp ≤ b ∧ b < s.cend)) →
      ∃ t, memWrite32 a v s = .ok () t ∧ t = { s with mm := t.mm } ∧ memRead32 a t = .ok v t ∧
        memRead16 a t = .ok (v.extractLsb' 16 16) t ∧ memRead16 (a + 2) t = .ok (v.extractLsb' 0 16) t ∧
        t.mm.read a = v.extractLsb' 24 8 ∧ t.mm.read (a + 3) = v.extractLsb' 0 8 ∧
        ∀ b, b < a ∨ a + 4 ≤ b → t.mm.read b = s.mm.read b) ∧
    (s.params.mmSize < a + 4 →
      memWrite32 a v s = .error (.refuse .mmRange) s ∧ memRead32 a s = .error (.refuse .mmRange) s) ∧
    (a + 4 ≤ s.params.mmSize → (∃ b, a ≤ b ∧ b < a + 4 ∧ s.cp ≤ b ∧ b < s.cend) →
      memWrite32 a v s = .error (.refuse .cmdlistWrite) s)) ∧
  ∀ (s : State) (a : Nat) (v : Half),
    (a + 2 ≤ s.params.mmSize → (∀ b, a ≤ b → b < a + 2 → ¬ (s.cp ≤ b ∧ b < s.cend)) →
      ∃ t, memWrite16 a v s = .ok () t ∧ t = { s with mm := t.mm } ∧ memRead16 a t = .ok v t ∧
        t.mm.read a = v.extractLsb' 8 8 ∧ t.mm.read (a + 1) = v.extractLsb' 0 8 ∧
        ∀ b, b < a ∨ a + 2 ≤ b → t.mm.read b = s.mm.read b) ∧
    (s.params.mmSize < a + 2 →
      memWrite16 a v s = .error (.refuse .mmRange) s ∧ memRead16 a s = .error (.refuse .mmRange) s) ∧
    (a + 2 ≤ s.params.mmSize → (∃ b, a ≤ b ∧ b < a + 2 ∧ s.cp ≤ b ∧ b < s.cend) →
      memWrite16 a v s = .error (.refuse .cmdlistWrite) s)

/-! ## Checks of the engine commands (60_exceptions.md R346; 70_reset_and_hazards.md R374) -/

/-- A misaligned block is refused first; then the first register of the command's setup that is unwritten faults, with its
name; in both cases nothing has changed (R33, R77, R346, R374). -/
def Obligations.SetupChecksComeFirst : Prop :=
  (∀ (i : Instr) (s : State) (w : Word), blockWordOf i = some w → s.resolved w % 8 ≠ 0 →
    exec i s = .refused (.mmAlign { s with status := .refused .mmAlign })) ∧
  ∀ (i : Instr) (s : State) (pre post : List RegName) (r : RegName), setupOf i = pre ++ r :: post →
    (∀ w, blockWordOf i = some w → s.resolved w % 8 = 0) → (∀ q ∈ pre, s.eng.isWritten q = true) →
      s.eng.isWritten r = false →
        exec i s = .fault (.unwritten r { s with status := .faulted (.unwritten r) })

/-- A command with a block that ends has found its block aligned, below `MM_SIZE` and outside the unread list (R75, R77,
R83, R84). -/
def Obligations.EndingMeansItsBlockWasStorable : Prop :=
  ∀ (i : Instr) (s t : State) (w : Word), blockWordOf i = some w → exec i s = .next t →
    storable s (s.resolved w) (blockBytesOf i)

/-! ## ADPCM (41_adpcm.md) -/

/-- The residuals of a 4-bit frame: two a byte, high nibble first, shifted by the scale up to 12 (R202). -/
def Obligations.FourBitResiduals : Prop :=
  ∀ (bs : List Byte) (scale j : Nat), bs.length = 8 → j < 8 →
    let r := frameResiduals false scale bs
    r.length = 16 ∧
      nth r (2 * j) = ((bs.getD j 0).extractLsb' 4 4).toInt * 2 ^ (min scale 12) ∧
      nth r (2 * j + 1) = ((bs.getD j 0).extractLsb' 0 4).toInt * 2 ^ (min scale 12) ∧
      -32768 ≤ nth r (2 * j) ∧ nth r (2 * j) ≤ 28672 ∧ -32768 ≤ nth r (2 * j + 1) ∧ nth r (2 * j + 1) ≤ 28672 ∧
      (12 ≤ scale → r = frameResiduals false 12 bs)

/-- The residuals of a 2-bit frame: four a byte, the most significant pair first, shifted by the scale up to 14 (R203). -/
def Obligations.TwoBitResiduals : Prop :=
  ∀ (bs : List Byte) (scale j q : Nat), bs.length = 4 → j < 4 → q < 4 →
    let r := frameResiduals true scale bs
    r.length = 16 ∧
      nth r (4 * j + q) = ((bs.getD j 0).extractLsb' (6 - 2 * q) 2).toInt * 2 ^ (min scale 14) ∧
      -32768 ≤ nth r (4 * j + q) ∧ nth r (4 * j + q) ≤ 16384 ∧
      (14 ≤ scale → r = frameResiduals true 14 bs)

/-- A prediction pass: sample i is the clamped, shifted sum of its residual, both seed terms and the second vector against
the pass's own residuals; the run faults if some sum leaves 32 bits and `ACC_OVERFLOW = fault` (R206). -/
def Obligations.PredictionPassSamples : Prop :=
  ∀ (s : State) (b1 b2 r : List Int) (l1 l2 : Int),
    let sum := fun i => nth r i * 2048 + nth b1 i * l1 + nth b2 i * l2
      + ∑ k ∈ Finset.range i, nth b2 k * nth r (i - 1 - k)
    ((∀ i, i < 8 → AccOk s (sum i)) →
      ∃ y, predict b1 b2 r l1 l2 s = .ok y s ∧ y.length = 8 ∧
        ∀ i, i < 8 → nth y i = clamp16 (asr (wrapS32 (sum i)) 11)) ∧
    (¬ (∀ i, i < 8 → AccOk s (sum i)) → predict b1 b2 r l1 l2 s = .error (.fault .accOverflow) s)

/-- What ADPCM leaves unchanged: every register, the sequencer and the log, every scratch byte outside the history prefix
and the decoded frames at `E[out]`, every main-memory byte outside the 32 bytes at lfa (R209, R210, R211). -/
def Obligations.AdpcmFrame : Prop :=
  ∀ (s t : State) (init loopFlag twobit : Bool) (lfa : Word), exec (.adpcm init loopFlag twobit lfa) s = .next t →
    t.eng = s.eng ∧ SameControl s t ∧
      SameScratchOutside (inScratch s.outAddr (32 + 32 * frameCount s.eng.count.value)) s t ∧
      SameMainOutside (inMain (s.resolved lfa) 32) s t

/-- ADPCM ends where its registers are written, its blocks aligned and in range, `E[out]` even, and the blocks its frames
select are written and cannot give a sum that stops the run: sums wrap, or the block exists and its coefficients are at
most 7054 in size, a bound no sum of R206 can leave 32 bits under (larger coefficients whose sums fit are not claimed
here). With no frames, the loaded history is then at `E[out]` and at lfa (R209, R210, R211, R213). The blocks that frames
select can be read from the start state when the output does not overlap the input, and otherwise all 16 are asked for. -/
def Obligations.AdpcmCompletes : Prop :=
  ∀ (s : State) (init loopFlag twobit : Bool) (lfa : Word),
    let a := s.resolved lfa
    let n := frameCount s.eng.count.value
    Ready (.adpcm init loopFlag twobit lfa) s → storable s a 32 →
      (init = false → loopFlag = true → loadable s s.eng.loop.value.toNat 32) → s.outAddr % 2 = 0 →
        ((∀ idx, idx < 16 → s.blockWritten idx ∧ s.blockFits idx) ∨
          (apart s.inpAddr (frameBytes twobit * n) s.outAddr (32 + 32 * n) ∧
            ∀ f, f < n → s.blockWritten (frameIndex (s.frameHeader twobit f)) ∧
              s.blockFits (frameIndex (s.frameHeader twobit f)))) →
          ∃ t, exec (.adpcm init loopFlag twobit lfa) s = .next t ∧
            (n = 0 → ∀ i, i < 16 →
              t.sample (s.outAddr + 2 * i) = nth (s.historyStart init loopFlag a) i ∧
              t.mmHalf (a + 2 * i) = lo16 (nth (s.historyStart init loopFlag a) i))

/-- ADPCM decodes: with input and output apart and every selected block below 8, the scratch at `E[out]` holds the loaded
history, then each frame's 16 samples by R201 to R207 from the history before it, and lfa holds the last 16 (R205 to R211). -/
def Obligations.AdpcmDecodesItsFrames : Prop :=
  ∀ (s : State) (init loopFlag twobit : Bool) (lfa : Word),
    let a := s.resolved lfa
    let n := frameCount s.eng.count.value
    let hist := s.historyStart init loopFlag a
    Ready (.adpcm init loopFlag twobit lfa) s → storable s a 32 →
      (init = false → loopFlag = true → loadable s s.eng.loop.value.toNat 32) → s.outAddr % 2 = 0 →
        apart s.inpAddr (frameBytes twobit * n) s.outAddr (32 + 32 * n) →
          (∀ f, f < n → frameIndex (s.frameHeader twobit f) < 8 ∧ s.blockWritten (frameIndex (s.frameHeader twobit f)) ∧
            s.blockFits (frameIndex (s.frameHeader twobit f))) →
            ∃ t, exec (.adpcm init loopFlag twobit lfa) s = .next t ∧
              (∀ i, i < 16 → t.sample (s.outAddr + 2 * i) = nth hist i) ∧
              (∀ f i, f < n → i < 16 → t.sample (s.outAddr + 32 + 32 * f + 2 * i)
                = nth (s.frameSamples twobit f (s.historyAfter twobit hist f)) i) ∧
              ∀ i, i < 16 → t.mmHalf (a + 2 * i) = lo16 (nth (s.historyAfter twobit hist n) i)

/-- With input and output apart, and every frame selecting a written codebook block of all zeros, ADPCM ends and every
decoded sample equals its residual exactly, in either overflow mode (R212, for such runs). -/
def Obligations.ZeroCodebookGivesTheResiduals : Prop :=
  ∀ (s : State) (init loopFlag twobit : Bool) (lfa : Word),
    let n := frameCount s.eng.count.value
    Ready (.adpcm init loopFlag twobit lfa) s → storable s (s.resolved lfa) 32 →
      (init = false → loopFlag = true → loadable s s.eng.loop.value.toNat 32) → s.outAddr % 2 = 0 →
        apart s.inpAddr (frameBytes twobit * n) s.outAddr (32 + 32 * n) →
          (∀ f, f < n → frameIndex (s.frameHeader twobit f) < 8 ∧ s.blockWritten (frameIndex (s.frameHeader twobit f)) ∧
            ∀ k, k < 16 → s.codebookAt (16 * frameIndex (s.frameHeader twobit f) + k) = 0) →
            ∃ t, exec (.adpcm init loopFlag twobit lfa) s = .next t ∧
              ∀ f i, f < n → i < 16 →
                t.sample (s.outAddr + 32 + 32 * f + 2 * i) = nth (s.residualsOf twobit f) i

/-- A codebook entry from 128 on never stops the run and can be any value, drawn freshly (R204; that the draw comes from
the supply, then from an uninterpreted function of a counter, is log 10). -/
def Obligations.EntriesBeyondTheCodebookAreAnyValue : Prop :=
  ∀ (s : State) (j : Nat) (v : Half), 128 ≤ j →
    (∃ x t, codebookLookup j s = .ok x t ∧ -32768 ≤ x ∧ x ≤ 32767 ∧ t = { s with supply := t.supply, draws := t.draws }) ∧
    codebookLookup j { s with supply := v :: s.supply } = .ok v.toInt s

/-! ## The exponential and linear mixers (42_envmixer.md) -/

/-- A ramp step adds the step by `acc32`, snaps to the target with step 0 where it is reached, and the gain is the
value's upper 16 bits (R242). -/
def Obligations.RampStepFollowsItsRule : Prop :=
  ∀ (r : Ramp) (s : State),
    let v := wrapS32 (r.value + r.step)
    (¬ AccOk s (r.value + r.step) → rampStep r s = .error (.fault .accOverflow) s) ∧
    (AccOk s (r.value + r.step) →
      (r.step ≤ 0 → v ≤ r.target → rampStep r s = .ok ⟨r.target, r.target, 0⟩ s) ∧
      (r.step ≤ 0 → r.target < v → rampStep r s = .ok ⟨v, r.target, r.step⟩ s) ∧
      (0 < r.step → r.target ≤ v → rampStep r s = .ok ⟨r.target, r.target, 0⟩ s) ∧
      (0 < r.step → v < r.target → rampStep r s = .ok ⟨v, r.target, r.step⟩ s)) ∧
    (-2147483648 ≤ r.target → r.target ≤ 2147483647 → ∀ t u, rampStep r s = .ok t u →
      t.gain * 65536 ≤ t.value ∧ t.value < t.gain * 65536 + 65536 ∧ -32768 ≤ t.gain ∧ t.gain ≤ 32767)

/-- A channel gain is the rounded product of ramp gain and constant; the clamp is reached only by -32768 times -32768
(R243). -/
def Obligations.ChannelGainClampsInOneCase : Prop :=
  ∀ g c : Int, -32768 ≤ g → g ≤ 32767 → -32768 ≤ c → c ≤ 32767 →
    ((g ≠ -32768 ∨ c ≠ -32768) → channelGain g c = (g * c + 16384) / 32768) ∧
    channelGain (-32768) (-32768) = 32767

/-- What ENVMIXER and ENVMIXER_LIN leave unchanged: every register, the sequencer and the log, every scratch byte outside
the rounded count of their channel buffers, every main-memory byte outside their 80-byte block (R245, R246, R248, R249). -/
def Obligations.MixersFrame : Prop :=
  (∀ (s t : State) (init aux : Bool) (block : Word), exec (.envmixer init aux block) s = .next t →
    t.eng = s.eng ∧ SameControl s t ∧
      SameScratchOutside (mixTouched (expBufs s aux) (8 * segmentCount s.eng.count.value)) s t ∧
      SameMainOutside (inMain (s.resolved block) 80) s t) ∧
  ∀ (s t : State) (init : Bool) (block : Word), exec (.envmixerLin init block) s = .next t →
    t.eng = s.eng ∧ SameControl s t ∧
      SameScratchOutside (mixTouched (linBufs s) (linCount s.eng.count.value)) s t ∧
      SameMainOutside (inMain (s.resolved block) 80) s t

/-- ENVMIXER ends where its registers are written, its block aligned, in range and unread-free, its buffers even (if it
mixes at all) and none of its 32-bit sums stops the run, whatever the buffers overlap (R246). -/
def Obligations.EnvmixerCompletes : Prop :=
  ∀ (s : State) (init aux : Bool) (block : Word),
    let a := s.resolved block
    let n := segmentCount s.eng.count.value
    Ready (.envmixer init aux block) s → storable s a 80 →
      (n ≠ 0 → s.inpAddr % 2 = 0 ∧ s.outAddr % 2 = 0 ∧ s.dryRightAddr % 2 = 0 ∧
        (aux = true → s.wetLeftAddr % 2 = 0 ∧ s.wetRightAddr % 2 = 0)) →
        expStartOk s init a → (expStart s init a).left.ok s n → (expStart s init a).right.ok s n →
          ∃ t, exec (.envmixer init aux block) s = .next t ∧
            t.mmHalf (a + 2) = lo16 (expStart s init a).wet ∧ t.mmHalf (a + 6) = lo16 (expStart s init a).dry ∧
            t.mmWord (a + 8) = lo32 (expStart s init a).left.ramp.target ∧
            t.mmWord (a + 12) = lo32 (expStart s init a).right.ramp.target ∧
            t.mmWord (a + 16) = lo32 (expStart s init a).left.rate ∧
            t.mmWord (a + 20) = lo32 (expStart s init a).right.rate ∧
            t.mmWord (a + 24) = lo32 ((expStart s init a).left.after n).seq ∧
            t.mmWord (a + 28) = lo32 ((expStart s init a).right.after n).seq ∧
            t.mmWord (a + 32) = lo32 ((expStart s init a).left.after n).ramp.value ∧
            t.mmWord (a + 36) = lo32 ((expStart s init a).right.after n).ramp.value

/-- ENVMIXER mixes: with its buffers apart, sample p of every channel it uses is the old sample plus the input sample at
the channel's gain of that sample, clamped, with the gains of the two ramps by R242 and R246 (R243, R244, R246). -/
def Obligations.EnvmixerMixesByItsRamps : Prop :=
  ∀ (s : State) (init aux : Bool) (block : Word),
    let a := s.resolved block
    let n := segmentCount s.eng.count.value
    let x := expStart s init a
    let bytes := 16 * n
    Ready (.envmixer init aux block) s → storable s a 80 →
      (n ≠ 0 → s.inpAddr % 2 = 0 ∧ s.outAddr % 2 = 0 ∧ s.dryRightAddr % 2 = 0 ∧
        (aux = true → s.wetLeftAddr % 2 = 0 ∧ s.wetRightAddr % 2 = 0)) →
        expStartOk s init a → x.left.ok s n → x.right.ok s n →
          apart s.inpAddr bytes s.outAddr bytes → apart s.inpAddr bytes s.dryRightAddr bytes →
            apart s.outAddr bytes s.dryRightAddr bytes →
              (aux = true → apart s.inpAddr bytes s.wetLeftAddr bytes ∧ apart s.inpAddr bytes s.wetRightAddr bytes ∧
                apart s.outAddr bytes s.wetLeftAddr bytes ∧ apart s.outAddr bytes s.wetRightAddr bytes ∧
                apart s.dryRightAddr bytes s.wetLeftAddr bytes ∧ apart s.dryRightAddr bytes s.wetRightAddr bytes ∧
                apart s.wetLeftAddr bytes s.wetRightAddr bytes) →
                ∃ t, exec (.envmixer init aux block) s = .next t ∧
                  ∀ p, p < 8 * n →
                    t.sample (s.outAddr + 2 * p) = clamp16 (s.sample (s.outAddr + 2 * p)
                      + contribution (s.sample (s.inpAddr + 2 * p)) (channelGain (x.left.gainAt p) x.dry)) ∧
                    t.sample (s.dryRightAddr + 2 * p) = clamp16 (s.sample (s.dryRightAddr + 2 * p)
                      + contribution (s.sample (s.inpAddr + 2 * p)) (channelGain (x.right.gainAt p) x.dry)) ∧
                    (aux = true →
                      t.sample (s.wetLeftAddr + 2 * p) = clamp16 (s.sample (s.wetLeftAddr + 2 * p)
                        + contribution (s.sample (s.inpAddr + 2 * p)) (channelGain (x.left.gainAt p) x.wet)) ∧
                      t.sample (s.wetRightAddr + 2 * p) = clamp16 (s.sample (s.wetRightAddr + 2 * p)
                        + contribution (s.sample (s.inpAddr + 2 * p)) (channelGain (x.right.gainAt p) x.wet)))

/-- Exponential persistence: one ENVMIXER over 16(k+m) bytes, and one over 16k bytes followed by one with INIT clear over
16m bytes with every buffer 16k bytes on, leave the same scratch and the same named block bytes, if neither ramp is
stalled at the split (R255). -/
def Obligations.ExponentialRampsPersist : Prop :=
  ∀ (s whole : State) (init aux : Bool) (block : Word) (k m : Nat),
    let a := s.resolved block
    16 * (k + m) < 65536 →
      exec (.envmixer init aux block) (s.setCount (BitVec.ofNat 16 (16 * (k + m)))) = .next whole →
        ¬ ((expStart s init a).left.after k).ramp.stalled → ¬ ((expStart s init a).right.after k).ramp.stalled →
          ∃ first second,
            exec (.envmixer init aux block) (s.setCount (BitVec.ofNat 16 (16 * k))) = .next first ∧
            exec (.envmixer false aux block)
              (first.shiftBuffers (BitVec.ofNat 16 (16 * k)) (BitVec.ofNat 16 (16 * m))) = .next second ∧
            SameScratch whole second ∧ (∀ o, o < 80 → o ∉ expUnnamed → second.mm.read (a + o) = whole.mm.read (a + o)) ∧
            SameMainOutside (inMain a 80) whole second

/-- ENVMIXER_LIN ends where its registers are written, its block aligned, in range and unread-free, its buffers even (if
it mixes at all) and no ramp sum stops the run, whatever the buffers overlap; its block then holds the constants, targets,
steps and values (R248, R249). -/
def Obligations.LinearMixerCompletes : Prop :=
  ∀ (s : State) (init : Bool) (block : Word),
    let a := s.resolved block
    let n := linCount s.eng.count.value
    let x := linStart s init a
    Ready (.envmixerLin init block) s → storable s a 80 →
      (n ≠ 0 → s.inpAddr % 2 = 0 ∧ s.outAddr % 2 = 0 ∧ s.dryRightAddr % 2 = 0 ∧ s.wetLeftAddr % 2 = 0 ∧
        s.wetRightAddr % 2 = 0) →
        x.ramps.1.ok s n → x.ramps.2.ok s n →
          ∃ t, exec (.envmixerLin init block) s = .next t ∧
            t.mmHalf (a + 2) = lo16 x.wet ∧ t.mmHalf (a + 6) = lo16 x.dry ∧
            t.mmHalf (a + 10) = lo16 (x.ramps.1.target / 65536) ∧ t.mmHalf (a + 14) = lo16 (x.ramps.2.target / 65536) ∧
            t.mmWord (a + 16) = lo32 (x.ramps.1.after n).step ∧ t.mmWord (a + 20) = lo32 (x.ramps.2.after n).step ∧
            t.mmWord (a + 32) = lo32 (x.ramps.1.after n).value ∧ t.mmWord (a + 36) = lo32 (x.ramps.2.after n).value

/-- ENVMIXER_LIN mixes: with its buffers apart, sample p of every channel is the old sample plus the input sample at the
channel's gain of that sample, clamped, with the gains of the two ramps by R242 (R243, R244, R249). -/
def Obligations.LinearMixerMixesByItsRamps : Prop :=
  ∀ (s : State) (init : Bool) (block : Word),
    let a := s.resolved block
    let n := linCount s.eng.count.value
    let x := linStart s init a
    let bytes := 2 * n
    Ready (.envmixerLin init block) s → storable s a 80 →
      (n ≠ 0 → s.inpAddr % 2 = 0 ∧ s.outAddr % 2 = 0 ∧ s.dryRightAddr % 2 = 0 ∧ s.wetLeftAddr % 2 = 0 ∧
        s.wetRightAddr % 2 = 0) →
        x.ramps.1.ok s n → x.ramps.2.ok s n →
          [s.inpAddr, s.outAddr, s.dryRightAddr, s.wetLeftAddr, s.wetRightAddr].Pairwise
            (fun b c => apart b bytes c bytes) →
            ∃ t, exec (.envmixerLin init block) s = .next t ∧
              ∀ p, p < n →
                t.sample (s.outAddr + 2 * p) = clamp16 (s.sample (s.outAddr + 2 * p)
                  + contribution (s.sample (s.inpAddr + 2 * p)) (channelGain (x.ramps.1.after (p + 1)).gain x.dry)) ∧
                t.sample (s.dryRightAddr + 2 * p) = clamp16 (s.sample (s.dryRightAddr + 2 * p)
                  + contribution (s.sample (s.inpAddr + 2 * p)) (channelGain (x.ramps.2.after (p + 1)).gain x.dry)) ∧
                t.sample (s.wetLeftAddr + 2 * p) = clamp16 (s.sample (s.wetLeftAddr + 2 * p)
                  + contribution (s.sample (s.inpAddr + 2 * p)) (channelGain (x.ramps.1.after (p + 1)).gain x.wet)) ∧
                t.sample (s.wetRightAddr + 2 * p) = clamp16 (s.sample (s.wetRightAddr + 2 * p)
                  + contribution (s.sample (s.inpAddr + 2 * p)) (channelGain (x.ramps.2.after (p + 1)).gain x.wet))

/-- Linear persistence: one ENVMIXER_LIN over 2(N+M) bytes, and one over 2N bytes followed by one with INIT clear over 2M
bytes with every buffer 2N bytes on, leave the same scratch and the same named block bytes (R254). -/
def Obligations.LinearRampsPersist : Prop :=
  ∀ (s whole : State) (init : Bool) (block : Word) (n m : Nat),
    let a := s.resolved block
    2 * (n + m) < 65536 →
      exec (.envmixerLin init block) (s.setCount (BitVec.ofNat 16 (2 * (n + m)))) = .next whole →
        ∃ first second,
          exec (.envmixerLin init block) (s.setCount (BitVec.ofNat 16 (2 * n))) = .next first ∧
          exec (.envmixerLin false block)
            (first.shiftBuffers (BitVec.ofNat 16 (2 * n)) (BitVec.ofNat 16 (2 * m))) = .next second ∧
          SameScratch whole second ∧ (∀ o, o < 80 → o ∉ linUnnamed → second.mm.read (a + o) = whole.mm.read (a + o)) ∧
          SameMainOutside (inMain a 80) whole second

/-! ## The nead mixer (42_envmixer.md) -/

/-- ENVMIXER_NEAD ends whenever its six registers are written, whatever its buffers overlap; it leaves the envelope values
advanced once for each group of 8 samples, and changes nothing else but its four channel buffers (R252, R38). -/
def Obligations.NeadCompletesInItsFrame : Prop :=
  ∀ (s : State) (inp count : Byte) (swap xorWl xorWr xorDl xorDr : Bool) (dl dr wl wr : Byte),
    Ready (.envmixerNead inp count swap xorWl xorWr xorDl xorDr dl dr wl wr) s →
      ∃ t, exec (.envmixerNead inp count swap xorWl xorWr xorDl xorDr dl dr wl wr) s = .next t ∧
        t = { s with
          sm := t.sm
          eng := { s.eng with
            envValue0 := .of (s.envsAt ((count.toNat + 7) / 8)).e0
            envValue1 := .of (s.envsAt ((count.toNat + 7) / 8)).e1
            envValue2 := .of (s.envsAt ((count.toNat + 7) / 8)).e2 } } ∧
        SameScratchOutside (neadTouched (neadBufs inp swap dl dr wl wr) (8 * ((count.toNat + 7) / 8))) s t

/-- ENVMIXER_NEAD mixes: with its buffers apart, sample p of each channel is the old sample plus the channel's value by
R251, at the envelope values of its group, clamped; SWAP exchanges the two wet destinations, not their masks (R250 to R252). -/
def Obligations.NeadMixesByItsEnvelopes : Prop :=
  ∀ (s : State) (inp count : Byte) (swap xorWl xorWr xorDl xorDr : Bool) (dl dr wl wr : Byte),
    let n := 8 * ((count.toNat + 7) / 8)
    let wlDest := (if swap then wr else wl).toNat * 16
    let wrDest := (if swap then wl else wr).toNat * 16
    Ready (.envmixerNead inp count swap xorWl xorWr xorDl xorDr dl dr wl wr) s →
      [inp.toNat * 16, dl.toNat * 16, dr.toNat * 16, wlDest, wrDest].Pairwise
        (fun b c => apart b (2 * n) c (2 * n)) →
        ∃ t, exec (.envmixerNead inp count swap xorWl xorWr xorDl xorDr dl dr wl wr) s = .next t ∧
          ∀ p, p < n →
            let ev := s.envsAt (p / 8)
            let flip := fun (flag : Bool) (v : Int) => if flag then -v - 1 else v
            let x := s.sample (inp.toNat * 16 + 2 * p)
            let l := flip xorDl (x * ev.e0.toNat / 65536)
            let r := flip xorDr (x * ev.e1.toNat / 65536)
            t.sample (dl.toNat * 16 + 2 * p) = clamp16 (s.sample (dl.toNat * 16 + 2 * p) + l) ∧
            t.sample (dr.toNat * 16 + 2 * p) = clamp16 (s.sample (dr.toNat * 16 + 2 * p) + r) ∧
            t.sample (wlDest + 2 * p)
              = clamp16 (s.sample (wlDest + 2 * p) + flip xorWl (l * ev.e2.toNat / 65536)) ∧
            t.sample (wrDest + 2 * p)
              = clamp16 (s.sample (wrDest + 2 * p) + flip xorWr (r * ev.e2.toNat / 65536))

/-- Nead persistence: a second ENVMIXER_NEAD with every field moved on by the first's groups continues where the first left
off: the two leave the whole state one command over all groups leaves (R256). -/
def Obligations.NeadEnvelopesPersist : Prop :=
  ∀ (s t : State) (g1 g2 : Nat) (inp : Byte) (swap xorWl xorWr xorDl xorDr : Bool) (dl dr wl wr : Byte),
    g1 + g2 ≤ 31 → inp.toNat + g1 ≤ 255 → dl.toNat + g1 ≤ 255 → dr.toNat + g1 ≤ 255 → wl.toNat + g1 ≤ 255 →
      wr.toNat + g1 ≤ 255 →
        exec (.envmixerNead inp (BitVec.ofNat 8 (8 * (g1 + g2))) swap xorWl xorWr xorDl xorDr dl dr wl wr) s = .next t →
          ∃ u,
            exec (.envmixerNead inp (BitVec.ofNat 8 (8 * g1)) swap xorWl xorWr xorDl xorDr dl dr wl wr) s = .next u ∧
            exec (.envmixerNead (inp + BitVec.ofNat 8 g1) (BitVec.ofNat 8 (8 * g2)) swap xorWl xorWr xorDl xorDr
              (dl + BitVec.ofNat 8 g1) (dr + BitVec.ofNat 8 g1) (wl + BitVec.ofNat 8 g1) (wr + BitVec.ofNat 8 g1)) u
                = .next t

/-! ## The resampler (43_resample.md) -/

/-- What RESAMPLE leaves unchanged: every register, the sequencer, the log and the free values, every scratch byte outside
the 8 bytes below `E[in]` and the rounded count at `E[out]`, every main-memory byte outside its 10-byte block (R303, R305,
R306). -/
def Obligations.ResampleFrame : Prop :=
  ∀ (s t : State) (init : Bool) (pitch : Half) (block : Word), exec (.resample init pitch block) s = .next t →
    t.eng = s.eng ∧ SameControl s t ∧ SameDraws s t ∧
      SameScratchOutside (fun b => inScratch (s.inpAddr + 65528) 8 b ∨
        inScratch s.outAddr (2 * outputCount s.eng.count.value) b) s t ∧
      SameMainOutside (inMain (s.resolved block) 10) s t

/-- RESAMPLE ends where its registers are written, its block aligned, in range and unread-free, its addresses even, and
sums wrap or no kernel's taps can take a dot product out of 32 bits, whatever the buffers overlap; its block then holds the
accumulator after all outputs (R302, R305, R306). -/
def Obligations.ResampleCompletes : Prop :=
  ∀ (s : State) (init : Bool) (pitch : Half) (block : Word),
    let sa := s.resolved block
    let n := outputCount s.eng.count.value
    Ready (.resample init pitch block) s → storable s sa 10 → s.inpAddr % 2 = 0 → (n ≠ 0 → s.outAddr % 2 = 0) →
      (s.params.accOverflow = .wrap32 ∨ ∀ k : Fin 64,
        (s.params.lut.get k).t0.toInt.natAbs + (s.params.lut.get k).t1.toInt.natAbs +
          (s.params.lut.get k).t2.toInt.natAbs + (s.params.lut.get k).t3.toInt.natAbs ≤ 65535) →
        ∃ t, exec (.resample init pitch block) s = .next t ∧
          t.mmHalf (sa + 8) = accAfter (accStart s init sa) pitch n

/-- RESAMPLE convolves: with its output apart from the stretch of input it reads, output j is the clamped dot product of 4
consecutive samples of the stream (4 history samples, then the input) with the kernel of the accumulator's top 6 bits, and
the block holds the last window and the accumulator (R302 to R306). -/
def Obligations.ResampleConvolvesItsInput : Prop :=
  ∀ (s : State) (init : Bool) (pitch : Half) (block : Word),
    let sa := s.resolved block
    let n := outputCount s.eng.count.value
    let acc := accStart s init sa
    Ready (.resample init pitch block) s → storable s sa 10 → s.inpAddr % 2 = 0 → (n ≠ 0 → s.outAddr % 2 = 0) →
      apart (s.inpAddr + 65528) (8 + 2 * windowMoved acc pitch n) s.outAddr (2 * n) →
        (∀ j, j < n → AccOk s (outputDot s init pitch sa j)) →
          ∃ t, exec (.resample init pitch block) s = .next t ∧
            (∀ j, j < n → t.sample (s.outAddr + 2 * j) = clamp16 (asr (wrapS32 (outputDot s init pitch sa j)) 15)) ∧
            (∀ k, k < 4 → t.mmHalf (sa + 2 * k) = lo16 (streamSample s init sa (windowMoved acc pitch n + k))) ∧
            t.mmHalf (sa + 8) = accAfter acc pitch n

/-- At ratio 1.0 (pitch field 0x8000) the accumulator never changes, every output uses the start's kernel, and output j is
that kernel over samples j to j+3 of the stream (R307). -/
def Obligations.RatioOneIsOneFixedFilter : Prop :=
  ∀ (s : State) (init : Bool) (block : Word),
    let sa := s.resolved block
    let n := outputCount s.eng.count.value
    let k0 := kernelOf s.params.lut (accStart s init sa)
    let dot := fun j => streamSample s init sa j * k0.t0.toInt + streamSample s init sa (j + 1) * k0.t1.toInt
      + streamSample s init sa (j + 2) * k0.t2.toInt + streamSample s init sa (j + 3) * k0.t3.toInt
    Ready (.resample init 0x8000 block) s → storable s sa 10 → s.inpAddr % 2 = 0 → (n ≠ 0 → s.outAddr % 2 = 0) →
      apart (s.inpAddr + 65528) (8 + 2 * n) s.outAddr (2 * n) → (∀ j, j < n → fitsS32 (dot j) = true) →
        ∃ t, exec (.resample init 0x8000 block) s = .next t ∧
          (∀ j, j < n → t.sample (s.outAddr + 2 * j) = clamp16 (asr (dot j) 15)) ∧
          t.mmHalf (sa + 8) = accStart s init sa

/-- State round trip: one RESAMPLE over 16(k+m) output bytes, and one over 16k bytes followed by one with INIT clear over
16m bytes whose input stands where the stream continues and whose output stands 16k bytes on, leave the same scratch and
the same main memory (R309). -/
def Obligations.ResamplerStateRoundTrip : Prop :=
  ∀ (s whole : State) (init : Bool) (pitch : Half) (block : Word) (k m : Nat),
    16 * (k + m) < 65536 →
      exec (.resample init pitch block) (s.setCount (BitVec.ofNat 16 (16 * (k + m)))) = .next whole →
        ∃ first second,
          exec (.resample init pitch block) (s.setCount (BitVec.ofNat 16 (16 * k))) = .next first ∧
          exec (.resample false pitch block)
            (first.setBuffers
              (s.eng.inp.value + BitVec.ofNat 16 (2 * windowMoved (accStart s init (s.resolved block)) pitch (8 * k)))
              (s.eng.out.value + BitVec.ofNat 16 (16 * k)) (BitVec.ofNat 16 (16 * m))) = .next second ∧
          SameScratch whole second ∧ SameMain whole second

end
end

