-- ==== Sys2Proof/Laws/Act.lean ====
section
/-! SUPPORT. Laws/Act.lean: how pieces of a command compose.

`Runs x s Q`: x ends on s with a value and a state that meet Q (it does not stop). `Keeps R x`: whatever x does on a
state, also where it stops, the state after it is related to the state before it by R. -/

namespace Sys2Proof.Machine

variable {α β : Type}

/-! ## Running a sequence -/

theorem bind_apply (x : Act α) (f : α → Act β) (s : State) :
    (x >>= f) s = match x s with
      | .ok a t => f a t
      | .error e t => .error e t := by
  change EStateM.bind x f s = _
  unfold EStateM.bind
  cases x s <;> rfl

@[simp] theorem pure_apply (a : α) (s : State) : (pure a : Act α) s = .ok a s := rfl

theorem bind_of_ok {x : Act α} {f : α → Act β} {s t : State} {a : α} (h : x s = .ok a t) : (x >>= f) s = f a t := by
  rw [bind_apply, h]

theorem bind_of_error {x : Act α} {f : α → Act β} {s t : State} {e : Stop} (h : x s = .error e t) :
    (x >>= f) s = .error e t := by
  rw [bind_apply, h]

/-- A sequence ends exactly where its two parts do. -/
theorem bind_ok_iff {x : Act α} {f : α → Act β} {s t : State} {b : β} :
    (x >>= f) s = .ok b t ↔ ∃ a u, x s = .ok a u ∧ f a u = .ok b t := by
  rw [bind_apply]
  cases h : x s with
  | ok a u => simp
  | error e u => simp

/-- A sequence stops where its first part stops, or the first ends and the second stops. -/
theorem bind_error_iff {x : Act α} {f : α → Act β} {s t : State} {e : Stop} :
    (x >>= f) s = .error e t ↔ x s = .error e t ∨ ∃ a u, x s = .ok a u ∧ f a u = .error e t := by
  rw [bind_apply]
  cases h : x s with
  | ok a u => simp
  | error e u => simp

theorem pure_ok_iff {a b : α} {s t : State} : (pure a : Act α) s = .ok b t ↔ a = b ∧ s = t := by
  simp [pure_apply]

/-- The whole command answers a next state exactly when its piece ends. -/
theorem runAct_next_iff {x : Act Unit} {s t : State} : runAct x s = .next t ↔ x s = .ok () t := by
  unfold runAct
  cases h : x s with
  | ok a u => simp
  | error e u => cases e <;> simp [Stop.outcome]

theorem runAct_fault_iff {x : Act Unit} {s : State} {f : Fault} :
    runAct x s = .fault f ↔
      ∃ k t, x s = .error (.fault k) t ∧ f = Fault.of k { t with status := .faulted k } := by
  unfold runAct
  cases h : x s with
  | ok a u => simp
  | error e u => cases e <;> simp [Stop.outcome, eq_comm]

theorem runAct_refused_iff {x : Act Unit} {s : State} {r : Refusal} :
    runAct x s = .refused r ↔
      ∃ k t, x s = .error (.refuse k) t ∧ r = Refusal.of k { t with status := .refused k } := by
  unfold runAct
  cases h : x s with
  | ok a u => simp
  | error e u => cases e <;> simp [Stop.outcome, eq_comm]

theorem runAct_of_error {x : Act Unit} {s t : State} {e : Stop} (h : x s = .error e t) : runAct x s = e.outcome t := by
  unfold runAct; rw [h]

/-! ## Loops, one round at a time -/

@[simp] theorem loop_zero (f : Nat → Act Unit) (s : State) : loop 0 f s = .ok () s := rfl

theorem loop_succ (n : Nat) (f : Nat → Act Unit) : loop (n + 1) f = (loop n f >>= fun _ => f n) := rfl

@[simp] theorem loopFrom_zero (b : β) (f : Nat → β → Act β) (s : State) : loopFrom 0 b f s = .ok b s := rfl

theorem loopFrom_succ (n : Nat) (b : β) (f : Nat → β → Act β) : loopFrom (n + 1) b f = (loopFrom n b f >>= f n) := rfl

@[simp] theorem collect_zero (f : Nat → Act α) (s : State) : collect 0 f s = .ok [] s := rfl

theorem collect_succ (n : Nat) (f : Nat → Act α) :
    collect (n + 1) f = (collect n f >>= fun xs => f n >>= fun x => pure (xs ++ [x])) := rfl

/-- A collection ends where its first failing turn ends. -/
theorem collect_error {n k : Nat} {f : Nat → Act α} {xs : List α} {s t u : State} {e : Stop} (hk : k < n)
    (h : collect k f s = .ok xs t) (he : f k t = .error e u) : collect n f s = .error e u := by
  induction n with
  | zero => omega
  | succ n ih =>
    rw [collect_succ]
    rcases Nat.lt_succ_iff_lt_or_eq.1 hk with hlt | rfl
    · exact bind_of_error (ih hlt)
    · rw [bind_of_ok h]
      exact bind_of_error he

theorem act_bind_assoc {γ : Type} (x : Act α) (f : α → Act β) (g : β → Act γ) :
    ((x >>= f) >>= g) = (x >>= fun a => f a >>= g) := by
  funext s
  simp only [bind_apply]
  cases x s <;> rfl

/-- A loop of m + n rounds is a loop of m rounds, then n more. -/
theorem loopFrom_add (m n : Nat) (b : β) (f : Nat → β → Act β) :
    loopFrom (m + n) b f = (loopFrom m b f >>= fun b' => loopFrom n b' fun i => f (m + i)) := by
  induction n with
  | zero =>
    funext s
    simp only [Nat.add_zero, bind_apply]
    cases loopFrom m b f s <;> rfl
  | succ n ih =>
    rw [← Nat.add_assoc, loopFrom_succ, ih, act_bind_assoc]
    rfl

theorem loopFrom_congr {n : Nat} {b : β} {f g : Nat → β → Act β} (h : ∀ i, i < n → ∀ b, f i b = g i b) :
    loopFrom n b f = loopFrom n b g := by
  induction n with
  | zero => rfl
  | succ n ih =>
    rw [loopFrom_succ, loopFrom_succ, ih fun i hi => h i (by omega)]
    congr 1
    funext b'
    exact h n (by omega) b'

/-! ## Total correctness -/

/-- x ends on s, and its value and state meet Q. -/
def Runs (x : Act α) (s : State) (Q : α → State → Prop) : Prop := ∃ a t, x s = .ok a t ∧ Q a t

theorem Runs.of_eq {x : Act α} {s t : State} {a : α} {Q : α → State → Prop} (h : x s = .ok a t) (q : Q a t) :
    Runs x s Q := ⟨a, t, h, q⟩

theorem Runs.pure {a : α} {s : State} {Q : α → State → Prop} (q : Q a s) : Runs (pure a : Act α) s Q := ⟨a, s, rfl, q⟩

theorem Runs.bind {x : Act α} {f : α → Act β} {s : State} {Q : β → State → Prop}
    (h : Runs x s fun a u => Runs (f a) u Q) : Runs (x >>= f) s Q := by
  obtain ⟨a, u, hx, b, t, hf, q⟩ := h
  exact ⟨b, t, by rw [bind_of_ok hx, hf], q⟩

theorem Runs.mono {x : Act α} {s : State} {P Q : α → State → Prop} (h : Runs x s P) (pq : ∀ a t, P a t → Q a t) :
    Runs x s Q := by
  obtain ⟨a, t, hx, p⟩ := h
  exact ⟨a, t, hx, pq a t p⟩

theorem Runs.loop {n : Nat} {f : Nat → Act Unit} {s : State} (I : Nat → State → Prop) (h0 : I 0 s)
    (hs : ∀ i u, i < n → I i u → Runs (f i) u fun _ t => I (i + 1) t) : Runs (loop n f) s fun _ t => I n t := by
  induction n with
  | zero => exact ⟨(), s, rfl, h0⟩
  | succ n ih =>
    exact Runs.bind ((ih fun i u hi => hs i u (by omega)).mono fun _ u hu => hs n u (by omega) hu)

theorem Runs.loopFrom {n : Nat} {b : β} {f : Nat → β → Act β} {s : State} (I : Nat → β → State → Prop) (h0 : I 0 b s)
    (hs : ∀ i c u, i < n → I i c u → Runs (f i c) u fun d t => I (i + 1) d t) :
    Runs (loopFrom n b f) s fun d t => I n d t := by
  induction n with
  | zero => exact ⟨b, s, rfl, h0⟩
  | succ n ih =>
    exact Runs.bind ((ih fun i c u hi => hs i c u (by omega)).mono fun c u hu => hs n c u (by omega) hu)

theorem Runs.collect {n : Nat} {f : Nat → Act α} {s : State} (I : Nat → List α → State → Prop) (h0 : I 0 [] s)
    (hs : ∀ i xs u, i < n → I i xs u → Runs (f i) u fun x t => I (i + 1) (xs ++ [x]) t) :
    Runs (collect n f) s fun xs t => I n xs t := by
  induction n with
  | zero => exact ⟨[], s, rfl, h0⟩
  | succ n ih =>
    refine Runs.bind ((ih fun i xs u hi => hs i xs u (by omega)).mono fun xs u hu => Runs.bind ?_)
    exact (hs n xs u (by omega) hu).mono fun x t ht => Runs.pure ht

theorem Runs.next {x : Act Unit} {s : State} {Q : State → Prop} (h : Runs x s fun _ t => Q t) :
    ∃ t, runAct x s = .next t ∧ Q t := by
  obtain ⟨⟨⟩, t, hx, q⟩ := h
  exact ⟨t, runAct_next_iff.2 hx, q⟩

/-! ## Frames -/

/-- The state an `Act` leaves, whether it ends or stops. -/
def leaves (x : Act α) (s : State) : State :=
  match x s with
  | .ok _ t => t
  | .error _ t => t

/-- Whatever x does on a state, the state it leaves is related to that state by R. -/
def Keeps (R : State → State → Prop) (x : Act α) : Prop := ∀ s, R s (leaves x s)

/-- A relation of states that frames can be built from. -/
structure Framing (R : State → State → Prop) : Prop where
  refl : ∀ s, R s s
  trans : ∀ s t u, R s t → R t u → R s u

theorem leaves_of_ok {x : Act α} {s t : State} {a : α} (h : x s = .ok a t) : leaves x s = t := by
  unfold leaves; rw [h]

theorem leaves_of_error {x : Act α} {s t : State} {e : Stop} (h : x s = .error e t) : leaves x s = t := by
  unfold leaves; rw [h]

theorem Keeps.of_ok {R : State → State → Prop} {x : Act α} (h : Keeps R x) {s t : State} {a : α} (e : x s = .ok a t) :
    R s t := leaves_of_ok e ▸ h s

theorem Keeps.of_error {R : State → State → Prop} {x : Act α} (h : Keeps R x) {s t : State} {e : Stop}
    (e : x s = .error e t) : R s t := leaves_of_error e ▸ h s

theorem Keeps.pure {R : State → State → Prop} (F : Framing R) (a : α) : Keeps R (pure a : Act α) := fun s => F.refl s

theorem Keeps.stop {R : State → State → Prop} (F : Framing R) (e : Stop) : Keeps R (stop e : Act α) := fun s => F.refl s

theorem Keeps.bind {R : State → State → Prop} (F : Framing R) {x : Act α} {f : α → Act β} (hx : Keeps R x)
    (hf : ∀ a, Keeps R (f a)) : Keeps R (x >>= f) := fun s => by
  cases h : x s with
  | ok a t =>
    have : leaves (x >>= f) s = leaves (f a) t := by unfold leaves; rw [bind_of_ok h]
    rw [this]
    exact F.trans _ _ _ (hx.of_ok h) (hf a t)
  | error e t => rw [leaves_of_error (bind_of_error h)]; exact hx.of_error h

theorem Keeps.refuseIf {R : State → State → Prop} (F : Framing R) (b : Bool) (r : RefuseReason) :
    Keeps R (refuseIf b r) := fun s => by cases b <;> exact F.refl s

theorem Keeps.loop {R : State → State → Prop} (F : Framing R) {n : Nat} {f : Nat → Act Unit}
    (h : ∀ i, i < n → Keeps R (f i)) : Keeps R (loop n f) := by
  induction n with
  | zero => exact fun s => F.refl s
  | succ n ih => exact Keeps.bind F (ih fun i hi => h i (by omega)) fun _ => h n (by omega)

theorem Keeps.loopFrom {R : State → State → Prop} (F : Framing R) {n : Nat} {b : β} {f : Nat → β → Act β}
    (h : ∀ i c, i < n → Keeps R (f i c)) : Keeps R (loopFrom n b f) := by
  induction n with
  | zero => exact fun s => F.refl s
  | succ n ih => exact Keeps.bind F (ih fun i c hi => h i c (by omega)) fun c => h n c (by omega)

theorem Keeps.collect {R : State → State → Prop} (F : Framing R) {n : Nat} {f : Nat → Act α}
    (h : ∀ i, i < n → Keeps R (f i)) : Keeps R (collect n f) := by
  induction n with
  | zero => exact fun s => F.refl s
  | succ n ih =>
    exact Keeps.bind F (ih fun i hi => h i (by omega)) fun xs => Keeps.bind F (h n (by omega)) fun x => Keeps.pure F _

/-- An operation that changes no state, whatever it answers. -/
def Silent (x : Act α) : Prop := ∀ s, leaves x s = s

theorem Silent.keeps {R : State → State → Prop} (F : Framing R) {x : Act α} (h : Silent x) : Keeps R x := fun s => by
  rw [h s]; exact F.refl s

theorem Silent.of_ok {x : Act α} (h : Silent x) {s t : State} {a : α} (e : x s = .ok a t) : t = s := by
  rw [← leaves_of_ok e, h s]

theorem Silent.of_error {x : Act α} (h : Silent x) {s t : State} {e : Stop} (e : x s = .error e t) : t = s := by
  rw [← leaves_of_error e, h s]

theorem framing_eq : Framing (fun s t : State => t = s) := ⟨fun _ => rfl, fun _ _ _ h1 h2 => h2.trans h1⟩

theorem Silent.bind {x : Act α} {f : α → Act β} (hx : Silent x) (hf : ∀ a, Silent (f a)) : Silent (x >>= f) :=
  Keeps.bind framing_eq hx hf

theorem Silent.pure (a : α) : Silent (pure a : Act α) := fun _ => rfl

theorem Silent.stop (e : Stop) : Silent (stop e : Act α) := fun _ => rfl

theorem Silent.refuseIf (b : Bool) (r : RefuseReason) : Silent (refuseIf b r) := Keeps.refuseIf framing_eq b r

theorem Silent.collect {n : Nat} {f : Nat → Act α} (h : ∀ i, Silent (f i)) : Silent (collect n f) :=
  Keeps.collect framing_eq fun i _ => h i

end Sys2Proof.Machine
end

