-- ==== Sys2Proof/Laws/Memory.lean ====
section
/-! SUPPORT. Laws/Memory.lean: the laws of the memory list: reading after writing, the canonical form, and that canonical
memories that read the same are the same. -/

namespace Sys2Proof.Machine

@[simp] theorem Mem.read_nil (a : Nat) : Mem.read [] a = 0 := rfl

theorem Mem.read_cons (c : Host.Cell) (m : Mem) (a : Nat) :
    Mem.read (c :: m) a = if a = c.1 then c.2 else Mem.read m a := rfl

theorem Mem.read_consCell (a : Nat) (v : Byte) (m : Mem) (h : Mem.read m a = 0) (b : Nat) :
    Mem.read (Mem.consCell a v m) b = if b = a then v else Mem.read m b := by
  unfold Mem.consCell
  split
  · next hv =>
    split
    · next hb => subst hb; rw [h, hv]; rfl
    · rfl
  · rfl

theorem Mem.read_erase (m : Mem) (a b : Nat) :
    Mem.read (Mem.erase m a) b = if b = a then 0 else Mem.read m b := by
  induction m with
  | nil => simp [Mem.erase]
  | cons c m ih =>
    have hc : Mem.erase (c :: m) a = if c.1 = a then Mem.erase m a else c :: Mem.erase m a := by
      by_cases h : c.1 = a <;> simp [Mem.erase, h]
    rw [hc, Mem.read_cons]
    split <;> simp only [Mem.read_cons, ih] <;> split_ifs <;> simp_all

/-- Reading after writing: the byte written, and every other byte as before, in any memory list. -/
theorem Mem.read_write (m : Mem) (a : Nat) (v : Byte) (b : Nat) :
    Mem.read (Mem.write m a v) b = if b = a then v else Mem.read m b := by
  induction m with
  | nil => exact Mem.read_consCell a v [] rfl b
  | cons c m ih =>
    obtain ⟨d, w⟩ := c
    unfold Mem.write
    split
    · next h =>
      simp only [Mem.read_cons, ih]
      split_ifs <;> first | rfl | omega
    · rw [Mem.read_consCell _ _ _ (by simp [Mem.read_erase]), Mem.read_erase]
      split_ifs <;> rfl

@[simp] theorem Mem.read_write_self (m : Mem) (a : Nat) (v : Byte) : Mem.read (Mem.write m a v) a = v := by
  simp [Mem.read_write]

theorem Mem.read_write_ne (m : Mem) {a b : Nat} (v : Byte) (h : b ≠ a) :
    Mem.read (Mem.write m a v) b = Mem.read m b := by
  simp [Mem.read_write, h]

/-! ## The canonical form -/

theorem Mem.wf_nil (bound : Nat) : Mem.wf bound [] := by simp [Mem.wf]

theorem Mem.mem_write {m : Mem} {a : Nat} {v : Byte} {c : Host.Cell} (h : c ∈ Mem.write m a v) :
    (c = (a, v) ∧ v ≠ Mem.unlisted) ∨ c ∈ m := by
  induction m with
  | nil =>
    simp only [Mem.write, Mem.consCell] at h
    split at h <;> simp_all
  | cons d m ih =>
    obtain ⟨d1, d2⟩ := d
    unfold Mem.write at h
    split at h
    · rcases List.mem_cons.1 h with h | h
      · exact .inr (by simp [h])
      · exact (ih h).imp id (List.mem_cons_of_mem _)
    · unfold Mem.consCell at h
      split at h
      · exact .inr (List.mem_filter.1 h).1
      · next hv =>
        rcases List.mem_cons.1 h with h | h
        · exact .inl ⟨h, hv⟩
        · exact .inr (List.mem_filter.1 h).1

/-- Every write below the bound keeps the canonical form. -/
theorem Mem.wf_write {bound : Nat} {m : Mem} (h : Mem.wf bound m) {a : Nat} (ha : a < bound) (v : Byte) :
    Mem.wf bound (Mem.write m a v) := by
  refine ⟨?_, fun c hc => ?_⟩
  · obtain ⟨hp, -⟩ := h
    induction m with
    | nil => simp only [Mem.write, Mem.consCell]; split <;> simp
    | cons d m ih =>
      obtain ⟨d1, d2⟩ := d
      have hpt := List.pairwise_cons.1 hp
      unfold Mem.write
      split
      · next hd =>
        refine List.pairwise_cons.2 ⟨fun c hc => ?_, ih hpt.2⟩
        rcases Mem.mem_write hc with ⟨rfl, -⟩ | hc
        · exact hd
        · exact hpt.1 c hc
      · next hd =>
        have hf : (Mem.erase ((d1, d2) :: m) a).Pairwise (fun x y => x.1 < y.1) := hp.filter _
        unfold Mem.consCell
        split
        · exact hf
        · refine List.pairwise_cons.2 ⟨fun c hc => ?_, hf⟩
          obtain ⟨hc1, hc2⟩ := List.mem_filter.1 hc
          have hne : c.1 ≠ a := by simpa using hc2
          rcases List.mem_cons.1 hc1 with rfl | hc1
          · simp at hne ⊢; omega
          · have := hpt.1 c hc1
            simp at this ⊢; omega
  · rcases Mem.mem_write hc with ⟨rfl, hv⟩ | hc
    · exact ⟨ha, hv⟩
    · exact h.2 c hc

theorem Mem.read_of_forall_lt {m : Mem} {a : Nat} (h : ∀ c ∈ m, a < c.1) : Mem.read m a = 0 := by
  induction m with
  | nil => rfl
  | cons d m ih =>
    rw [Mem.read_cons, if_neg (by have := h d (by simp); omega)]
    exact ih fun c hc => h c (List.mem_cons_of_mem _ hc)

theorem Mem.wf_tail {bound : Nat} {c : Host.Cell} {m : Mem} (h : Mem.wf bound (c :: m)) : Mem.wf bound m :=
  ⟨(List.pairwise_cons.1 h.1).2, fun x hx => h.2 x (List.mem_cons_of_mem _ hx)⟩

/-- An address at or above the bound reads as an unlisted one. -/
theorem Mem.read_of_ge {bound : Nat} {m : Mem} (h : Mem.wf bound m) {a : Nat} (ha : bound ≤ a) : Mem.read m a = 0 := by
  induction m with
  | nil => rfl
  | cons d m ih =>
    have := (h.2 d (by simp)).1
    rw [Mem.read_cons, if_neg (by omega)]
    exact ih (Mem.wf_tail h)

/-- Canonical memories that read the same everywhere are the same list. -/
theorem Mem.ext_of_read {b1 b2 : Nat} {m n : Mem} (hm : Mem.wf b1 m) (hn : Mem.wf b2 n)
    (h : ∀ a, Mem.read m a = Mem.read n a) : m = n := by
  induction m generalizing n with
  | nil =>
    cases n with
    | nil => rfl
    | cons d n =>
      have h1 := h d.1
      rw [Mem.read_cons, if_pos rfl] at h1
      exact absurd h1.symm (hn.2 d (by simp)).2
  | cons c m ih =>
    cases n with
    | nil =>
      have h1 := h c.1
      rw [Mem.read_cons, if_pos rfl] at h1
      exact absurd h1 (hm.2 c (by simp)).2
    | cons d n =>
      have hcm := (List.pairwise_cons.1 hm.1).1
      have hdn := (List.pairwise_cons.1 hn.1).1
      have hc0 := (hm.2 c (by simp)).2
      have hd0 := (hn.2 d (by simp)).2
      have h1 : c.1 = d.1 := by
        rcases Nat.lt_trichotomy c.1 d.1 with hlt | heq | hgt
        · have := h c.1
          rw [Mem.read_cons, if_pos rfl, Mem.read_of_forall_lt (m := d :: n)] at this
          · exact absurd this hc0
          · intro x hx
            rcases List.mem_cons.1 hx with rfl | hx
            · exact hlt
            · have := hdn x hx; omega
        · exact heq
        · have := h d.1
          rw [Mem.read_cons (c := d), if_pos rfl, Mem.read_of_forall_lt (m := c :: m)] at this
          · exact absurd this.symm hd0
          · intro x hx
            rcases List.mem_cons.1 hx with rfl | hx
            · exact hgt
            · have := hcm x hx; omega
      have h2 : c.2 = d.2 := by
        have := h c.1
        rwa [Mem.read_cons, if_pos rfl, Mem.read_cons, if_pos h1] at this
      have hcd : c = d := Prod.ext h1 h2
      subst hcd
      refine congrArg _ (ih (Mem.wf_tail hm) (Mem.wf_tail hn) fun a => ?_)
      by_cases ha : a = c.1
      · rw [ha, Mem.read_of_forall_lt hcm, Mem.read_of_forall_lt hdn]
      · have := h a
        rwa [Mem.read_cons, if_neg ha, Mem.read_cons, if_neg ha] at this

/-- Storing the byte that is there already changes nothing. -/
theorem Mem.write_read_self {bound : Nat} {m : Mem} (h : Mem.wf bound m) {a : Nat} (ha : a < bound) :
    Mem.write m a (Mem.read m a) = m :=
  Mem.ext_of_read (Mem.wf_write h ha _) h fun b => by
    rw [Mem.read_write]
    split
    · next hb => rw [hb]
    · rfl

end Sys2Proof.Machine
end

