-- ==== Sys2Proof/Laws/State.lean ====
section
/-! SUPPORT. Laws/State.lean: one lemma for each field or reading of the state under each update, true by rfl, so that no
proof unfolds an update. -/

namespace Sys2Proof.Machine

/-! ## What the readings depend on -/

@[simp] theorem scratch_set_mm (s : State) (x : Mem) (a : Nat) : State.scratch { s with mm := x } a = s.scratch a := rfl
@[simp] theorem sample_set_mm (s : State) (x : Mem) (a : Nat) : State.sample { s with mm := x } a = s.sample a := rfl
@[simp] theorem scratch_set_eng (s : State) (x : Engine) (a : Nat) : State.scratch { s with eng := x } a = s.scratch a := rfl
@[simp] theorem sample_set_eng (s : State) (x : Engine) (a : Nat) : State.sample { s with eng := x } a = s.sample a := rfl
@[simp] theorem scratch_set_cp (s : State) (x : Nat) (a : Nat) : State.scratch { s with cp := x } a = s.scratch a := rfl
@[simp] theorem sample_set_cp (s : State) (x : Nat) (a : Nat) : State.sample { s with cp := x } a = s.sample a := rfl
@[simp] theorem scratch_set_cend (s : State) (x : Nat) (a : Nat) : State.scratch { s with cend := x } a = s.scratch a := rfl
@[simp] theorem sample_set_cend (s : State) (x : Nat) (a : Nat) : State.sample { s with cend := x } a = s.sample a := rfl
@[simp] theorem scratch_set_status (s : State) (x : Status) (a : Nat) : State.scratch { s with status := x } a = s.scratch a := rfl
@[simp] theorem sample_set_status (s : State) (x : Status) (a : Nat) : State.sample { s with status := x } a = s.sample a := rfl
@[simp] theorem scratch_set_log (s : State) (x : List Warning) (a : Nat) : State.scratch { s with log := x } a = s.scratch a := rfl
@[simp] theorem sample_set_log (s : State) (x : List Warning) (a : Nat) : State.sample { s with log := x } a = s.sample a := rfl
@[simp] theorem scratch_set_params (s : State) (x : Params) (a : Nat) : State.scratch { s with params := x } a = s.scratch a := rfl
@[simp] theorem sample_set_params (s : State) (x : Params) (a : Nat) : State.sample { s with params := x } a = s.sample a := rfl
@[simp] theorem scratch_set_host (s : State) (x : List HostAction) (a : Nat) : State.scratch { s with host := x } a = s.scratch a := rfl
@[simp] theorem sample_set_host (s : State) (x : List HostAction) (a : Nat) : State.sample { s with host := x } a = s.sample a := rfl
@[simp] theorem scratch_set_supply (s : State) (x : List Half) (a : Nat) : State.scratch { s with supply := x } a = s.scratch a := rfl
@[simp] theorem sample_set_supply (s : State) (x : List Half) (a : Nat) : State.sample { s with supply := x } a = s.sample a := rfl
@[simp] theorem scratch_set_draws (s : State) (x : Nat) (a : Nat) : State.scratch { s with draws := x } a = s.scratch a := rfl
@[simp] theorem sample_set_draws (s : State) (x : Nat) (a : Nat) : State.sample { s with draws := x } a = s.sample a := rfl
@[simp] theorem mmHalf_set_sm (s : State) (x : Mem) (a : Nat) : State.mmHalf { s with sm := x } a = s.mmHalf a := rfl
@[simp] theorem mmWord_set_sm (s : State) (x : Mem) (a : Nat) : State.mmWord { s with sm := x } a = s.mmWord a := rfl
@[simp] theorem mmHalf_set_eng (s : State) (x : Engine) (a : Nat) : State.mmHalf { s with eng := x } a = s.mmHalf a := rfl
@[simp] theorem mmWord_set_eng (s : State) (x : Engine) (a : Nat) : State.mmWord { s with eng := x } a = s.mmWord a := rfl
@[simp] theorem mmHalf_set_cp (s : State) (x : Nat) (a : Nat) : State.mmHalf { s with cp := x } a = s.mmHalf a := rfl
@[simp] theorem mmWord_set_cp (s : State) (x : Nat) (a : Nat) : State.mmWord { s with cp := x } a = s.mmWord a := rfl
@[simp] theorem mmHalf_set_cend (s : State) (x : Nat) (a : Nat) : State.mmHalf { s with cend := x } a = s.mmHalf a := rfl
@[simp] theorem mmWord_set_cend (s : State) (x : Nat) (a : Nat) : State.mmWord { s with cend := x } a = s.mmWord a := rfl
@[simp] theorem mmHalf_set_status (s : State) (x : Status) (a : Nat) : State.mmHalf { s with status := x } a = s.mmHalf a := rfl
@[simp] theorem mmWord_set_status (s : State) (x : Status) (a : Nat) : State.mmWord { s with status := x } a = s.mmWord a := rfl
@[simp] theorem mmHalf_set_log (s : State) (x : List Warning) (a : Nat) : State.mmHalf { s with log := x } a = s.mmHalf a := rfl
@[simp] theorem mmWord_set_log (s : State) (x : List Warning) (a : Nat) : State.mmWord { s with log := x } a = s.mmWord a := rfl
@[simp] theorem mmHalf_set_params (s : State) (x : Params) (a : Nat) : State.mmHalf { s with params := x } a = s.mmHalf a := rfl
@[simp] theorem mmWord_set_params (s : State) (x : Params) (a : Nat) : State.mmWord { s with params := x } a = s.mmWord a := rfl
@[simp] theorem mmHalf_set_host (s : State) (x : List HostAction) (a : Nat) : State.mmHalf { s with host := x } a = s.mmHalf a := rfl
@[simp] theorem mmWord_set_host (s : State) (x : List HostAction) (a : Nat) : State.mmWord { s with host := x } a = s.mmWord a := rfl
@[simp] theorem mmHalf_set_supply (s : State) (x : List Half) (a : Nat) : State.mmHalf { s with supply := x } a = s.mmHalf a := rfl
@[simp] theorem mmWord_set_supply (s : State) (x : List Half) (a : Nat) : State.mmWord { s with supply := x } a = s.mmWord a := rfl
@[simp] theorem mmHalf_set_draws (s : State) (x : Nat) (a : Nat) : State.mmHalf { s with draws := x } a = s.mmHalf a := rfl
@[simp] theorem mmWord_set_draws (s : State) (x : Nat) (a : Nat) : State.mmWord { s with draws := x } a = s.mmWord a := rfl
@[simp] theorem resolved_set_sm (s : State) (x : Mem) (w : Word) : State.resolved { s with sm := x } w = s.resolved w := rfl
@[simp] theorem resolved_set_mm (s : State) (x : Mem) (w : Word) : State.resolved { s with mm := x } w = s.resolved w := rfl
@[simp] theorem resolved_set_eng (s : State) (x : Engine) (w : Word) : State.resolved { s with eng := x } w = s.resolved w := rfl
@[simp] theorem resolved_set_cp (s : State) (x : Nat) (w : Word) : State.resolved { s with cp := x } w = s.resolved w := rfl
@[simp] theorem resolved_set_cend (s : State) (x : Nat) (w : Word) : State.resolved { s with cend := x } w = s.resolved w := rfl
@[simp] theorem resolved_set_status (s : State) (x : Status) (w : Word) : State.resolved { s with status := x } w = s.resolved w := rfl
@[simp] theorem resolved_set_log (s : State) (x : List Warning) (w : Word) : State.resolved { s with log := x } w = s.resolved w := rfl
@[simp] theorem resolved_set_host (s : State) (x : List HostAction) (w : Word) : State.resolved { s with host := x } w = s.resolved w := rfl
@[simp] theorem resolved_set_supply (s : State) (x : List Half) (w : Word) : State.resolved { s with supply := x } w = s.resolved w := rfl
@[simp] theorem resolved_set_draws (s : State) (x : Nat) (w : Word) : State.resolved { s with draws := x } w = s.resolved w := rfl

/-! ## The end of a list, and another choice of `ACC_OVERFLOW` -/

@[simp] theorem endOfList_sm (s : State) : (endOfList s).sm = s.sm := rfl
@[simp] theorem endOfList_mm (s : State) : (endOfList s).mm = s.mm := rfl
@[simp] theorem endOfList_eng (s : State) : (endOfList s).eng = s.eng := rfl
@[simp] theorem endOfList_cp (s : State) : (endOfList s).cp = s.cp := rfl
@[simp] theorem endOfList_cend (s : State) : (endOfList s).cend = s.cend := rfl
@[simp] theorem endOfList_log (s : State) : (endOfList s).log = s.log := rfl
@[simp] theorem endOfList_params (s : State) : (endOfList s).params = s.params := rfl
@[simp] theorem endOfList_host (s : State) : (endOfList s).host = s.host := rfl
@[simp] theorem endOfList_supply (s : State) : (endOfList s).supply = s.supply := rfl
@[simp] theorem endOfList_draws (s : State) : (endOfList s).draws = s.draws := rfl
@[simp] theorem endOfList_status (s : State) : (endOfList s).status = .idle := rfl
@[simp] theorem withAcc_sm (s : State) (m : AccOverflow) : (s.withAcc m).sm = s.sm := rfl
@[simp] theorem withAcc_mm (s : State) (m : AccOverflow) : (s.withAcc m).mm = s.mm := rfl
@[simp] theorem withAcc_eng (s : State) (m : AccOverflow) : (s.withAcc m).eng = s.eng := rfl
@[simp] theorem withAcc_cp (s : State) (m : AccOverflow) : (s.withAcc m).cp = s.cp := rfl
@[simp] theorem withAcc_cend (s : State) (m : AccOverflow) : (s.withAcc m).cend = s.cend := rfl
@[simp] theorem withAcc_status (s : State) (m : AccOverflow) : (s.withAcc m).status = s.status := rfl
@[simp] theorem withAcc_log (s : State) (m : AccOverflow) : (s.withAcc m).log = s.log := rfl
@[simp] theorem withAcc_host (s : State) (m : AccOverflow) : (s.withAcc m).host = s.host := rfl
@[simp] theorem withAcc_supply (s : State) (m : AccOverflow) : (s.withAcc m).supply = s.supply := rfl
@[simp] theorem withAcc_draws (s : State) (m : AccOverflow) : (s.withAcc m).draws = s.draws := rfl
@[simp] theorem withAcc_mmSize (s : State) (m : AccOverflow) : (s.withAcc m).params.mmSize = s.params.mmSize := rfl
@[simp] theorem withAcc_resolve (s : State) (m : AccOverflow) : (s.withAcc m).params.resolve = s.params.resolve := rfl
@[simp] theorem withAcc_lut (s : State) (m : AccOverflow) : (s.withAcc m).params.lut = s.params.lut := rfl
@[simp] theorem withAcc_dmemBase (s : State) (m : AccOverflow) : (s.withAcc m).params.dmemBase = s.params.dmemBase := rfl
@[simp] theorem withAcc_accOverflow (s : State) (m : AccOverflow) : (s.withAcc m).params.accOverflow = m := rfl
@[simp] theorem withAcc_scratch (s : State) (m : AccOverflow) (a : Nat) : (s.withAcc m).scratch a = s.scratch a := rfl
@[simp] theorem withAcc_sample (s : State) (m : AccOverflow) (a : Nat) : (s.withAcc m).sample a = s.sample a := rfl
@[simp] theorem withAcc_mmHalf (s : State) (m : AccOverflow) (a : Nat) : (s.withAcc m).mmHalf a = s.mmHalf a := rfl
@[simp] theorem withAcc_mmWord (s : State) (m : AccOverflow) (a : Nat) : (s.withAcc m).mmWord a = s.mmWord a := rfl
@[simp] theorem withAcc_resolved (s : State) (m : AccOverflow) (w : Word) : (s.withAcc m).resolved w = s.resolved w := rfl

/-! ## A command placed for the next fetch -/

@[simp] theorem placeCommand_sm (s : State) (bs : List Byte) : (placeCommand s bs).sm = s.sm := rfl
@[simp] theorem placeCommand_eng (s : State) (bs : List Byte) : (placeCommand s bs).eng = s.eng := rfl
@[simp] theorem placeCommand_log (s : State) (bs : List Byte) : (placeCommand s bs).log = s.log := rfl
@[simp] theorem placeCommand_params (s : State) (bs : List Byte) : (placeCommand s bs).params = s.params := rfl
@[simp] theorem placeCommand_host (s : State) (bs : List Byte) : (placeCommand s bs).host = s.host := rfl
@[simp] theorem placeCommand_supply (s : State) (bs : List Byte) : (placeCommand s bs).supply = s.supply := rfl
@[simp] theorem placeCommand_draws (s : State) (bs : List Byte) : (placeCommand s bs).draws = s.draws := rfl
@[simp] theorem placeCommand_cp (s : State) (bs : List Byte) : (placeCommand s bs).cp = fetchPlace s := rfl
@[simp] theorem placeCommand_cend (s : State) (bs : List Byte) : (placeCommand s bs).cend = fetchPlace s + 8 := rfl
@[simp] theorem placeCommand_status (s : State) (bs : List Byte) : (placeCommand s bs).status = .running := rfl

/-! ## Engine registers -/

@[simp] theorem Reg.of_value {w : Nat} (v : BitVec w) : (Reg.of v).value = v := rfl
@[simp] theorem Reg.of_written {w : Nat} (v : BitVec w) : (Reg.of v).written = true := rfl
@[simp] theorem setVol_inp (e : Engine) (c : Side) (v : Half) : (e.setVol c v).inp = e.inp := by cases c <;> rfl
@[simp] theorem setVol_out (e : Engine) (c : Side) (v : Half) : (e.setVol c v).out = e.out := by cases c <;> rfl
@[simp] theorem setVol_count (e : Engine) (c : Side) (v : Half) : (e.setVol c v).count = e.count := by cases c <;> rfl
@[simp] theorem setVol_dryRight (e : Engine) (c : Side) (v : Half) : (e.setVol c v).dryRight = e.dryRight := by cases c <;> rfl
@[simp] theorem setVol_wetLeft (e : Engine) (c : Side) (v : Half) : (e.setVol c v).wetLeft = e.wetLeft := by cases c <;> rfl
@[simp] theorem setVol_wetRight (e : Engine) (c : Side) (v : Half) : (e.setVol c v).wetRight = e.wetRight := by cases c <;> rfl
@[simp] theorem setVol_dry (e : Engine) (c : Side) (v : Half) : (e.setVol c v).dry = e.dry := by cases c <;> rfl
@[simp] theorem setVol_wet (e : Engine) (c : Side) (v : Half) : (e.setVol c v).wet = e.wet := by cases c <;> rfl
@[simp] theorem setVol_left_volLeft (e : Engine) (v : Half) : (e.setVol .left v).volLeft = .of v := rfl
@[simp] theorem setVol_right_volLeft (e : Engine) (v : Half) : (e.setVol .right v).volLeft = e.volLeft := rfl
@[simp] theorem setVol_left_volRight (e : Engine) (v : Half) : (e.setVol .left v).volRight = e.volRight := rfl
@[simp] theorem setVol_right_volRight (e : Engine) (v : Half) : (e.setVol .right v).volRight = .of v := rfl
@[simp] theorem setVol_targetLeft (e : Engine) (c : Side) (v : Half) : (e.setVol c v).targetLeft = e.targetLeft := by cases c <;> rfl
@[simp] theorem setVol_targetRight (e : Engine) (c : Side) (v : Half) : (e.setVol c v).targetRight = e.targetRight := by cases c <;> rfl
@[simp] theorem setVol_rateLeft (e : Engine) (c : Side) (v : Half) : (e.setVol c v).rateLeft = e.rateLeft := by cases c <;> rfl
@[simp] theorem setVol_rateRight (e : Engine) (c : Side) (v : Half) : (e.setVol c v).rateRight = e.rateRight := by cases c <;> rfl
@[simp] theorem setVol_loop (e : Engine) (c : Side) (v : Half) : (e.setVol c v).loop = e.loop := by cases c <;> rfl
@[simp] theorem setVol_codebook (e : Engine) (c : Side) (v : Half) : (e.setVol c v).codebook = e.codebook := by cases c <;> rfl
@[simp] theorem setVol_envValue0 (e : Engine) (c : Side) (v : Half) : (e.setVol c v).envValue0 = e.envValue0 := by cases c <;> rfl
@[simp] theorem setVol_envValue1 (e : Engine) (c : Side) (v : Half) : (e.setVol c v).envValue1 = e.envValue1 := by cases c <;> rfl
@[simp] theorem setVol_envValue2 (e : Engine) (c : Side) (v : Half) : (e.setVol c v).envValue2 = e.envValue2 := by cases c <;> rfl
@[simp] theorem setVol_envStep0 (e : Engine) (c : Side) (v : Half) : (e.setVol c v).envStep0 = e.envStep0 := by cases c <;> rfl
@[simp] theorem setVol_envStep1 (e : Engine) (c : Side) (v : Half) : (e.setVol c v).envStep1 = e.envStep1 := by cases c <;> rfl
@[simp] theorem setVol_envStep2 (e : Engine) (c : Side) (v : Half) : (e.setVol c v).envStep2 = e.envStep2 := by cases c <;> rfl
@[simp] theorem setTarget_inp (e : Engine) (c : Side) (v : Half) : (e.setTarget c v).inp = e.inp := by cases c <;> rfl
@[simp] theorem setTarget_out (e : Engine) (c : Side) (v : Half) : (e.setTarget c v).out = e.out := by cases c <;> rfl
@[simp] theorem setTarget_count (e : Engine) (c : Side) (v : Half) : (e.setTarget c v).count = e.count := by cases c <;> rfl
@[simp] theorem setTarget_dryRight (e : Engine) (c : Side) (v : Half) : (e.setTarget c v).dryRight = e.dryRight := by cases c <;> rfl
@[simp] theorem setTarget_wetLeft (e : Engine) (c : Side) (v : Half) : (e.setTarget c v).wetLeft = e.wetLeft := by cases c <;> rfl
@[simp] theorem setTarget_wetRight (e : Engine) (c : Side) (v : Half) : (e.setTarget c v).wetRight = e.wetRight := by cases c <;> rfl
@[simp] theorem setTarget_dry (e : Engine) (c : Side) (v : Half) : (e.setTarget c v).dry = e.dry := by cases c <;> rfl
@[simp] theorem setTarget_wet (e : Engine) (c : Side) (v : Half) : (e.setTarget c v).wet = e.wet := by cases c <;> rfl
@[simp] theorem setTarget_volLeft (e : Engine) (c : Side) (v : Half) : (e.setTarget c v).volLeft = e.volLeft := by cases c <;> rfl
@[simp] theorem setTarget_volRight (e : Engine) (c : Side) (v : Half) : (e.setTarget c v).volRight = e.volRight := by cases c <;> rfl
@[simp] theorem setTarget_left_targetLeft (e : Engine) (v : Half) : (e.setTarget .left v).targetLeft = .of v := rfl
@[simp] theorem setTarget_right_targetLeft (e : Engine) (v : Half) : (e.setTarget .right v).targetLeft = e.targetLeft := rfl
@[simp] theorem setTarget_left_targetRight (e : Engine) (v : Half) : (e.setTarget .left v).targetRight = e.targetRight := rfl
@[simp] theorem setTarget_right_targetRight (e : Engine) (v : Half) : (e.setTarget .right v).targetRight = .of v := rfl
@[simp] theorem setTarget_rateLeft (e : Engine) (c : Side) (v : Half) : (e.setTarget c v).rateLeft = e.rateLeft := by cases c <;> rfl
@[simp] theorem setTarget_rateRight (e : Engine) (c : Side) (v : Half) : (e.setTarget c v).rateRight = e.rateRight := by cases c <;> rfl
@[simp] theorem setTarget_loop (e : Engine) (c : Side) (v : Half) : (e.setTarget c v).loop = e.loop := by cases c <;> rfl
@[simp] theorem setTarget_codebook (e : Engine) (c : Side) (v : Half) : (e.setTarget c v).codebook = e.codebook := by cases c <;> rfl
@[simp] theorem setTarget_envValue0 (e : Engine) (c : Side) (v : Half) : (e.setTarget c v).envValue0 = e.envValue0 := by cases c <;> rfl
@[simp] theorem setTarget_envValue1 (e : Engine) (c : Side) (v : Half) : (e.setTarget c v).envValue1 = e.envValue1 := by cases c <;> rfl
@[simp] theorem setTarget_envValue2 (e : Engine) (c : Side) (v : Half) : (e.setTarget c v).envValue2 = e.envValue2 := by cases c <;> rfl
@[simp] theorem setTarget_envStep0 (e : Engine) (c : Side) (v : Half) : (e.setTarget c v).envStep0 = e.envStep0 := by cases c <;> rfl
@[simp] theorem setTarget_envStep1 (e : Engine) (c : Side) (v : Half) : (e.setTarget c v).envStep1 = e.envStep1 := by cases c <;> rfl
@[simp] theorem setTarget_envStep2 (e : Engine) (c : Side) (v : Half) : (e.setTarget c v).envStep2 = e.envStep2 := by cases c <;> rfl
@[simp] theorem setRate_inp (e : Engine) (c : Side) (v : Word) : (e.setRate c v).inp = e.inp := by cases c <;> rfl
@[simp] theorem setRate_out (e : Engine) (c : Side) (v : Word) : (e.setRate c v).out = e.out := by cases c <;> rfl
@[simp] theorem setRate_count (e : Engine) (c : Side) (v : Word) : (e.setRate c v).count = e.count := by cases c <;> rfl
@[simp] theorem setRate_dryRight (e : Engine) (c : Side) (v : Word) : (e.setRate c v).dryRight = e.dryRight := by cases c <;> rfl
@[simp] theorem setRate_wetLeft (e : Engine) (c : Side) (v : Word) : (e.setRate c v).wetLeft = e.wetLeft := by cases c <;> rfl
@[simp] theorem setRate_wetRight (e : Engine) (c : Side) (v : Word) : (e.setRate c v).wetRight = e.wetRight := by cases c <;> rfl
@[simp] theorem setRate_dry (e : Engine) (c : Side) (v : Word) : (e.setRate c v).dry = e.dry := by cases c <;> rfl
@[simp] theorem setRate_wet (e : Engine) (c : Side) (v : Word) : (e.setRate c v).wet = e.wet := by cases c <;> rfl
@[simp] theorem setRate_volLeft (e : Engine) (c : Side) (v : Word) : (e.setRate c v).volLeft = e.volLeft := by cases c <;> rfl
@[simp] theorem setRate_volRight (e : Engine) (c : Side) (v : Word) : (e.setRate c v).volRight = e.volRight := by cases c <;> rfl
@[simp] theorem setRate_targetLeft (e : Engine) (c : Side) (v : Word) : (e.setRate c v).targetLeft = e.targetLeft := by cases c <;> rfl
@[simp] theorem setRate_targetRight (e : Engine) (c : Side) (v : Word) : (e.setRate c v).targetRight = e.targetRight := by cases c <;> rfl
@[simp] theorem setRate_left_rateLeft (e : Engine) (v : Word) : (e.setRate .left v).rateLeft = .of v := rfl
@[simp] theorem setRate_right_rateLeft (e : Engine) (v : Word) : (e.setRate .right v).rateLeft = e.rateLeft := rfl
@[simp] theorem setRate_left_rateRight (e : Engine) (v : Word) : (e.setRate .left v).rateRight = e.rateRight := rfl
@[simp] theorem setRate_right_rateRight (e : Engine) (v : Word) : (e.setRate .right v).rateRight = .of v := rfl
@[simp] theorem setRate_loop (e : Engine) (c : Side) (v : Word) : (e.setRate c v).loop = e.loop := by cases c <;> rfl
@[simp] theorem setRate_codebook (e : Engine) (c : Side) (v : Word) : (e.setRate c v).codebook = e.codebook := by cases c <;> rfl
@[simp] theorem setRate_envValue0 (e : Engine) (c : Side) (v : Word) : (e.setRate c v).envValue0 = e.envValue0 := by cases c <;> rfl
@[simp] theorem setRate_envValue1 (e : Engine) (c : Side) (v : Word) : (e.setRate c v).envValue1 = e.envValue1 := by cases c <;> rfl
@[simp] theorem setRate_envValue2 (e : Engine) (c : Side) (v : Word) : (e.setRate c v).envValue2 = e.envValue2 := by cases c <;> rfl
@[simp] theorem setRate_envStep0 (e : Engine) (c : Side) (v : Word) : (e.setRate c v).envStep0 = e.envStep0 := by cases c <;> rfl
@[simp] theorem setRate_envStep1 (e : Engine) (c : Side) (v : Word) : (e.setRate c v).envStep1 = e.envStep1 := by cases c <;> rfl
@[simp] theorem setRate_envStep2 (e : Engine) (c : Side) (v : Word) : (e.setRate c v).envStep2 = e.envStep2 := by cases c <;> rfl
@[simp] theorem setEnvValue_inp (e : Engine) (c : EnvCh) (v : Half) : (e.setEnvValue c v).inp = e.inp := by cases c <;> rfl
@[simp] theorem setEnvValue_out (e : Engine) (c : EnvCh) (v : Half) : (e.setEnvValue c v).out = e.out := by cases c <;> rfl
@[simp] theorem setEnvValue_count (e : Engine) (c : EnvCh) (v : Half) : (e.setEnvValue c v).count = e.count := by cases c <;> rfl
@[simp] theorem setEnvValue_dryRight (e : Engine) (c : EnvCh) (v : Half) : (e.setEnvValue c v).dryRight = e.dryRight := by cases c <;> rfl
@[simp] theorem setEnvValue_wetLeft (e : Engine) (c : EnvCh) (v : Half) : (e.setEnvValue c v).wetLeft = e.wetLeft := by cases c <;> rfl
@[simp] theorem setEnvValue_wetRight (e : Engine) (c : EnvCh) (v : Half) : (e.setEnvValue c v).wetRight = e.wetRight := by cases c <;> rfl
@[simp] theorem setEnvValue_dry (e : Engine) (c : EnvCh) (v : Half) : (e.setEnvValue c v).dry = e.dry := by cases c <;> rfl
@[simp] theorem setEnvValue_wet (e : Engine) (c : EnvCh) (v : Half) : (e.setEnvValue c v).wet = e.wet := by cases c <;> rfl
@[simp] theorem setEnvValue_volLeft (e : Engine) (c : EnvCh) (v : Half) : (e.setEnvValue c v).volLeft = e.volLeft := by cases c <;> rfl
@[simp] theorem setEnvValue_volRight (e : Engine) (c : EnvCh) (v : Half) : (e.setEnvValue c v).volRight = e.volRight := by cases c <;> rfl
@[simp] theorem setEnvValue_targetLeft (e : Engine) (c : EnvCh) (v : Half) : (e.setEnvValue c v).targetLeft = e.targetLeft := by cases c <;> rfl
@[simp] theorem setEnvValue_targetRight (e : Engine) (c : EnvCh) (v : Half) : (e.setEnvValue c v).targetRight = e.targetRight := by cases c <;> rfl
@[simp] theorem setEnvValue_rateLeft (e : Engine) (c : EnvCh) (v : Half) : (e.setEnvValue c v).rateLeft = e.rateLeft := by cases c <;> rfl
@[simp] theorem setEnvValue_rateRight (e : Engine) (c : EnvCh) (v : Half) : (e.setEnvValue c v).rateRight = e.rateRight := by cases c <;> rfl
@[simp] theorem setEnvValue_loop (e : Engine) (c : EnvCh) (v : Half) : (e.setEnvValue c v).loop = e.loop := by cases c <;> rfl
@[simp] theorem setEnvValue_codebook (e : Engine) (c : EnvCh) (v : Half) : (e.setEnvValue c v).codebook = e.codebook := by cases c <;> rfl
@[simp] theorem setEnvValue_c0_envValue0 (e : Engine) (v : Half) : (e.setEnvValue .c0 v).envValue0 = .of v := rfl
@[simp] theorem setEnvValue_c1_envValue0 (e : Engine) (v : Half) : (e.setEnvValue .c1 v).envValue0 = e.envValue0 := rfl
@[simp] theorem setEnvValue_c2_envValue0 (e : Engine) (v : Half) : (e.setEnvValue .c2 v).envValue0 = e.envValue0 := rfl
@[simp] theorem setEnvValue_c0_envValue1 (e : Engine) (v : Half) : (e.setEnvValue .c0 v).envValue1 = e.envValue1 := rfl
@[simp] theorem setEnvValue_c1_envValue1 (e : Engine) (v : Half) : (e.setEnvValue .c1 v).envValue1 = .of v := rfl
@[simp] theorem setEnvValue_c2_envValue1 (e : Engine) (v : Half) : (e.setEnvValue .c2 v).envValue1 = e.envValue1 := rfl
@[simp] theorem setEnvValue_c0_envValue2 (e : Engine) (v : Half) : (e.setEnvValue .c0 v).envValue2 = e.envValue2 := rfl
@[simp] theorem setEnvValue_c1_envValue2 (e : Engine) (v : Half) : (e.setEnvValue .c1 v).envValue2 = e.envValue2 := rfl
@[simp] theorem setEnvValue_c2_envValue2 (e : Engine) (v : Half) : (e.setEnvValue .c2 v).envValue2 = .of v := rfl
@[simp] theorem setEnvValue_envStep0 (e : Engine) (c : EnvCh) (v : Half) : (e.setEnvValue c v).envStep0 = e.envStep0 := by cases c <;> rfl
@[simp] theorem setEnvValue_envStep1 (e : Engine) (c : EnvCh) (v : Half) : (e.setEnvValue c v).envStep1 = e.envStep1 := by cases c <;> rfl
@[simp] theorem setEnvValue_envStep2 (e : Engine) (c : EnvCh) (v : Half) : (e.setEnvValue c v).envStep2 = e.envStep2 := by cases c <;> rfl
@[simp] theorem setCodebook_inp (e : Engine) (i : Nat) (v : Half) : (e.setCodebook i v).inp = e.inp := rfl
@[simp] theorem setCodebook_out (e : Engine) (i : Nat) (v : Half) : (e.setCodebook i v).out = e.out := rfl
@[simp] theorem setCodebook_count (e : Engine) (i : Nat) (v : Half) : (e.setCodebook i v).count = e.count := rfl
@[simp] theorem setCodebook_dryRight (e : Engine) (i : Nat) (v : Half) : (e.setCodebook i v).dryRight = e.dryRight := rfl
@[simp] theorem setCodebook_wetLeft (e : Engine) (i : Nat) (v : Half) : (e.setCodebook i v).wetLeft = e.wetLeft := rfl
@[simp] theorem setCodebook_wetRight (e : Engine) (i : Nat) (v : Half) : (e.setCodebook i v).wetRight = e.wetRight := rfl
@[simp] theorem setCodebook_dry (e : Engine) (i : Nat) (v : Half) : (e.setCodebook i v).dry = e.dry := rfl
@[simp] theorem setCodebook_wet (e : Engine) (i : Nat) (v : Half) : (e.setCodebook i v).wet = e.wet := rfl
@[simp] theorem setCodebook_volLeft (e : Engine) (i : Nat) (v : Half) : (e.setCodebook i v).volLeft = e.volLeft := rfl
@[simp] theorem setCodebook_volRight (e : Engine) (i : Nat) (v : Half) : (e.setCodebook i v).volRight = e.volRight := rfl
@[simp] theorem setCodebook_targetLeft (e : Engine) (i : Nat) (v : Half) : (e.setCodebook i v).targetLeft = e.targetLeft := rfl
@[simp] theorem setCodebook_targetRight (e : Engine) (i : Nat) (v : Half) : (e.setCodebook i v).targetRight = e.targetRight := rfl
@[simp] theorem setCodebook_rateLeft (e : Engine) (i : Nat) (v : Half) : (e.setCodebook i v).rateLeft = e.rateLeft := rfl
@[simp] theorem setCodebook_rateRight (e : Engine) (i : Nat) (v : Half) : (e.setCodebook i v).rateRight = e.rateRight := rfl
@[simp] theorem setCodebook_loop (e : Engine) (i : Nat) (v : Half) : (e.setCodebook i v).loop = e.loop := rfl
@[simp] theorem setCodebook_envValue0 (e : Engine) (i : Nat) (v : Half) : (e.setCodebook i v).envValue0 = e.envValue0 := rfl
@[simp] theorem setCodebook_envValue1 (e : Engine) (i : Nat) (v : Half) : (e.setCodebook i v).envValue1 = e.envValue1 := rfl
@[simp] theorem setCodebook_envValue2 (e : Engine) (i : Nat) (v : Half) : (e.setCodebook i v).envValue2 = e.envValue2 := rfl
@[simp] theorem setCodebook_envStep0 (e : Engine) (i : Nat) (v : Half) : (e.setCodebook i v).envStep0 = e.envStep0 := rfl
@[simp] theorem setCodebook_envStep1 (e : Engine) (i : Nat) (v : Half) : (e.setCodebook i v).envStep1 = e.envStep1 := rfl
@[simp] theorem setCodebook_envStep2 (e : Engine) (i : Nat) (v : Half) : (e.setCodebook i v).envStep2 = e.envStep2 := rfl

/-- Entry i of the codebook after a write to entry j. -/
theorem setCodebook_get (e : Engine) (j : Nat) (v : Half) (i : Fin 128) :
    (e.setCodebook j v).codebook.get i = if i.val = j then .of v else e.codebook.get i := by
  simp only [Engine.setCodebook, Vector.get_eq_getElem, Vector.getElem_setIfInBounds]
  split <;> split <;> first | rfl | omega

theorem clearWritten_unwritten (e : Engine) : e.clearWritten.Unwritten := by
  constructor <;> first | rfl | (intro c; first | (cases c <;> rfl) | simp [Engine.clearWritten, Vector.get_eq_getElem])

theorem blank_unwritten : Engine.blank.Unwritten := by
  constructor <;> first | rfl | (intro c; first | (cases c <;> rfl) | simp [Engine.blank, Reg.blank, Vector.get_eq_getElem])

end Sys2Proof.Machine
end

