-- ==== Sys2Proof/Laws/Ops.lean ====
section
/-! SUPPORT. Laws/Ops.lean: what each shared operation can do: its answer where it ends, where it stops, and what the
readings of the state give after it. -/

namespace Sys2Proof.Machine

variable {α β : Type}

/-! ## Arithmetic (00_scope.md R8) -/

theorem clamp16_bounds (v : Int) : -32768 ≤ clamp16 v ∧ clamp16 v ≤ 32767 := by unfold clamp16; omega

theorem clamp16_of_bounds {v : Int} (h1 : -32768 ≤ v) (h2 : v ≤ 32767) : clamp16 v = v := by unfold clamp16; omega

/-- A value in the signed 16-bit range is what its low 16 bits read as. -/
theorem toS16_of_bounds {v : Int} (h1 : -32768 ≤ v) (h2 : v ≤ 32767) : toS16 v = v := by
  unfold toS16 lo16
  rw [BitVec.toInt_ofInt]
  exact Int.bmod_eq_of_le (by omega) (by omega)

@[simp] theorem toS16_clamp16 (v : Int) : toS16 (clamp16 v) = clamp16 v :=
  toS16_of_bounds (clamp16_bounds v).1 (clamp16_bounds v).2

@[simp] theorem lo16_toInt (v : Half) : lo16 v.toInt = v := by unfold lo16; exact BitVec.ofInt_toInt

theorem toS16_bounds (v : Int) : -32768 ≤ toS16 v ∧ toS16 v ≤ 32767 := by
  have h1 := BitVec.le_toInt (lo16 v)
  have h2 := BitVec.toInt_lt (x := lo16 v)
  unfold toS16
  omega

theorem half_toInt_bounds (v : Half) : -32768 ≤ v.toInt ∧ v.toInt ≤ 32767 := by
  have h1 := BitVec.le_toInt v
  have h2 := BitVec.toInt_lt (x := v)
  omega

theorem word_toInt_bounds (v : Word) : -2147483648 ≤ v.toInt ∧ v.toInt ≤ 2147483647 := by
  have h1 := BitVec.le_toInt v
  have h2 := BitVec.toInt_lt (x := v)
  omega

theorem wrapS32_bounds (v : Int) : -2147483648 ≤ wrapS32 v ∧ wrapS32 v ≤ 2147483647 := word_toInt_bounds _

theorem alignUp_eq (v a k : Nat) (ha : 0 < a) (h1 : v ≤ k * a) (h2 : k * a < v + a) : alignUp v a = k * a := by
  unfold alignUp
  congr 1
  apply Nat.div_eq_of_lt_le
  · omega
  · rw [Nat.add_mul]; omega

theorem acc32Result_of_fits {m : AccOverflow} {v : Int} (h1 : -2147483648 ≤ v) (h2 : v ≤ 2147483647) :
    acc32Result m v = some v := by
  unfold acc32Result fitsS32
  simp [h1, h2]

theorem acc32Result_wrap32 (v : Int) : acc32Result .wrap32 v = some (if fitsS32 v then v else wrapS32 v) := by
  unfold acc32Result
  split <;> simp_all

/-! ## Operations that change nothing -/

@[simp] theorem look_apply (f : State → α) (s : State) : look f s = .ok (f s) s := rfl

@[simp] theorem change_apply (f : State → State) (s : State) : change f s = .ok () (f s) := rfl

theorem Silent.look (f : State → α) : Silent (look f) := fun _ => rfl

theorem getParams_apply (s : State) : getParams s = .ok s.params s := rfl

theorem acc32_apply (v : Int) (s : State) :
    acc32 v s = match acc32Result s.params.accOverflow v with
      | some r => .ok r s
      | none => .error (.fault .accOverflow) s := by
  unfold acc32
  rw [bind_of_ok (getParams_apply s)]
  cases acc32Result s.params.accOverflow v <;> rfl

theorem acc32_ok_iff {v r : Int} {s t : State} :
    acc32 v s = .ok r t ↔ acc32Result s.params.accOverflow v = some r ∧ t = s := by
  rw [acc32_apply]
  cases h : acc32Result s.params.accOverflow v <;> simp [eq_comm]

theorem acc32_of_fits {v : Int} (h1 : -2147483648 ≤ v) (h2 : v ≤ 2147483647) (s : State) : acc32 v s = .ok v s := by
  rw [acc32_apply, acc32Result_of_fits h1 h2]

/-- With `wrap32`, `acc32` always ends. -/
theorem acc32_wrap32 {s : State} (h : s.params.accOverflow = .wrap32) (v : Int) :
    acc32 v s = .ok (if fitsS32 v then v else wrapS32 v) s := by
  rw [acc32_apply, h, acc32Result_wrap32]

/-- What `acc32` answers lies in the signed 32-bit range. -/
theorem acc32_bounds {v r : Int} {s t : State} (h : acc32 v s = .ok r t) : -2147483648 ≤ r ∧ r ≤ 2147483647 := by
  have h := (acc32_ok_iff.1 h).1
  unfold acc32Result at h
  split at h
  · next hf =>
    simp only [fitsS32, decide_eq_true_eq] at hf
    cases h; exact hf
  · cases hm : s.params.accOverflow <;> simp only [hm] at h
    · exact absurd h (by simp)
    · cases h; exact wrapS32_bounds v

theorem refuseIf_ok_iff {b : Bool} {r : RefuseReason} {s t : State} :
    refuseIf b r s = .ok () t ↔ b = false ∧ t = s := by
  cases b <;> simp [refuseIf, refuse, stop, eq_comm]

theorem refuseIf_false (r : RefuseReason) (s : State) : refuseIf false r s = .ok () s := rfl

theorem refuseIf_true (r : RefuseReason) (s : State) : refuseIf true r s = .error (.refuse r) s := rfl

theorem checkRange_apply (a n : Nat) (s : State) :
    checkRange a n s = if a + n ≤ s.params.mmSize then .ok () s else .error (.refuse .mmRange) s := by
  unfold checkRange
  rw [bind_of_ok (getParams_apply s)]
  by_cases h : a + n ≤ s.params.mmSize
  · rw [if_pos h, decide_eq_false (by omega)]; rfl
  · rw [if_neg h, decide_eq_true (by omega)]; rfl

theorem checkRange_ok_iff {a n : Nat} {s t : State} :
    checkRange a n s = .ok () t ↔ a + n ≤ s.params.mmSize ∧ t = s := by
  rw [checkRange_apply]
  split <;> simp_all [eq_comm]

/-- No byte of n bytes from a lies in the unread part of the list. -/
def Unlisted (s : State) (a n : Nat) : Prop := ¬ (s.cp < s.cend ∧ a < s.cend ∧ s.cp < a + n)

theorem checkUnread_ok_iff {a n : Nat} {s t : State} :
    checkUnread a n s = .ok () t ↔ Unlisted s a n ∧ t = s := by
  unfold checkUnread Unlisted
  rw [bind_of_ok (look_apply _ _), bind_of_ok (look_apply _ _), refuseIf_ok_iff, decide_eq_false_iff_not]

theorem checkStore_ok_iff {a n : Nat} {s t : State} :
    checkStore a n s = .ok () t ↔ a + n ≤ s.params.mmSize ∧ Unlisted s a n ∧ t = s := by
  unfold checkStore
  rw [bind_ok_iff]
  constructor
  · rintro ⟨_, u, h1, h2⟩
    obtain ⟨h1, rfl⟩ := checkRange_ok_iff.1 h1
    exact ⟨h1, checkUnread_ok_iff.1 h2⟩
  · rintro ⟨h1, h2, rfl⟩
    exact ⟨(), t, checkRange_ok_iff.2 ⟨h1, rfl⟩, checkUnread_ok_iff.2 ⟨h2, rfl⟩⟩

theorem storable_checkStore {s : State} {a n : Nat} (hn : 0 < n) (h : storable s a n) : checkStore a n s = .ok () s := by
  refine checkStore_ok_iff.2 ⟨h.2.1, fun hu => ?_, rfl⟩
  obtain ⟨h1, h2, h3⟩ := hu
  exact h.2.2 (max a s.cp) ⟨by omega, by omega⟩ ⟨by omega, by omega⟩

theorem checkAlign_ok_iff {a : Nat} {s t : State} : checkAlign a s = .ok () t ↔ a % 8 = 0 ∧ t = s := by
  unfold checkAlign
  rw [refuseIf_ok_iff]
  simp

theorem checkAlign_misaligned {a : Nat} (h : a % 8 ≠ 0) (s : State) : checkAlign a s = .error (.refuse .mmAlign) s := by
  unfold checkAlign
  rw [show (a % Config.mmAlign != 0) = true by simpa using h]; rfl

theorem checkEven_ok_iff {a : Nat} {s t : State} : checkEven a s = .ok () t ↔ a % 2 = 0 ∧ t = s := by
  unfold checkEven
  rw [refuseIf_ok_iff]
  simp

theorem checkEven_odd {a : Nat} (h : a % 2 ≠ 0) (s : State) : checkEven a s = .error (.refuse .oddSampleAddr) s := by
  unfold checkEven
  rw [show (a % 2 != 0) = true by simpa using h]; rfl

theorem resolve_apply (w : Word) (s : State) : resolve w s = .ok (resolveWord s.params.resolve w) s := rfl

theorem blockBase_ok_iff {w : Word} {a : Nat} {s t : State} :
    blockBase w s = .ok a t ↔ a = s.resolved w ∧ a % 8 = 0 ∧ t = s := by
  unfold blockBase
  rw [bind_of_ok (resolve_apply w s), bind_ok_iff]
  constructor
  · rintro ⟨_, u, h1, h2⟩
    obtain ⟨h1, rfl⟩ := checkAlign_ok_iff.1 h1
    obtain ⟨rfl, rfl⟩ := pure_ok_iff.1 h2
    exact ⟨rfl, h1, rfl⟩
  · rintro ⟨rfl, h2, rfl⟩
    exact ⟨(), t, checkAlign_ok_iff.2 ⟨h2, rfl⟩, rfl⟩

theorem blockBase_misaligned {w : Word} {s : State} (h : s.resolved w % 8 ≠ 0) :
    blockBase w s = .error (.refuse .mmAlign) s := by
  unfold blockBase
  rw [bind_of_ok (resolve_apply w s)]
  exact bind_of_error (checkAlign_misaligned h s)

theorem readReg_ok_iff {w : Nat} {name : RegName} {get : Engine → Reg w} {v : BitVec w} {s t : State} :
    readReg name get s = .ok v t ↔ (get s.eng).written = true ∧ v = (get s.eng).value ∧ t = s := by
  unfold readReg
  rw [bind_of_ok (look_apply _ _)]
  cases h : (get s.eng).written <;> simp [raise, stop, eq_comm]

theorem readReg_written {w : Nat} {name : RegName} {get : Engine → Reg w} {s : State}
    (h : (get s.eng).written = true) : readReg name get s = .ok (get s.eng).value s :=
  readReg_ok_iff.2 ⟨h, rfl, rfl⟩

theorem readReg_unwritten {w : Nat} {name : RegName} {get : Engine → Reg w} {s : State}
    (h : (get s.eng).written = false) : readReg name get s = .error (.fault (.unwritten name)) s := by
  unfold readReg
  rw [bind_of_ok (look_apply _ _), h]; rfl

theorem d8_apply (a : Nat) (s : State) : d8 a s = .ok (s.scratch a) s := rfl

theorem d16_ok_iff {a : Nat} {v : Int} {s t : State} : d16 a s = .ok v t ↔ a % 2 = 0 ∧ v = s.sample a ∧ t = s := by
  unfold d16
  rw [bind_ok_iff]
  constructor
  · rintro ⟨_, u, h1, h2⟩
    obtain ⟨h3, rfl⟩ := checkEven_ok_iff.1 h1
    cases h2
    exact ⟨h3, rfl, rfl⟩
  · rintro ⟨h1, rfl, rfl⟩
    exact ⟨(), t, checkEven_ok_iff.2 ⟨h1, rfl⟩, rfl⟩

theorem d16_even {a : Nat} (h : a % 2 = 0) (s : State) : d16 a s = .ok (s.sample a) s := d16_ok_iff.2 ⟨h, rfl, rfl⟩

theorem d16_odd {a : Nat} (h : a % 2 ≠ 0) (s : State) : d16 a s = .error (.refuse .oddSampleAddr) s := by
  unfold d16
  exact bind_of_error (checkEven_odd h s)

theorem memRead16_ok_iff {a : Nat} {v : Half} {s t : State} :
    memRead16 a s = .ok v t ↔ a + 2 ≤ s.params.mmSize ∧ v = s.mmHalf a ∧ t = s := by
  unfold memRead16
  rw [bind_ok_iff]
  constructor
  · rintro ⟨_, u, h1, h2⟩
    obtain ⟨h3, rfl⟩ := checkRange_ok_iff.1 h1
    cases h2
    exact ⟨h3, rfl, rfl⟩
  · rintro ⟨h1, rfl, rfl⟩
    exact ⟨(), t, checkRange_ok_iff.2 ⟨h1, rfl⟩, rfl⟩

theorem memRead32_ok_iff {a : Nat} {v : Word} {s t : State} :
    memRead32 a s = .ok v t ↔ a + 4 ≤ s.params.mmSize ∧ v = s.mmWord a ∧ t = s := by
  unfold memRead32
  rw [bind_ok_iff]
  constructor
  · rintro ⟨_, u, h1, h2⟩
    obtain ⟨h3, rfl⟩ := checkRange_ok_iff.1 h1
    cases h2
    exact ⟨h3, rfl, rfl⟩
  · rintro ⟨h1, rfl, rfl⟩
    exact ⟨(), t, checkRange_ok_iff.2 ⟨h1, rfl⟩, rfl⟩

theorem memRead16_of_le {a : Nat} {s : State} (h : a + 2 ≤ s.params.mmSize) : memRead16 a s = .ok (s.mmHalf a) s :=
  memRead16_ok_iff.2 ⟨h, rfl, rfl⟩

theorem memRead32_of_le {a : Nat} {s : State} (h : a + 4 ≤ s.params.mmSize) : memRead32 a s = .ok (s.mmWord a) s :=
  memRead32_ok_iff.2 ⟨h, rfl, rfl⟩

theorem memRead16_range {a : Nat} {s : State} (h : s.params.mmSize < a + 2) :
    memRead16 a s = .error (.refuse .mmRange) s := by
  unfold memRead16
  refine bind_of_error ?_
  rw [checkRange_apply, if_neg (by omega)]

theorem memRead32_range {a : Nat} {s : State} (h : s.params.mmSize < a + 4) :
    memRead32 a s = .error (.refuse .mmRange) s := by
  unfold memRead32
  refine bind_of_error ?_
  rw [checkRange_apply, if_neg (by omega)]

theorem Silent.getParams : Silent getParams := fun _ => rfl

theorem Silent.acc32 (v : Int) : Silent (acc32 v) := fun s => by
  unfold leaves
  rw [acc32_apply]
  cases acc32Result s.params.accOverflow v <;> rfl

theorem Silent.checkRange (a n : Nat) : Silent (checkRange a n) := fun s => by
  unfold leaves
  rw [checkRange_apply]
  by_cases h : a + n ≤ s.params.mmSize
  · rw [if_pos h]
  · rw [if_neg h]

theorem Silent.checkUnread (a n : Nat) : Silent (checkUnread a n) :=
  (Silent.look _).bind fun _ => (Silent.look _).bind fun _ => Silent.refuseIf _ _

theorem Silent.checkStore (a n : Nat) : Silent (checkStore a n) :=
  (Silent.checkRange a n).bind fun _ => Silent.checkUnread a n

theorem Silent.checkAlign (a : Nat) : Silent (checkAlign a) := Silent.refuseIf _ _

theorem Silent.checkEven (a : Nat) : Silent (checkEven a) := Silent.refuseIf _ _

theorem Silent.resolve (w : Word) : Silent (resolve w) := fun _ => rfl

theorem Silent.blockBase (w : Word) : Silent (blockBase w) :=
  (Silent.resolve w).bind fun _ => (Silent.checkAlign _).bind fun _ => Silent.pure _

theorem Silent.readReg {w : Nat} (name : RegName) (get : Engine → Reg w) : Silent (readReg name get) := fun s => by
  cases h : (get s.eng).written
  · exact leaves_of_error (readReg_unwritten h)
  · exact leaves_of_ok (readReg_written h)

theorem Silent.d8 (a : Nat) : Silent (d8 a) := fun _ => rfl

theorem Silent.d16 (a : Nat) : Silent (d16 a) := (Silent.checkEven a).bind fun _ => Silent.look _

theorem Silent.memRead16 (a : Nat) : Silent (memRead16 a) := (Silent.checkRange a 2).bind fun _ => Silent.look _

theorem Silent.memRead32 (a : Nat) : Silent (memRead32 a) := (Silent.checkRange a 4).bind fun _ => Silent.look _

/-! ## Scratch stores -/

/-- The state after `D8w(a, v)`. -/
def poke8 (s : State) (a : Nat) (v : Byte) : State := { s with sm := s.sm.write (scratchAddr a) v }

/-- The state after `D16w(a, v)` at an even address. -/
def poke16 (s : State) (a : Nat) (v : Int) : State :=
  poke8 (poke8 s a ((lo16 v).extractLsb' 8 8)) (a + 1) ((lo16 v).extractLsb' 0 8)

theorem d8w_apply (a : Nat) (v : Byte) (s : State) : d8w a v s = .ok () (poke8 s a v) := rfl

theorem d16w_even {a : Nat} (h : a % 2 = 0) (v : Int) (s : State) : d16w a v s = .ok () (poke16 s a v) := by
  unfold d16w
  rw [bind_of_ok (checkEven_ok_iff.2 ⟨h, rfl⟩), bind_of_ok (d8w_apply _ _ _), d8w_apply]
  rfl

theorem d16w_odd {a : Nat} (h : a % 2 ≠ 0) (v : Int) (s : State) :
    d16w a v s = .error (.refuse .oddSampleAddr) s := by
  unfold d16w
  exact bind_of_error (checkEven_odd h s)

theorem d16w_ok_iff {a : Nat} {v : Int} {s t : State} : d16w a v s = .ok () t ↔ a % 2 = 0 ∧ t = poke16 s a v := by
  by_cases h : a % 2 = 0
  · rw [d16w_even h]; simp [h, eq_comm]
  · rw [d16w_odd h]; simp [h]

theorem scratch_poke8 (s : State) (a : Nat) (v : Byte) (b : Nat) :
    (poke8 s a v).scratch b = if b % 65536 = a % 65536 then v else s.scratch b := by
  unfold poke8 State.scratch scratchAddr
  exact Mem.read_write _ _ _ _

theorem byte_append_bytes (x : Half) : (x.extractLsb' 8 8 : Byte) ++ (x.extractLsb' 0 8 : Byte) = x := by
  ext i hi
  simp only [BitVec.getElem_append, BitVec.getElem_extractLsb']
  split <;> simp_all

/-- A sample after a 16-bit store, both at even addresses. -/
theorem sample_poke16 (s : State) {a b : Nat} (ha : a % 2 = 0) (hb : b % 2 = 0) (v : Int) :
    (poke16 s a v).sample b = if b % 65536 = a % 65536 then toS16 v else s.sample b := by
  unfold State.sample poke16
  simp only [scratch_poke8]
  by_cases h : b % 65536 = a % 65536
  · rw [if_neg (by omega), if_pos h, if_pos (by omega), if_pos h, byte_append_bytes]; rfl
  · rw [if_neg (by omega), if_neg h, if_neg (by omega), if_neg (by omega), if_neg h]

theorem scratch_poke16 (s : State) (a : Nat) (v : Int) {b : Nat} (h1 : b % 65536 ≠ a % 65536)
    (h2 : b % 65536 ≠ (a + 1) % 65536) : (poke16 s a v).scratch b = s.scratch b := by
  unfold poke16
  rw [scratch_poke8, if_neg h2, scratch_poke8, if_neg h1]

theorem scratch_mod (s : State) (a : Nat) : s.scratch (a % 65536) = s.scratch a := by
  simp [State.scratch, scratchAddr]

theorem sample_congr (s : State) {a b : Nat} (h : a % 65536 = b % 65536) : s.sample a = s.sample b := by
  have h' : (a + 1) % 65536 = (b + 1) % 65536 := by omega
  unfold State.sample State.scratch scratchAddr
  simp only [Config.scratchSize, h, h']

theorem sample_bounds (s : State) (a : Nat) : -32768 ≤ s.sample a ∧ s.sample a ≤ 32767 := by
  have h := half_toInt_bounds (s.scratch a ++ s.scratch (a + 1))
  exact h

/-! ## Main-memory stores -/

/-- The state after one stored byte of main memory. -/
def mmPoke (s : State) (a : Nat) (v : Byte) : State := { s with mm := s.mm.write a v }

/-- The state after `MemWrite(a, 2, v)`. -/
def mmPoke16 (s : State) (a : Nat) (v : Half) : State :=
  mmPoke (mmPoke s a (v.extractLsb' 8 8)) (a + 1) (v.extractLsb' 0 8)

/-- The state after `MemWrite(a, 4, v)`. -/
def mmPoke32 (s : State) (a : Nat) (v : Word) : State :=
  mmPoke (mmPoke (mmPoke (mmPoke s a (v.extractLsb' 24 8)) (a + 1) (v.extractLsb' 16 8)) (a + 2) (v.extractLsb' 8 8))
    (a + 3) (v.extractLsb' 0 8)

theorem mmStore_apply (a : Nat) (v : Byte) (s : State) : mmStore a v s = .ok () (mmPoke s a v) := rfl

theorem mm_read_mmPoke (s : State) (a : Nat) (v : Byte) (b : Nat) :
    (mmPoke s a v).mm.read b = if b = a then v else s.mm.read b := Mem.read_write _ _ _ _

theorem memWrite8_ok_iff {a : Nat} {v : Byte} {s t : State} :
    memWrite8 a v s = .ok () t ↔ (a + 1 ≤ s.params.mmSize ∧ Unlisted s a 1) ∧ t = mmPoke s a v := by
  unfold memWrite8
  rw [bind_ok_iff]
  constructor
  · rintro ⟨_, u, h1, h2⟩
    obtain ⟨h1, h1', rfl⟩ := checkStore_ok_iff.1 h1
    cases h2
    exact ⟨⟨h1, h1'⟩, rfl⟩
  · rintro ⟨⟨h1, h2⟩, rfl⟩
    exact ⟨(), s, checkStore_ok_iff.2 ⟨h1, h2, rfl⟩, rfl⟩

theorem memWrite16_ok_iff {a : Nat} {v : Half} {s t : State} :
    memWrite16 a v s = .ok () t ↔ (a + 2 ≤ s.params.mmSize ∧ Unlisted s a 2) ∧ t = mmPoke16 s a v := by
  unfold memWrite16
  rw [bind_ok_iff]
  constructor
  · rintro ⟨_, u, h1, h2⟩
    obtain ⟨h1, h1', rfl⟩ := checkStore_ok_iff.1 h1
    rw [bind_of_ok (mmStore_apply _ _ _), mmStore_apply] at h2
    cases h2
    exact ⟨⟨h1, h1'⟩, rfl⟩
  · rintro ⟨⟨h1, h2⟩, rfl⟩
    refine ⟨(), s, checkStore_ok_iff.2 ⟨h1, h2, rfl⟩, ?_⟩
    rw [bind_of_ok (mmStore_apply _ _ _), mmStore_apply]; rfl

theorem memWrite32_ok_iff {a : Nat} {v : Word} {s t : State} :
    memWrite32 a v s = .ok () t ↔ (a + 4 ≤ s.params.mmSize ∧ Unlisted s a 4) ∧ t = mmPoke32 s a v := by
  unfold memWrite32
  rw [bind_ok_iff]
  constructor
  · rintro ⟨_, u, h1, h2⟩
    obtain ⟨h1, h1', rfl⟩ := checkStore_ok_iff.1 h1
    rw [bind_of_ok (mmStore_apply _ _ _), bind_of_ok (mmStore_apply _ _ _), bind_of_ok (mmStore_apply _ _ _),
      mmStore_apply] at h2
    cases h2
    exact ⟨⟨h1, h1'⟩, rfl⟩
  · rintro ⟨⟨h1, h2⟩, rfl⟩
    refine ⟨(), s, checkStore_ok_iff.2 ⟨h1, h2, rfl⟩, ?_⟩
    rw [bind_of_ok (mmStore_apply _ _ _), bind_of_ok (mmStore_apply _ _ _), bind_of_ok (mmStore_apply _ _ _),
      mmStore_apply]; rfl

theorem mmHalf_mmPoke16_self (s : State) (a : Nat) (v : Half) : (mmPoke16 s a v).mmHalf a = v := by
  unfold State.mmHalf mmPoke16
  simp only [mm_read_mmPoke]
  simp [byte_append_bytes]

theorem word_append_bytes (x : Word) :
    (x.extractLsb' 24 8 : Byte) ++ (x.extractLsb' 16 8 : Byte) ++ (x.extractLsb' 8 8 : Byte)
      ++ (x.extractLsb' 0 8 : Byte) = x := by
  ext i hi
  simp only [BitVec.getElem_append, BitVec.getElem_extractLsb']
  rw [← BitVec.getLsbD_eq_getElem hi]
  split_ifs <;> congr 1 <;> omega

theorem mmWord_mmPoke32_self (s : State) (a : Nat) (v : Word) : (mmPoke32 s a v).mmWord a = v := by
  unfold State.mmWord mmPoke32
  simp only [mm_read_mmPoke]
  simp [word_append_bytes]

/-- A half of main memory away from a stored half reads as before. -/
theorem mmHalf_mmPoke16 (s : State) {a b : Nat} (v : Half) (h : b + 2 ≤ a ∨ a + 2 ≤ b) :
    (mmPoke16 s a v).mmHalf b = s.mmHalf b := by
  unfold State.mmHalf mmPoke16
  simp only [mm_read_mmPoke]
  rw [if_neg (by omega), if_neg (by omega), if_neg (by omega), if_neg (by omega)]

theorem mm_read_mmPoke16 (s : State) {a b : Nat} (v : Half) (h : b < a ∨ a + 2 ≤ b) :
    (mmPoke16 s a v).mm.read b = s.mm.read b := by
  unfold mmPoke16
  rw [mm_read_mmPoke, if_neg (by omega), mm_read_mmPoke, if_neg (by omega)]

theorem mm_read_mmPoke32 (s : State) {a b : Nat} (v : Word) (h : b < a ∨ a + 4 ≤ b) :
    (mmPoke32 s a v).mm.read b = s.mm.read b := by
  unfold mmPoke32
  simp only [mm_read_mmPoke]
  rw [if_neg (by omega), if_neg (by omega), if_neg (by omega), if_neg (by omega)]

/-- A half depends on its two bytes. -/
theorem mmHalf_congr {s t : State} {a : Nat} (h0 : t.mm.read a = s.mm.read a)
    (h1 : t.mm.read (a + 1) = s.mm.read (a + 1)) : t.mmHalf a = s.mmHalf a := by
  unfold State.mmHalf; rw [h0, h1]

/-- A word depends on its four bytes. -/
theorem mmWord_congr {s t : State} {a : Nat} (h : ∀ i, i < 4 → t.mm.read (a + i) = s.mm.read (a + i)) :
    t.mmWord a = s.mmWord a := by
  unfold State.mmWord
  have h0 := h 0 (by omega)
  simp only [Nat.add_zero] at h0
  rw [h0, h 1 (by omega), h 2 (by omega), h 3 (by omega)]

/-! ## Free values -/

/-- A draw always ends, and changes only the supply or the counter. -/
theorem drawHalf_runs (s : State) : ∃ v su dr, drawHalf s = .ok v { s with supply := su, draws := dr } := by
  unfold drawHalf
  cases h : s.supply with
  | nil => exact ⟨Config.freeValue s.draws, [], s.draws + 1, by simp [← h]⟩
  | cons v rest => exact ⟨v, rest, s.draws, rfl⟩

theorem drawByte_runs (s : State) : ∃ v su dr, drawByte s = .ok v { s with supply := su, draws := dr } := by
  obtain ⟨v, su, dr, h⟩ := drawHalf_runs s
  exact ⟨v.extractLsb' 0 8, su, dr, by unfold drawByte; rw [bind_of_ok h]; rfl⟩

end Sys2Proof.Machine
end

