-- ==== Sys2Proof/Laws/Frame.lean ====
section
/-! SUPPORT. Laws/Frame.lean: what a piece of a command may touch, said once for each shared operation and then for each
engine command, whether the command ends or stops. -/

namespace Sys2Proof.Machine

variable {α β : Type}

/-- From s to t the registers are related by E, scratch changes only in S, main memory only in M and never in the unread
part of the list, the control part of the state stays, and canonical memories stay canonical. -/
structure Within (E : Engine → Engine → Prop) (S M : Nat → Prop) (s t : State) : Prop where
  eng : E s.eng t.eng
  control : SameControl s t
  scratch : SameScratchOutside S s t
  main : SameMainOutside M s t
  unread : ∀ a, s.cp ≤ a → a < s.cend → t.mm.read a = s.mm.read a
  smWf : Mem.wf 65536 s.sm → Mem.wf 65536 t.sm
  mmWf : Mem.wf s.params.mmSize s.mm → Mem.wf s.params.mmSize t.mm

/-- No register changes. -/
def EngSame (a b : Engine) : Prop := b = a

/-- No register but the three nead envelope values changes. -/
def EnvOnly (a b : Engine) : Prop :=
  b = { a with envValue0 := b.envValue0, envValue1 := b.envValue1, envValue2 := b.envValue2 }

/-- A relation of register files that frames can be built from. -/
structure EngFraming (E : Engine → Engine → Prop) : Prop where
  refl : ∀ a, E a a
  trans : ∀ a b c, E a b → E b c → E a c

theorem engSame_framing : EngFraming EngSame := ⟨fun _ => rfl, fun _ _ _ h1 h2 => h2.trans h1⟩

theorem envOnly_framing : EngFraming EnvOnly :=
  ⟨fun _ => rfl, fun a b c h1 h2 => by unfold EnvOnly at *; rw [h2, h1]⟩

theorem SameControl.refl (s : State) : SameControl s s := ⟨rfl, rfl, rfl, rfl, rfl, rfl⟩

theorem SameControl.trans {s t u : State} (h1 : SameControl s t) (h2 : SameControl t u) : SameControl s u :=
  ⟨h2.cp.trans h1.cp, h2.cend.trans h1.cend, h2.status.trans h1.status, h2.log.trans h1.log,
    h2.params.trans h1.params, h2.host.trans h1.host⟩

theorem within_framing {E : Engine → Engine → Prop} (hE : EngFraming E) (S M : Nat → Prop) : Framing (Within E S M) where
  refl s := ⟨hE.refl _, SameControl.refl s, fun _ _ _ => rfl, fun _ _ => rfl, fun _ _ _ => rfl, id, id⟩
  trans s t u h1 h2 :=
    { eng := hE.trans _ _ _ h1.eng h2.eng
      control := h1.control.trans h2.control
      scratch := fun a ha hs => (h2.scratch a ha hs).trans (h1.scratch a ha hs)
      main := fun a hm => (h2.main a hm).trans (h1.main a hm)
      unread := fun a h3 h4 =>
        (h2.unread a (h1.control.cp ▸ h3) (h1.control.cend ▸ h4)).trans (h1.unread a h3 h4)
      smWf := fun h => h2.smWf (h1.smWf h)
      mmWf := fun h => by
        have := h2.mmWf
        rw [h1.control.params] at this
        exact this (h1.mmWf h) }

theorem Within.mono {E : Engine → Engine → Prop} {S S' M M' : Nat → Prop} {s t : State} (h : Within E S M s t)
    (hS : ∀ a, S a → S' a) (hM : ∀ a, M a → M' a) : Within E S' M' s t :=
  { h with
    scratch := fun a ha hs => h.scratch a ha fun h' => hs (hS a h')
    main := fun a hm => h.main a fun h' => hm (hM a h') }

section
variable {E : Engine → Engine → Prop} {S M : Nat → Prop}

/-! ## The shared operations -/

theorem within_poke8 (hE : EngFraming E) (s : State) {a : Nat} (v : Byte) (h : S (a % 65536)) :
    Within E S M s (poke8 s a v) where
  eng := hE.refl _
  control := ⟨rfl, rfl, rfl, rfl, rfl, rfl⟩
  scratch := fun b hb hs => by
    rw [scratch_poke8, if_neg]
    intro he
    rw [Nat.mod_eq_of_lt hb] at he
    exact hs (he ▸ h)
  main := fun _ _ => rfl
  unread := fun _ _ _ => rfl
  smWf := fun hw => Mem.wf_write hw (Nat.mod_lt _ (by decide)) v
  mmWf := id

theorem keeps_d8w (hE : EngFraming E) {a : Nat} (v : Byte) (h : S (a % 65536)) : Keeps (Within E S M) (d8w a v) :=
  fun s => within_poke8 hE s v h

theorem keeps_d16w (hE : EngFraming E) {a : Nat} (v : Int) (h0 : S (a % 65536)) (h1 : S ((a + 1) % 65536)) :
    Keeps (Within E S M) (d16w a v) :=
  Keeps.bind (within_framing hE S M) ((Silent.checkEven a).keeps (within_framing hE S M)) fun _ =>
    Keeps.bind (within_framing hE S M) (keeps_d8w hE _ h0) fun _ => keeps_d8w hE _ h1

theorem within_mmPoke (hE : EngFraming E) (s : State) {a : Nat} (v : Byte) (h : M a) (hr : a < s.params.mmSize)
    (hu : ¬ (s.cp ≤ a ∧ a < s.cend)) : Within E S M s (mmPoke s a v) where
  eng := hE.refl _
  control := ⟨rfl, rfl, rfl, rfl, rfl, rfl⟩
  scratch := fun _ _ _ => rfl
  main := fun b hb => by rw [mm_read_mmPoke, if_neg]; rintro rfl; exact hb h
  unread := fun b h1 h2 => by rw [mm_read_mmPoke, if_neg]; rintro rfl; exact hu ⟨h1, h2⟩
  smWf := id
  mmWf := fun hw => Mem.wf_write hw hr v

/-- A piece that checks a store first and then makes it. -/
theorem keeps_of_checkStore (hE : EngFraming E) {a n : Nat} {x : Act Unit}
    (h : ∀ s, a + n ≤ s.params.mmSize → Unlisted s a n → Within E S M s (leaves x s)) :
    Keeps (Within E S M) (checkStore a n >>= fun _ => x) := fun s => by
  cases hc : checkStore a n s with
  | ok u t =>
    obtain ⟨h1, h2, rfl⟩ := checkStore_ok_iff.1 hc
    have : leaves (checkStore a n >>= fun _ => x) t = leaves x t := by unfold leaves; rw [bind_of_ok hc]
    rw [this]
    exact h t h1 h2
  | error e t =>
    rw [leaves_of_error (bind_of_error hc), (Silent.checkStore a n).of_error hc]
    exact (within_framing hE S M).refl s

theorem unlisted_of_mem {s : State} {a n b : Nat} (h : Unlisted s a n) (h1 : a ≤ b) (h2 : b < a + n) :
    ¬ (s.cp ≤ b ∧ b < s.cend) := by
  unfold Unlisted at h; omega

theorem keeps_memWrite8 (hE : EngFraming E) {a : Nat} (v : Byte) (h : M a) : Keeps (Within E S M) (memWrite8 a v) :=
  keeps_of_checkStore hE fun s h1 h2 =>
    within_mmPoke hE s v h (by omega) (unlisted_of_mem h2 (by omega) (by omega))

theorem keeps_memWrite16 (hE : EngFraming E) {a : Nat} (v : Half) (h : ∀ b, a ≤ b → b < a + 2 → M b) :
    Keeps (Within E S M) (memWrite16 a v) :=
  keeps_of_checkStore hE fun s h1 h2 => by
    have e : leaves (mmStore a (v.extractLsb' 8 8) >>= fun _ => mmStore (a + 1) (v.extractLsb' 0 8)) s
        = mmPoke16 s a v := leaves_of_ok (by rw [bind_of_ok (mmStore_apply _ _ _), mmStore_apply]; rfl)
    rw [e]
    exact (within_framing hE S M).trans _ _ _
      (within_mmPoke hE s _ (h a (by omega) (by omega)) (by omega) (unlisted_of_mem h2 (by omega) (by omega)))
      (within_mmPoke hE _ _ (h (a + 1) (by omega) (by omega)) (show a + 1 < s.params.mmSize by omega)
        (unlisted_of_mem (s := s) h2 (by omega) (by omega)))

theorem keeps_memWrite32 (hE : EngFraming E) {a : Nat} (v : Word) (h : ∀ b, a ≤ b → b < a + 4 → M b) :
    Keeps (Within E S M) (memWrite32 a v) :=
  keeps_of_checkStore hE fun s h1 h2 => by
    have e : leaves (mmStore a (v.extractLsb' 24 8) >>= fun _ => mmStore (a + 1) (v.extractLsb' 16 8) >>= fun _ =>
        mmStore (a + 2) (v.extractLsb' 8 8) >>= fun _ => mmStore (a + 3) (v.extractLsb' 0 8)) s
        = mmPoke32 s a v := leaves_of_ok (by
      rw [bind_of_ok (mmStore_apply _ _ _), bind_of_ok (mmStore_apply _ _ _), bind_of_ok (mmStore_apply _ _ _),
        mmStore_apply]; rfl)
    rw [e]
    have F : Framing (Within E S M) := within_framing hE S M
    have k1 := within_mmPoke (S := S) (M := M) hE s (v.extractLsb' 24 8) (h a (by omega) (by omega)) (by omega)
      (unlisted_of_mem h2 (by omega) (by omega))
    have k2 := within_mmPoke (S := S) (M := M) hE (mmPoke s a (v.extractLsb' 24 8)) (v.extractLsb' 16 8)
      (h (a + 1) (by omega) (by omega)) (show a + 1 < s.params.mmSize by omega)
      (unlisted_of_mem (s := s) h2 (by omega) (by omega))
    have k3 := within_mmPoke (S := S) (M := M) hE (mmPoke (mmPoke s a (v.extractLsb' 24 8)) (a + 1) (v.extractLsb' 16 8))
      (v.extractLsb' 8 8) (h (a + 2) (by omega) (by omega)) (show a + 2 < s.params.mmSize by omega)
      (unlisted_of_mem (s := s) h2 (by omega) (by omega))
    have k4 := within_mmPoke (S := S) (M := M) hE
      (mmPoke (mmPoke (mmPoke s a (v.extractLsb' 24 8)) (a + 1) (v.extractLsb' 16 8)) (a + 2) (v.extractLsb' 8 8))
      (v.extractLsb' 0 8) (h (a + 3) (by omega) (by omega)) (show a + 3 < s.params.mmSize by omega)
      (unlisted_of_mem (s := s) h2 (by omega) (by omega))
    exact F.trans _ _ _ k1 (F.trans _ _ _ k2 (F.trans _ _ _ k3 k4))

theorem keeps_drawHalf (hE : EngFraming E) : Keeps (Within E S M) drawHalf := fun s => by
  obtain ⟨v, su, dr, h⟩ := drawHalf_runs s
  rw [leaves_of_ok h]
  exact ⟨hE.refl _, ⟨rfl, rfl, rfl, rfl, rfl, rfl⟩, fun _ _ _ => rfl, fun _ _ => rfl, fun _ _ _ => rfl, id, id⟩

theorem keeps_drawByte (hE : EngFraming E) : Keeps (Within E S M) drawByte :=
  Keeps.bind (within_framing hE S M) (keeps_drawHalf hE) fun _ => Keeps.pure (within_framing hE S M) _

theorem keeps_setEng {f : Engine → Engine} (h : ∀ e, E e (f e)) : Keeps (Within E S M) (setEng f) := fun _ =>
  ⟨h _, ⟨rfl, rfl, rfl, rfl, rfl, rfl⟩, fun _ _ _ => rfl, fun _ _ => rfl, fun _ _ _ => rfl, id, id⟩

end

/-! ## Regions -/

/-- Byte i of a region. -/
theorem inScratch_offset {base n i : Nat} (h : i < n) : inScratch base n ((base + i) % 65536) := by
  unfold inScratch
  have h1 : ((base + i) % 65536 + 65536 - base % 65536) % 65536 = i % 65536 := by omega
  rw [h1]
  exact Nat.lt_of_le_of_lt (Nat.mod_le _ _) h

/-- A byte at a fixed distance above a region's base. -/
theorem inScratch_of_eq {base n a i : Nat} (e : a % 65536 = (base + i) % 65536) (h : i < n) : inScratch base n (a % 65536) :=
  e ▸ inScratch_offset h

/-- Regions of which one ends before the other starts, both inside scratch, have no byte in common. -/
theorem apart_of_le {b1 n1 b2 n2 : Nat} (h1 : b1 + n1 ≤ b2) (h2 : b2 + n2 ≤ 65536) : apart b1 n1 b2 n2 := by
  intro a ha ⟨h3, h4⟩
  unfold inScratch at h3 h4
  omega

theorem apart_symm {b1 n1 b2 n2 : Nat} (h : apart b1 n1 b2 n2) : apart b2 n2 b1 n1 := fun a ha hh => h a ha ⟨hh.2, hh.1⟩

/-! ## A silent first part -/

/-- What x leaves on s is related to s by R. -/
def KeepsAt (R : State → State → Prop) (x : Act α) (s : State) : Prop := R s (leaves x s)

theorem Keeps.at' {R : State → State → Prop} {x : Act α} (h : Keeps R x) (s : State) : KeepsAt R x s := h s

theorem KeepsAt.silent_bind {R : State → State → Prop} (F : Framing R) {x : Act α} {f : α → Act β} {s : State}
    (hx : Silent x) (hf : ∀ a, x s = .ok a s → KeepsAt R (f a) s) : KeepsAt R (x >>= f) s := by
  unfold KeepsAt
  cases h : x s with
  | ok a t =>
    have ht := hx.of_ok h
    subst ht
    have : leaves (x >>= f) t = leaves (f a) t := by unfold leaves; rw [bind_of_ok h]
    rw [this]
    exact hf a h
  | error e t =>
    rw [leaves_of_error (bind_of_error h), hx.of_error h]
    exact F.refl s

end Sys2Proof.Machine
end

