-- ==== Sys2Proof/Laws/Engines.lean ====
section
/-! SUPPORT. Laws/Engines.lean: what each command that touches memory may touch, whether it ends or stops. -/

namespace Sys2Proof.Machine

variable {α β : Type}

section
variable {S M : Nat → Prop}

theorem framing_same (S M : Nat → Prop) : Framing (Within EngSame S M) := within_framing engSame_framing S M

/-! ## Silent pieces -/

theorem Silent.loadHistory (init loopFlag : Bool) (lfa : Nat) : Silent (loadHistory init loopFlag lfa) := by
  have h : ∀ src, Silent (readHistory src) := fun src =>
    (Silent.checkAlign src).bind fun _ => Silent.collect fun i => (Silent.memRead16 _).bind fun _ => Silent.pure _
  unfold Machine.loadHistory
  split
  · exact Silent.pure _
  · split
    · exact (Silent.readReg _ _).bind fun a => h _
    · exact h _

theorem Silent.predict (b1 b2 r : List Int) (l1 l2 : Int) : Silent (predict b1 b2 r l1 l2) :=
  Silent.collect fun _ => (Silent.acc32 _).bind fun _ => Silent.pure _

theorem Silent.rampStep (r : Ramp) : Silent (rampStep r) := (Silent.acc32 _).bind fun _ => Silent.pure _

theorem Silent.segmentStart (r : ExpRamp) : Silent (segmentStart r) := by
  unfold Machine.segmentStart
  split
  · exact Silent.pure _
  · exact (Silent.acc32 _).bind fun _ => (Silent.acc32 _).bind fun _ => Silent.pure _

theorem Silent.startStep (v t r q : Int) : Silent (startStep v t r q) := (Silent.acc32 _).bind fun _ => Silent.pure _

theorem Silent.expFromRegs : Silent expFromRegs := by
  unfold Machine.expFromRegs
  repeat' first
    | exact Silent.pure _
    | refine Silent.bind (Silent.readReg _ _) fun _ => ?_
    | refine Silent.bind (Silent.acc32 _) fun _ => ?_
    | refine Silent.bind (Silent.startStep _ _ _ _) fun _ => ?_

theorem Silent.expFromBlock (a : Nat) : Silent (expFromBlock a) := by
  unfold Machine.expFromBlock
  repeat' first
    | exact Silent.pure _
    | refine Silent.bind (Silent.memRead16 _) fun _ => ?_
    | refine Silent.bind (Silent.memRead32 _) fun _ => ?_
    | refine Silent.bind (Silent.startStep _ _ _ _) fun _ => ?_

theorem Silent.linFromRegs : Silent linFromRegs := by
  unfold Machine.linFromRegs
  repeat' first
    | exact Silent.pure _
    | refine Silent.bind (Silent.readReg _ _) fun _ => ?_

theorem Silent.linFromBlock (a : Nat) : Silent (linFromBlock a) := by
  unfold Machine.linFromBlock
  repeat' first
    | exact Silent.pure _
    | refine Silent.bind (Silent.memRead16 _) fun _ => ?_
    | refine Silent.bind (Silent.memRead32 _) fun _ => ?_

theorem Silent.expLoad (init : Bool) (a : Nat) : Silent (expLoad init a) := by
  cases init
  · exact Silent.expFromBlock a
  · exact Silent.expFromRegs

theorem Silent.linLoad (init : Bool) (a : Nat) : Silent (linLoad init a) := by
  cases init
  · exact Silent.linFromBlock a
  · exact Silent.linFromRegs

theorem Silent.readWets (aux : Bool) : Silent (readWets aux) := by
  unfold Machine.readWets
  split
  · exact (Silent.readReg _ _).bind fun _ => (Silent.readReg _ _).bind fun _ => Silent.pure _
  · exact Silent.pure _

/-! ## ADPCM -/

theorem keeps_codebookLookup (j : Nat) : Keeps (Within EngSame S M) (codebookLookup j) := by
  refine Keeps.bind (framing_same S M) ?_ fun _ => Keeps.pure (framing_same S M) _
  unfold codebookBits
  split
  · exact (Silent.readReg _ _).keeps (framing_same S M)
  · exact keeps_drawHalf engSame_framing

/-- A lookup below 128: the entry, or the fault that names it (R204, R33). -/
theorem codebookLookup_below {j : Nat} (h : j < 128) (s : State) :
    codebookLookup j s = if (s.eng.codebook.get ⟨j, h⟩).written then .ok (s.codebookAt j) s
      else .error (.fault (.unwritten (.codebook ⟨j, h⟩))) s := by
  have hb : codebookBits j = readCodebook ⟨j, h⟩ := dif_pos h
  rw [codebookLookup, hb, State.codebookAt, dif_pos h]
  cases hw : (s.eng.codebook.get ⟨j, h⟩).written with
  | false => exact bind_of_error (readReg_unwritten hw)
  | true => exact bind_of_ok (readReg_written hw)

/-- The first n turns of the block's loop over written entries. -/
theorem codebookPairs_written {idx : Nat} {s : State} (hi : idx < 8) (n : Nat) (hn : n ≤ 8)
    (h : ∀ j : Fin 128, (16 * idx ≤ j.val ∧ j.val < 16 * idx + n) ∨ (16 * idx + 8 ≤ j.val ∧ j.val < 16 * idx + 8 + n) →
      (s.eng.codebook.get j).written = true) :
    collect n (codebookPair idx) s
      = .ok ((List.range n).map fun k => (s.codebookAt (16 * idx + k), s.codebookAt (16 * idx + 8 + k))) s := by
  induction n with
  | zero => rfl
  | succ n ih =>
    have h1 : codebookLookup (16 * idx + n) s = .ok (s.codebookAt (16 * idx + n)) s := by
      rw [codebookLookup_below (by omega), if_pos (h ⟨16 * idx + n, by omega⟩ (.inl ⟨by simp, by simp⟩))]
    have h2 : codebookLookup (16 * idx + 8 + n) s = .ok (s.codebookAt (16 * idx + 8 + n)) s := by
      rw [codebookLookup_below (by omega), if_pos (h ⟨16 * idx + 8 + n, by omega⟩ (.inr ⟨by simp, by simp⟩))]
    rw [collect_succ, bind_of_ok (ih (by omega) fun j hj => h j (by omega)), codebookPair, act_bind_assoc, bind_of_ok h1,
      act_bind_assoc, bind_of_ok h2, List.range_succ, List.map_append]
    rfl

/-- A block of written entries is its two prediction vectors (R205). -/
theorem codebookBlock_written {idx : Nat} {s : State} (hi : idx < 8) (h : s.blockWritten idx) :
    ∃ block, codebookBlock idx s = .ok block s ∧ block.map (·.1) = s.book1 idx ∧ block.map (·.2) = s.book2 idx :=
  ⟨_, codebookPairs_written hi 8 (by omega) fun j hj => h j (by omega) (by omega), by simp [State.book1], by
    simp [State.book2]⟩

/-- The first unwritten entry of a block, in the order of R205's loop, is the one that faults (R346): `book1[n]` with all
turns before it written. -/
theorem codebookBlock_faults_book1 {idx n : Nat} {s : State} (hi : idx < 8) (hn : n < 8)
    (h : ∀ j : Fin 128, (16 * idx ≤ j.val ∧ j.val < 16 * idx + n) ∨ (16 * idx + 8 ≤ j.val ∧ j.val < 16 * idx + 8 + n) →
      (s.eng.codebook.get j).written = true)
    (hu : (s.eng.codebook.get ⟨16 * idx + n, by omega⟩).written = false) :
    codebookBlock idx s = .error (.fault (.unwritten (.codebook ⟨16 * idx + n, by omega⟩))) s := by
  refine collect_error hn (codebookPairs_written hi n (by omega) h) (bind_of_error ?_)
  rw [codebookLookup_below (by omega), hu, if_neg (by simp)]

/-- The same with `book1[n]` written too and `book2[n]` not. -/
theorem codebookBlock_faults_book2 {idx n : Nat} {s : State} (hi : idx < 8) (hn : n < 8)
    (h : ∀ j : Fin 128, (16 * idx ≤ j.val ∧ j.val ≤ 16 * idx + n) ∨ (16 * idx + 8 ≤ j.val ∧ j.val < 16 * idx + 8 + n) →
      (s.eng.codebook.get j).written = true)
    (hu : (s.eng.codebook.get ⟨16 * idx + 8 + n, by omega⟩).written = false) :
    codebookBlock idx s = .error (.fault (.unwritten (.codebook ⟨16 * idx + 8 + n, by omega⟩))) s := by
  have h1 : codebookLookup (16 * idx + n) s = .ok (s.codebookAt (16 * idx + n)) s := by
    rw [codebookLookup_below (by omega), if_pos (h ⟨16 * idx + n, by omega⟩ (.inl ⟨by simp, by simp⟩))]
  refine collect_error hn (codebookPairs_written hi n (by omega) fun j hj => h j (by omega)) ?_
  rw [codebookPair, bind_of_ok h1]
  refine bind_of_error ?_
  rw [codebookLookup_below (by omega), hu, if_neg (by simp)]

theorem keeps_codebookBlock (idx : Nat) : Keeps (Within EngSame S M) (codebookBlock idx) := by
  have F := framing_same S M
  exact Keeps.collect F fun _ _ => Keeps.bind F (keeps_codebookLookup _) fun _ =>
    Keeps.bind F (keeps_codebookLookup _) fun _ => Keeps.pure F _

theorem keeps_decodeFrame (twobit : Bool) (inp : Nat) (hist : List Int) :
    Keeps (Within EngSame S M) (decodeFrame twobit inp hist) := by
  have F := framing_same S M
  unfold decodeFrame
  refine Keeps.bind F ((Silent.d8 _).keeps F) fun _ => Keeps.bind F (Keeps.collect F fun _ _ => (Silent.d8 _).keeps F) fun _ => ?_
  refine Keeps.bind F (keeps_codebookBlock _) fun _ => ?_
  exact Keeps.bind F ((Silent.predict _ _ _ _ _).keeps F) fun _ =>
    Keeps.bind F ((Silent.predict _ _ _ _ _).keeps F) fun _ => Keeps.pure F _

theorem keeps_storeSamples {o : Nat} (xs : List Int) (h : ∀ i, i < 32 → S ((o + i) % 65536)) :
    Keeps (Within EngSame S M) (storeSamples o xs) :=
  Keeps.loop (framing_same S M) fun i hi => keeps_d16w engSame_framing _ (h (2 * i) (by omega))
    (by have := h (2 * i + 1) (by omega); rwa [← Nat.add_assoc] at this)

theorem keeps_decodeFrames (twobit : Bool) {inp out n : Nat} (hist : List Int)
    (h : ∀ i, i < 32 + 32 * n → S ((out + i) % 65536)) : Keeps (Within EngSame S M) (decodeFrames twobit inp out n hist) := by
  have F := framing_same S M
  refine Keeps.loopFrom F fun f hist hf => Keeps.bind F (keeps_decodeFrame _ _ _) fun y => ?_
  refine Keeps.bind F (keeps_storeSamples y fun i hi => ?_) fun _ => Keeps.pure F _
  have := h (32 + 32 * f + i) (by omega)
  rwa [show out + (32 + 32 * f + i) = out + 32 + 32 * f + i by omega] at this

/-- ADPCM touches its output buffer with the history before it, and the 32 bytes at lfa. -/
theorem adpcm_within (init loopFlag twobit : Bool) (w : Word) (s : State) :
    KeepsAt (Within EngSame (inScratch s.outAddr (32 + 32 * frameCount s.eng.count.value)) (inMain (s.resolved w) 32))
      (adpcm init loopFlag twobit w) s := by
  have F := framing_same (inScratch s.outAddr (32 + 32 * frameCount s.eng.count.value)) (inMain (s.resolved w) 32)
  refine KeepsAt.silent_bind F (Silent.blockBase w) fun lfa h1 => ?_
  refine KeepsAt.silent_bind F (Silent.readReg _ _) fun inp h2 => ?_
  refine KeepsAt.silent_bind F (Silent.readReg _ _) fun out h3 => ?_
  refine KeepsAt.silent_bind F (Silent.readReg _ _) fun count h4 => ?_
  refine KeepsAt.silent_bind F (Silent.loadHistory _ _ _) fun hist _ => ?_
  obtain ⟨rfl, -, -⟩ := blockBase_ok_iff.1 h1
  obtain ⟨-, rfl, -⟩ := readReg_ok_iff.1 h3
  obtain ⟨-, rfl, -⟩ := readReg_ok_iff.1 h4
  refine (Keeps.bind F (keeps_storeSamples _ fun i hi => inScratch_offset (by omega)) fun _ => ?_ : Keeps _ _) s
  refine Keeps.bind F (keeps_decodeFrames _ _ fun i hi => inScratch_offset hi) fun last => ?_
  exact Keeps.loop F fun i hi => keeps_memWrite16 engSame_framing _ fun b h5 h6 => ⟨by omega, by omega⟩

/-! ## The exponential and linear mixers -/

theorem keeps_mix {b p n : Nat} (g s : Int) (hp : p < n) (h : ∀ a, inScratch b (2 * n) a → S a) :
    Keeps (Within EngSame S M) (mix b g p s) := by
  have F := framing_same S M
  refine Keeps.bind F ((Silent.d16 _).keeps F) fun old => keeps_d16w engSame_framing _ (h _ (inScratch_offset (by omega))) ?_
  have := h _ (inScratch_offset (base := b) (i := 2 * p + 1) (n := 2 * n) (by omega))
  rwa [← Nat.add_assoc] at this

theorem keeps_mixerSample (b : MixBufs) (dry wet : Int) {p n : Nat} (rs : Ramp × Ramp) (hp : p < n)
    (h : ∀ a, mixTouched b n a → S a) : Keeps (Within EngSame S M) (mixerSample b dry wet p rs) := by
  have F := framing_same S M
  refine Keeps.bind F ((Silent.rampStep _).keeps F) fun l => Keeps.bind F ((Silent.rampStep _).keeps F) fun r => ?_
  refine Keeps.bind F ?_ fun _ => Keeps.pure F _
  refine Keeps.bind F ((Silent.d16 _).keeps F) fun x => ?_
  refine Keeps.bind F (keeps_mix _ _ hp fun a ha => h a (.inl ha)) fun _ => ?_
  refine Keeps.bind F (keeps_mix _ _ hp fun a ha => h a (.inr (.inl ha))) fun _ => ?_
  cases hb : b.wets with
  | none => exact Keeps.pure F _
  | some w =>
    refine Keeps.bind F (keeps_mix _ _ hp fun a ha => h a (.inr (.inr ?_))) fun _ =>
      keeps_mix _ _ hp fun a ha => h a (.inr (.inr ?_))
    · rw [hb]; exact .inl ha
    · rw [hb]; exact .inr ha

theorem keeps_saveUnnamed {a : Nat} (os : List Nat) (h : ∀ o ∈ os, M (a + o)) :
    Keeps (Within EngSame S M) (saveUnnamed a os) := by
  induction os with
  | nil => exact Keeps.pure (framing_same S M) _
  | cons o os ih =>
    refine Keeps.bind (framing_same S M) (keeps_drawByte engSame_framing) fun v => ?_
    refine Keeps.bind (framing_same S M) (keeps_memWrite8 engSame_framing _ (h o (by simp))) fun _ => ?_
    exact ih fun o ho => h o (by simp [ho])

theorem keeps_expSave {a : Nat} (x : ExpState) (h : ∀ b, a ≤ b → b < a + 80 → M b) :
    Keeps (Within EngSame S M) (expSave a x) := by
  have F := framing_same S M
  have hE := engSame_framing
  unfold expSave
  refine Keeps.bind F ((Silent.checkStore _ _).keeps F) fun _ => ?_
  refine Keeps.bind F (keeps_memWrite16 hE _ fun b h1 h2 => h b (by omega) (by omega)) fun _ => ?_
  refine Keeps.bind F (keeps_memWrite16 hE _ fun b h1 h2 => h b (by omega) (by omega)) fun _ => ?_
  iterate 8 refine Keeps.bind F (keeps_memWrite32 hE _ fun b h1 h2 => h b (by omega) (by omega)) fun _ => ?_
  refine keeps_saveUnnamed _ fun o ho => h _ (by omega) ?_
  simp only [expUnnamed, List.mem_append, List.mem_cons, List.not_mem_nil, or_false, List.mem_range'_1] at ho
  omega

theorem keeps_linSave {a : Nat} (x : LinState) (h : ∀ b, a ≤ b → b < a + 80 → M b) :
    Keeps (Within EngSame S M) (linSave a x) := by
  have F := framing_same S M
  have hE := engSame_framing
  unfold linSave
  refine Keeps.bind F ((Silent.checkStore _ _).keeps F) fun _ => ?_
  iterate 4 refine Keeps.bind F (keeps_memWrite16 hE _ fun b h1 h2 => h b (by omega) (by omega)) fun _ => ?_
  iterate 4 refine Keeps.bind F (keeps_memWrite32 hE _ fun b h1 h2 => h b (by omega) (by omega)) fun _ => ?_
  refine keeps_saveUnnamed _ fun o ho => h _ (by omega) ?_
  simp only [linUnnamed, List.mem_append, List.mem_cons, List.not_mem_nil, or_false, List.mem_range'_1] at ho
  omega

theorem readWets_value {aux : Bool} {s t : State} {x : Option (Nat × Nat)} (h : readWets aux s = .ok x t) :
    x = (if aux then some (s.wetLeftAddr, s.wetRightAddr) else none) := by
  unfold readWets at h
  split_ifs at h ⊢
  · obtain ⟨wl, u, h1, h⟩ := bind_ok_iff.1 h
    obtain ⟨wr, v, h2, h⟩ := bind_ok_iff.1 h
    obtain ⟨-, rfl, rfl⟩ := readReg_ok_iff.1 h1
    obtain ⟨-, rfl, rfl⟩ := readReg_ok_iff.1 h2
    obtain ⟨rfl, -⟩ := pure_ok_iff.1 h
    rfl
  · exact (pure_ok_iff.1 h).1.symm

/-- ENVMIXER touches its channel buffers and its 80-byte block. -/
theorem envmixer_within (init aux : Bool) (w : Word) (s : State) :
    KeepsAt (Within EngSame (mixTouched (expBufs s aux) (8 * segmentCount s.eng.count.value)) (inMain (s.resolved w) 80))
      (envmixer init aux w) s := by
  have F := framing_same (mixTouched (expBufs s aux) (8 * segmentCount s.eng.count.value)) (inMain (s.resolved w) 80)
  refine KeepsAt.silent_bind F (Silent.blockBase w) fun a h1 => ?_
  refine KeepsAt.silent_bind F (Silent.readReg _ _) fun inp h2 => ?_
  refine KeepsAt.silent_bind F (Silent.readReg _ _) fun dl h3 => ?_
  refine KeepsAt.silent_bind F (Silent.readReg _ _) fun count h4 => ?_
  refine KeepsAt.silent_bind F (Silent.readReg _ _) fun dr h5 => ?_
  refine KeepsAt.silent_bind F (Silent.readWets _) fun wets h6 => ?_
  refine KeepsAt.silent_bind F (Silent.expLoad _ _) fun x _ => ?_
  obtain ⟨rfl, -, -⟩ := blockBase_ok_iff.1 h1
  obtain ⟨-, rfl, -⟩ := readReg_ok_iff.1 h2
  obtain ⟨-, rfl, -⟩ := readReg_ok_iff.1 h3
  obtain ⟨-, rfl, -⟩ := readReg_ok_iff.1 h4
  obtain ⟨-, rfl, -⟩ := readReg_ok_iff.1 h5
  have h6 := readWets_value h6
  subst h6
  refine (Keeps.bind F (Keeps.loopFrom F fun g x hg => ?_) fun x => ?_ : Keeps _ _) s
  · refine Keeps.bind F ((Silent.segmentStart _).keeps F) fun l => Keeps.bind F ((Silent.segmentStart _).keeps F) fun r => ?_
    refine Keeps.bind F (Keeps.loopFrom F fun j rs hj => ?_) fun rs => Keeps.pure F _
    exact keeps_mixerSample (n := 8 * segmentCount s.eng.count.value) _ _ _ _ (by omega) fun a ha => ha
  · exact keeps_expSave _ fun b h1 h2 => ⟨h1, h2⟩

/-- ENVMIXER_LIN touches its four channel buffers and its 80-byte block. -/
theorem envmixerLin_within (init : Bool) (w : Word) (s : State) :
    KeepsAt (Within EngSame (mixTouched (linBufs s) (linCount s.eng.count.value)) (inMain (s.resolved w) 80))
      (envmixerLin init w) s := by
  have F := framing_same (mixTouched (linBufs s) (linCount s.eng.count.value)) (inMain (s.resolved w) 80)
  refine KeepsAt.silent_bind F (Silent.blockBase w) fun a h1 => ?_
  refine KeepsAt.silent_bind F (Silent.readReg _ _) fun inp h2 => ?_
  refine KeepsAt.silent_bind F (Silent.readReg _ _) fun dl h3 => ?_
  refine KeepsAt.silent_bind F (Silent.readReg _ _) fun count h4 => ?_
  refine KeepsAt.silent_bind F (Silent.readReg _ _) fun dr h5 => ?_
  refine KeepsAt.silent_bind F (Silent.readReg _ _) fun wl h6 => ?_
  refine KeepsAt.silent_bind F (Silent.readReg _ _) fun wr h7 => ?_
  refine KeepsAt.silent_bind F (Silent.linLoad _ _) fun x _ => ?_
  obtain ⟨rfl, -, -⟩ := blockBase_ok_iff.1 h1
  obtain ⟨-, rfl, -⟩ := readReg_ok_iff.1 h2
  obtain ⟨-, rfl, -⟩ := readReg_ok_iff.1 h3
  obtain ⟨-, rfl, -⟩ := readReg_ok_iff.1 h4
  obtain ⟨-, rfl, -⟩ := readReg_ok_iff.1 h5
  obtain ⟨-, rfl, -⟩ := readReg_ok_iff.1 h6
  obtain ⟨-, rfl, -⟩ := readReg_ok_iff.1 h7
  refine (Keeps.bind F (Keeps.loopFrom F fun p rs hp => ?_) fun rs => ?_ : Keeps _ _) s
  · exact keeps_mixerSample _ _ _ _ hp fun a ha => ha
  · exact keeps_linSave _ fun b h1 h2 => ⟨h1, h2⟩

/-! ## The nead mixer -/

theorem keeps_accumulate {E : Engine → Engine → Prop} (hE : EngFraming E) {b p n : Nat} (v : Int) (hp : p < n)
    (h : ∀ a, inScratch b (2 * n) a → S a) : Keeps (Within E S M) (accumulate (b + 2 * p) v) := by
  have F := within_framing hE S M
  refine Keeps.bind F ((Silent.d16 _).keeps F) fun old => keeps_d16w hE _ (h _ (inScratch_offset (by omega))) ?_
  have := h _ (inScratch_offset (base := b) (i := 2 * p + 1) (n := 2 * n) (by omega))
  rwa [← Nat.add_assoc] at this

/-- ENVMIXER_NEAD touches its channel buffers and the three envelope values. -/
theorem envmixerNead_within (inp count : Byte) (swap xorWl xorWr xorDl xorDr : Bool) (dl dr wl wr : Byte) (s : State) :
    KeepsAt (Within EnvOnly (neadTouched (neadBufs inp swap dl dr wl wr) (8 * groupCount count)) fun _ => False)
      (envmixerNead inp count swap xorWl xorWr xorDl xorDr dl dr wl wr) s := by
  have F := within_framing envOnly_framing (neadTouched (neadBufs inp swap dl dr wl wr) (8 * groupCount count)) fun _ => False
  iterate 6 refine KeepsAt.silent_bind F (Silent.readReg _ _) fun _ _ => ?_
  refine (Keeps.bind F (Keeps.loopFrom F fun g ev hg => ?_) fun x => Keeps.pure F _ : Keeps _ _) s
  refine Keeps.bind F (Keeps.loop F fun i hi => ?_) fun _ => Keeps.bind F ?_ fun _ => Keeps.pure F _
  · refine Keeps.bind F ((Silent.d16 _).keeps F) fun x => ?_
    refine Keeps.bind F (keeps_accumulate (n := 8 * groupCount count) envOnly_framing _ (by omega) fun a ha => .inl ha) fun _ => ?_
    refine Keeps.bind F (keeps_accumulate (n := 8 * groupCount count) envOnly_framing _ (by omega) fun a ha => .inr (.inl ha)) fun _ => ?_
    refine Keeps.bind F (keeps_accumulate (n := 8 * groupCount count) envOnly_framing _ (by omega) fun a ha =>
      .inr (.inr (.inl ha))) fun _ => ?_
    exact keeps_accumulate (n := 8 * groupCount count) envOnly_framing _ (by omega) fun a ha => .inr (.inr (.inr ha))
  · exact keeps_setEng fun e => rfl

/-! ## The resampler -/

/-- RESAMPLE touches the 8 bytes below its input, its output buffer and the 10 bytes of its state block. -/
theorem resample_within (init : Bool) (pitch : Half) (w : Word) (s : State) :
    KeepsAt (Within EngSame
        (fun a => inScratch (s.eng.inp.value - 8).toNat 8 a ∨ inScratch s.outAddr (2 * outputCount s.eng.count.value) a)
        (inMain (s.resolved w) 10))
      (resample init pitch w) s := by
  have F := framing_same
    (fun a => inScratch (s.eng.inp.value - 8).toNat 8 a ∨ inScratch s.outAddr (2 * outputCount s.eng.count.value) a)
    (inMain (s.resolved w) 10)
  refine KeepsAt.silent_bind F (Silent.blockBase w) fun a h1 => ?_
  refine KeepsAt.silent_bind F (Silent.readReg _ _) fun inp h2 => ?_
  refine KeepsAt.silent_bind F (Silent.readReg _ _) fun out h3 => ?_
  refine KeepsAt.silent_bind F (Silent.readReg _ _) fun count h4 => ?_
  obtain ⟨rfl, -, -⟩ := blockBase_ok_iff.1 h1
  obtain ⟨-, rfl, -⟩ := readReg_ok_iff.1 h2
  obtain ⟨-, rfl, -⟩ := readReg_ok_iff.1 h3
  obtain ⟨-, rfl, -⟩ := readReg_ok_iff.1 h4
  have hw : ∀ t, t < 4 → ∀ v, Keeps (Within EngSame
      (fun a => inScratch (s.eng.inp.value - 8).toNat 8 a ∨ inScratch s.outAddr (2 * outputCount s.eng.count.value) a)
      (inMain (s.resolved w) 10)) (d16w ((s.eng.inp.value - 8).toNat + 2 * t) v) := fun t ht v =>
    keeps_d16w engSame_framing v (.inl (inScratch_offset (by omega)))
      (.inl (by rw [Nat.add_assoc]; exact inScratch_offset (by omega)))
  refine (Keeps.bind F ?_ fun x => Keeps.bind F (Keeps.loopFrom F fun j x hj => ?_) fun x => ?_ : Keeps _ _) s
  · unfold startWindow
    split
    · exact Keeps.bind F (Keeps.loop F fun t ht => hw t ht 0) fun _ => Keeps.pure F _
    · refine Keeps.bind F (Keeps.loop F fun t ht => Keeps.bind F ((Silent.memRead16 _).keeps F) fun v => hw t ht _) fun _ => ?_
      exact Keeps.bind F ((Silent.memRead16 _).keeps F) fun _ => Keeps.pure F _
  · refine Keeps.bind F ?_ fun y => Keeps.bind F ?_ fun _ => Keeps.pure F _
    · refine Silent.keeps F (Silent.bind Silent.getParams fun _ => ?_)
      iterate 4 refine Silent.bind (Silent.d16 _) fun _ => ?_
      exact Silent.bind (Silent.acc32 _) fun _ => Silent.pure _
    · exact keeps_d16w engSame_framing _ (.inr (inScratch_offset (by omega)))
        (.inr (by rw [Nat.add_assoc]; exact inScratch_offset (by omega)))
  · refine Keeps.bind F ((Silent.checkStore _ _).keeps F) fun _ => Keeps.bind F (Keeps.loop F fun t ht => ?_) fun _ => ?_
    · exact Keeps.bind F ((Silent.d16 _).keeps F) fun v =>
        keeps_memWrite16 engSame_framing _ fun b h1 h2 => ⟨by omega, by omega⟩
    · exact keeps_memWrite16 engSame_framing _ fun b h1 h2 => ⟨by omega, by omega⟩

end

end Sys2Proof.Machine
end

