-- ==== Sys2Proof/Laws/PerInstr.lean ====
section
/-! SUPPORT. Laws/PerInstr.lean: for each instruction, the first word it is encoded to matches its own row of the opcode
table. -/

namespace Sys2Proof.Laws

/-- A first word has its opcode in the top byte and its flags below, whatever its low half. -/
theorem packWord0_and_flags (op flags : Byte) (low : Half) (m : Half) :
    packWord0 op flags low &&& (m ++ (0 : Half)) = ((op ++ flags) &&& m) ++ (0 : Half) := by
  unfold packWord0
  apply BitVec.eq_of_getLsbD_eq
  intro i hi
  simp only [BitVec.getLsbD_and, BitVec.getLsbD_append]
  by_cases h : i < 16 <;> simp [h]

/-- The first word of a well-formed instruction matches the instruction's own row of the opcode table. -/
def FirstWordInRow.Statement (i : Instr) : Prop := i.wf = true → (encodeWords i).1 &&& i.row.2 = i.row.1

namespace FirstWordInRow

theorem noop : Statement .noop := by
  intro _
  decide

theorem adpcm (init loop twobit : Bool) (lfa : Word) : Statement (.adpcm init loop twobit lfa) := by
  intro _
  cases init <;> cases loop <;> cases twobit <;> exact packWord0_and_flags 0x01 _ 0 0xFF00

theorem clearbuff (dmem count : Half) : Statement (.clearbuff dmem count) := by
  intro _
  exact packWord0_and_flags 0x02 0 dmem 0xFF00

theorem envmixer (init aux : Bool) (block : Word) : Statement (.envmixer init aux block) := by
  intro _
  cases init <;> cases aux <;> exact packWord0_and_flags 0x03 _ 0 0xFF00

theorem resample (init : Bool) (pitch : Half) (state : Word) : Statement (.resample init pitch state) := by
  intro _
  cases init <;> exact packWord0_and_flags 0x05 _ pitch 0xFF02

theorem resampleFlag2 : Statement .resampleFlag2 := by
  intro _
  decide

theorem setbuff (inp out count : Half) : Statement (.setbuff inp out count) := by
  intro _
  exact packWord0_and_flags 0x08 0 inp 0xFF08

theorem setbuffAux (dryRight wetLeft wetRight : Half) : Statement (.setbuffAux dryRight wetLeft wetRight) := by
  intro _
  exact packWord0_and_flags 0x08 _ dryRight 0xFF08

theorem setvolAux (dry wet : Half) : Statement (.setvolAux dry wet) := by
  intro _
  exact packWord0_and_flags 0x09 _ dry 0xFF08

theorem setvolVol (side : Side) (vol : Half) : Statement (.setvolVol side vol) := by
  intro _
  cases side <;> exact packWord0_and_flags 0x09 _ vol 0xFF0C

theorem setvol (side : Side) (target : Half) (rate : Word) : Statement (.setvol side target rate) := by
  intro _
  cases side <;> exact packWord0_and_flags 0x09 _ target 0xFF0C

theorem loadadpcm (count : Half) (addr : Word) : Statement (.loadadpcm count addr) := by
  intro _
  exact packWord0_and_flags 0x0B 0 count 0xFF00

theorem setloop (addr : Word) : Statement (.setloop addr) := by
  intro _
  exact packWord0_and_flags 0x0F 0 0 0xFF00

theorem envmixerLin (init : Bool) (block : Word) : Statement (.envmixerLin init block) := by
  intro _
  cases init <;> exact packWord0_and_flags 0x10 _ 0 0xFF00

theorem envsetup1 (value2 : Byte) (step2 step0 step1 : Half) : Statement (.envsetup1 value2 step2 step0 step1) := by
  intro _
  exact (packWord0_and_flags 0x12 value2 step2 0xFF00).trans ((by decide : ∀ v : Byte, ((0x12 : Byte) ++ v &&& (0xFF00 : Half)) ++ (0 : Half) = (0x12000000 : Word)) value2)

theorem envmixerNead (inp count : Byte) (swap xorWl xorWr xorDl xorDr : Bool) (dl dr wl wr : Byte) : Statement (.envmixerNead inp count swap xorWl xorWr xorDl xorDr dl dr wl wr) := by
  intro _
  exact (packWord0_and_flags 0x13 inp _ 0xFF00).trans ((by decide : ∀ v : Byte, ((0x13 : Byte) ++ v &&& (0xFF00 : Half)) ++ (0 : Half) = (0x13000000 : Word)) inp)

theorem envsetup2 (value0 value1 : Half) : Statement (.envsetup2 value0 value1) := by
  intro _
  exact packWord0_and_flags 0x16 0 0 0xFF00

theorem loadbuff : Statement .loadbuff := by
  intro _
  decide

theorem savebuff : Statement .savebuff := by
  intro _
  decide

theorem segment : Statement .segment := by
  intro _
  decide

theorem dmemmove : Statement .dmemmove := by
  intro _
  decide

theorem mixer : Statement .mixer := by
  intro _
  decide

theorem interleave : Statement .interleave := by
  intro _
  decide

theorem polef : Statement .polef := by
  intro _
  decide

theorem slot11 : Statement .slot11 := by
  intro _
  decide

theorem slot14 : Statement .slot14 := by
  intro _
  decide

theorem slot15 : Statement .slot15 := by
  intro _
  decide

theorem slot17 : Statement .slot17 := by
  intro _
  decide

theorem slot18 : Statement .slot18 := by
  intro _
  decide

theorem slot19 : Statement .slot19 := by
  intro _
  decide

theorem slot1A : Statement .slot1A := by
  intro _
  decide

theorem slot1B : Statement .slot1B := by
  intro _
  decide

theorem slot1C : Statement .slot1C := by
  intro _
  decide

theorem slot1D : Statement .slot1D := by
  intro _
  decide

theorem slot1E : Statement .slot1E := by
  intro _
  decide

theorem slot1F : Statement .slot1F := by
  intro _
  decide

theorem beyond20 (op : Byte) : Statement (.beyond20 op) := by
  intro h
  revert h
  revert op
  decide

theorem beyond40 (op : Byte) : Statement (.beyond40 op) := by
  intro h
  revert h
  revert op
  decide

theorem beyond80 (op : Byte) : Statement (.beyond80 op) := by
  intro h
  revert h
  revert op
  decide

end FirstWordInRow

end Sys2Proof.Laws
end

