-- ==== Sys2Proof/Laws/Step.lean ====
section
/-! SUPPORT. Laws/Step.lean: what a step is in each status, and what fetch reads. -/

namespace Sys2Proof.Machine

/-- Fetch reads the two words at cp and moves cp on, or is refused where they leave main memory. -/
theorem fetch_apply (s : State) :
    fetch s = if s.cp + 8 ≤ s.params.mmSize then .ok (s.mmWord s.cp, s.mmWord (s.cp + 4)) { s with cp := s.cp + 8 }
      else .error (.refuse .mmRange) s := by
  unfold fetch
  rw [bind_of_ok (look_apply _ _)]
  split
  · next h =>
    rw [bind_of_ok (memRead32_of_le (by omega)), bind_of_ok (memRead32_of_le (by omega)), bind_of_ok (change_apply _ _)]
    rfl
  · next h =>
    by_cases h4 : s.cp + 4 ≤ s.params.mmSize
    · rw [bind_of_ok (memRead32_of_le h4)]
      exact bind_of_error (memRead32_range (by omega))
    · exact bind_of_error (memRead32_range (by omega))

theorem step_idle {s : State} (h : s.status = .idle) : step s = idleStep s := by unfold step; rw [h]

theorem idleStep_nil {s : State} (h : s.host = []) : idleStep s = .next s := by unfold idleStep; rw [h]

theorem idleStep_cons {s : State} {a : HostAction} {rest : List HostAction} (h : s.host = a :: rest) :
    idleStep s = runAct (hostAction a) { s with host := rest } := by unfold idleStep; rw [h]

theorem step_end {s : State} (h : s.status = .running) (he : s.cp = s.cend) : step s = .next (endOfList s) := by
  unfold step; rw [h]; exact if_pos he

theorem step_command {s : State} (h : s.status = .running) (he : s.cp ≠ s.cend) : step s = commandStep s := by
  unfold step; rw [h]; exact if_neg he

theorem step_faulted {s : State} {k : FaultKind} (h : s.status = .faulted k) : step s = (Stop.fault k).outcome s := by
  unfold step; rw [h]

theorem step_refused {s : State} {r : RefuseReason} (h : s.status = .refused r) : step s = (Stop.refuse r).outcome s := by
  unfold step; rw [h]

/-- A command step inside main memory is the command the two words decode to. -/
theorem commandStep_in_range {s : State} (h : s.cp + 8 ≤ s.params.mmSize) :
    commandStep s = exec (decodeWords (s.mmWord s.cp) (s.mmWord (s.cp + 4))) { s with cp := s.cp + 8 } := by
  unfold commandStep; rw [fetch_apply, if_pos h]

theorem commandStep_out_of_range {s : State} (h : s.params.mmSize < s.cp + 8) :
    commandStep s = (Stop.refuse .mmRange).outcome s := by
  unfold commandStep; rw [fetch_apply, if_neg (by omega)]

/-- A step that answers a next state is a host action, nothing asked for, the end of the list or a fetched command. -/
theorem step_next_cases {s t : State} (h : step s = .next t) :
    (s.status = .idle ∧ s.host = [] ∧ t = s) ∨
    (∃ a rest, s.status = .idle ∧ s.host = a :: rest ∧ runAct (hostAction a) { s with host := rest } = .next t) ∨
    (s.status = .running ∧ s.cp = s.cend ∧ t = endOfList s) ∨
    (s.status = .running ∧ s.cp ≠ s.cend ∧ s.cp + 8 ≤ s.params.mmSize ∧
      exec (decodeWords (s.mmWord s.cp) (s.mmWord (s.cp + 4))) { s with cp := s.cp + 8 } = .next t) := by
  cases hs : s.status with
  | idle =>
    rw [step_idle hs] at h
    cases hh : s.host with
    | nil =>
      rw [idleStep_nil hh] at h
      cases h
      exact .inl ⟨rfl, rfl, rfl⟩
    | cons a rest =>
      rw [idleStep_cons hh] at h
      exact .inr (.inl ⟨a, rest, rfl, rfl, hs ▸ h⟩)
  | running =>
    by_cases he : s.cp = s.cend
    · rw [step_end hs he] at h
      cases h
      exact .inr (.inr (.inl ⟨rfl, he, rfl⟩))
    · rw [step_command hs he] at h
      by_cases hr : s.cp + 8 ≤ s.params.mmSize
      · rw [commandStep_in_range hr] at h
        exact .inr (.inr (.inr ⟨rfl, he, hr, hs ▸ h⟩))
      · rw [commandStep_out_of_range (by omega)] at h
        simp [Stop.outcome] at h
  | faulted k =>
    rw [step_faulted hs] at h
    simp [Stop.outcome] at h
  | refused r =>
    rw [step_refused hs] at h
    simp [Stop.outcome] at h

end Sys2Proof.Machine
end

