-- ==== Sys2Proof/Tests/Slice0.lean ====
section
/-! SUPPORT. Tests/Slice0.lean: the model's own tests. Expected results come from the spec's layouts (30_encoding.md), the
examples of its rules and its vectors (95_test_vectors.md; each test names its vector), never from the model. The last part
gives, for each statement with hypotheses, states and operands that meet them. -/

namespace Sys2Proof.Tests

set_option maxRecDepth 100000
set_option Elab.async false

open Sys2Proof Sys2Proof.Machine

/-! ## Well-formedness (R103): opcodes outside their row's range are refused -/

theorem test_wf_beyond20_low : (Instr.beyond20 0x1F).wf = false := by decide
theorem test_wf_beyond20_high : (Instr.beyond20 0x40).wf = false := by decide
theorem test_wf_beyond40_low : (Instr.beyond40 0x3F).wf = false := by decide
theorem test_wf_beyond40_high : (Instr.beyond40 0x80).wf = false := by decide
theorem test_wf_beyond80_low : (Instr.beyond80 0x7F).wf = false := by decide
theorem test_wf_ranges : (Instr.beyond20 0x20).wf ∧ (Instr.beyond20 0x3F).wf ∧ (Instr.beyond40 0x40).wf ∧
    (Instr.beyond40 0x7F).wf ∧ (Instr.beyond80 0x80).wf ∧ (Instr.beyond80 0xFF).wf := by decide

/-! ## Decoding: words written out from the layouts R107 to R119 and the vectors' own words -/

theorem test_decode_noop : decodeWords 0x00FFFFFF 0xFFFFFFFF = .noop := by decide
theorem test_decode_adpcm : decodeWords 0x01050000 0x00020000 = .adpcm true false true 0x20000 ∧
    decodeWords 0x01020000 0x00020000 = .adpcm false true false 0x20000 := by decide
theorem test_decode_clearbuff : decodeWords 0x02000200 0x00000040 = .clearbuff 0x200 0x40 := by decide
theorem test_decode_envmixer : decodeWords 0x03090000 0x00050000 = .envmixer true true 0x50000 ∧
    decodeWords 0x03080000 0x00050000 = .envmixer false true 0x50000 := by decide
theorem test_decode_resample : decodeWords 0x05018000 0x00040000 = .resample true 0x8000 0x40000 := by decide
theorem test_decode_resampleFlag2 : decodeWords 0x05038000 0x00040000 = .resampleFlag2 := by decide
theorem test_decode_setbuff : decodeWords 0x08F70100 0x02000010 = .setbuff 0x100 0x200 0x10 := by decide
theorem test_decode_setbuffAux : decodeWords 0x08FF0123 0x45678ABC = .setbuffAux 0x0123 0x4567 0x8ABC := by decide
theorem test_decode_setvolAux : decodeWords 0x09088000 0xFFFF7FFF = .setvolAux 0x8000 0x7FFF := by decide
theorem test_decode_setvolVol : decodeWords 0x09068000 0x12345678 = .setvolVol .left 0x8000 ∧
    decodeWords 0x09047000 0x00000000 = .setvolVol .right 0x7000 := by decide
theorem test_decode_setvol : decodeWords 0x09027000 0x00018000 = .setvol .left 0x7000 0x18000 ∧
    decodeWords 0x0900F000 0xFFF80000 = .setvol .right 0xF000 0xFFF80000 := by decide
theorem test_decode_loadadpcm : decodeWords 0x0B000060 0x00010000 = .loadadpcm 0x60 0x10000 := by decide
theorem test_decode_setloop : decodeWords 0x0FFFFFFF 0x12345678 = .setloop 0x12345678 := by decide
theorem test_decode_envmixerLin : decodeWords 0x10010000 0x00050000 = .envmixerLin true 0x50000 := by decide
theorem test_decode_envsetup1 : decodeWords 0x12FF1234 0xABCD5678 = .envsetup1 0xFF 0x1234 0xABCD 0x5678 := by decide
theorem test_decode_envmixerNead : decodeWords 0x1310081C 0x20304050
    = .envmixerNead 0x10 0x08 true true true false false 0x20 0x30 0x40 0x50 := by decide
theorem test_decode_envmixerNead_dry : decodeWords 0x13101002 0x20304050
    = .envmixerNead 0x10 0x10 false false false true false 0x20 0x30 0x40 0x50 := by decide
theorem test_decode_envsetup2 : decodeWords 0x16FFFFFF 0x0001FFFF = .envsetup2 0x0001 0xFFFF := by decide
theorem test_decode_outside : decodeWords 0x04000000 0 = .loadbuff ∧ decodeWords 0x06000000 0 = .savebuff ∧
    decodeWords 0x07000000 0 = .segment ∧ decodeWords 0x0A000000 0 = .dmemmove ∧ decodeWords 0x0C000000 0 = .mixer ∧
    decodeWords 0x0D000000 0 = .interleave ∧ decodeWords 0x0E000000 0 = .polef := by decide
theorem test_decode_none : decodeWords 0x11000000 0 = .slot11 ∧ decodeWords 0x14000000 0 = .slot14 ∧
    decodeWords 0x15000000 0 = .slot15 ∧ decodeWords 0x17000000 0 = .slot17 ∧ decodeWords 0x18000000 0 = .slot18 ∧
    decodeWords 0x19000000 0 = .slot19 ∧ decodeWords 0x1A000000 0 = .slot1A ∧ decodeWords 0x1B000000 0 = .slot1B ∧
    decodeWords 0x1C000000 0 = .slot1C ∧ decodeWords 0x1D000000 0 = .slot1D ∧ decodeWords 0x1E000000 0 = .slot1E ∧
    decodeWords 0x1F000000 0 = .slot1F := by decide
theorem test_decode_beyond : decodeWords 0x20ABCDEF 0x12345678 = .beyond20 0x20 ∧
    decodeWords 0x7F000000 0 = .beyond40 0x7F ∧ decodeWords 0xFF000000 0 = .beyond80 0xFF := by decide
theorem test_decode_truncated : decode [0x08, 0, 0, 0, 0x02, 0, 0] = .error .truncated := rfl
theorem test_decodeTableWord : decodeTableWord 64 0x0200004008000100 = some (.setbuff 0x100 0x200 0x40) ∧
    decodeTableWord 32 0x10010000 = some (.envmixerLin true 0) := by decide

/-! ## Helpers: small states, and one step of one command -/

/-- The vectors' table `TLUT`. -/
def tlut : Lut := Vector.ofFn fun k : Fin 64 =>
  ⟨0, BitVec.ofNat 16 (0x4000 - 256 * k.val), BitVec.ofNat 16 (0x4000 + 256 * k.val), 0⟩

/-- The vectors' start state, with the next command to be fetched at 0x8000. -/
def start : State :=
  { State.reset with
    params := { mmSize := 0x100000, resolve := .low24, lut := tlut, accOverflow := .fault, dmemBase := 0 }
    cp := 0x8000 }

/-- Every buffer, mixer and nead register of the vectors' common lists, the first 32 codebook entries 0 and the next 32
those of A14's block, `E[count]` as given. -/
def engine (count : Half) : Engine :=
  { Engine.blank with
    inp := .of 0x100, out := .of 0x200, count := .of count
    dryRight := .of 0x300, wetLeft := .of 0x400, wetRight := .of 0x500
    dry := .of 0x7FFF, wet := .of 0x4000
    volLeft := .of 0x1000, volRight := .of 0x7000, targetLeft := .of 0x7000, targetRight := .of 0x1000
    rateLeft := .of 0x18000, rateRight := .of 0xAAAA, loop := .of 0x30000
    codebook := Vector.ofFn fun i : Fin 128 => if i.val < 16 then .of 0 else if i.val < 24 then .of 1024
      else if i.val < 32 then .of 512 else .blank
    envValue0 := .of 0x8000, envValue1 := .of 0x4000, envValue2 := .of 0x8000
    envStep0 := .of 0x0800, envStep1 := .of 0xF800, envStep2 := .of 0x0100 }

/-- Bytes in a memory from an address up. -/
def bytes (m : Mem) (a : Nat) (bs : List Byte) : Mem := m.writeBytes a bs

/-- n samples in a memory from an address up. -/
def fill (m : Mem) (a n : Nat) (v : Half) : Mem := bytes m a (List.replicate n [v.extractLsb' 8 8, v.extractLsb' 0 8]).flatten

/-- The start state with those registers, and free values to draw. -/
def ready (count : Half) : State := { start with eng := engine count, supply := List.replicate 64 0xA5A5 }

/-- One step of the command of two words. -/
def run (s : State) (w0 w1 : Word) : Host.Outcome State Fault Refusal := step (placeCommand s (wordBytes w0 ++ wordBytes w1))

/-- The state at an outcome. -/
def final : Host.Outcome State Fault Refusal → State
  | .next t => t
  | .fault f => f.last
  | .refused r => (r.stopped.map (·.2)).getD State.reset

/-- The outcome is a next state. -/
def ends : Host.Outcome State Fault Refusal → Bool
  | .next _ => true
  | .fault _ => false
  | .refused _ => false

/-- The reason of an outcome that is a refusal. -/
def reason : Host.Outcome State Fault Refusal → Option RefuseReason
  | .refused r => r.stopped.map (·.1)
  | .next _ => none
  | .fault _ => none

/-- The kind of an outcome that is a fault. -/
def kind : Host.Outcome State Fault Refusal → Option FaultKind
  | .fault f => some f.kind
  | .next _ => none
  | .refused _ => none

/-- n samples of scratch from an address up. -/
def samples (s : State) (a n : Nat) : List Int := (List.range n).map fun i => s.sample (a + 2 * i)

/-- n halves of main memory from an address up, signed. -/
def halves (s : State) (a n : Nat) : List Int := (List.range n).map fun i => (s.mmHalf (a + 2 * i)).toInt

theorem next_of_ends {o : Host.Outcome State Fault Refusal} (h : ends o = true) : ∃ t, o = .next t := by
  cases o with
  | next t => exact ⟨t, rfl⟩
  | fault f => cases h
  | refused r => cases h

/-! ## One step of each command, with the vectors' results -/

/-- T18: only cp moves. -/
theorem test_noop : (final (run start 0x00FFFFFF 0xFFFFFFFF)).cp = 0x8008 ∧
    (final (run start 0x00FFFFFF 0xFFFFFFFF)).eng = Engine.blank := by decide +kernel

/-- T2b, with `DMEM_BASE` = 0xFFF0. -/
theorem test_setbuff : (final (run { start with params := { start.params with dmemBase := 0xFFF0 } } 0x08000020 0x02000010)).eng
    = { Engine.blank with inp := .of 0x0010, out := .of 0x01F0, count := .of 16 } := by decide +kernel

/-- T1. -/
theorem test_setbuffAux : (final (run start 0x08FF0123 0x45678ABC)).eng
    = { Engine.blank with dryRight := .of 0x0123, wetLeft := .of 0x4567, wetRight := .of 0x8ABC } := by decide +kernel

/-- T3. -/
theorem test_setvolAux : (final (run start 0x09088000 0xFFFF7FFF)).eng.dry.value.toInt = -32768 ∧
    (final (run start 0x09088000 0xFFFF7FFF)).eng.wet.value.toInt = 32767 := by decide +kernel

/-- T4. -/
theorem test_setvolVol : (final (run start 0x09068000 0x12345678)).eng
    = { Engine.blank with volLeft := .of 0x8000 } := by decide +kernel

/-- T5. -/
theorem test_setvol : (final (run start 0x0900F000 0xFFF80000)).eng.targetRight.value.toInt = -4096 ∧
    (final (run start 0x0900F000 0xFFF80000)).eng.rateRight.value.toInt = -524288 := by decide +kernel

/-- T6. -/
theorem test_setloop : (final (run start 0x0FFFFFFF 0x12345678)).eng
    = { Engine.blank with loop := .of 0x345678 } := by decide +kernel

/-- T7: a count of 1 loads 4 entries. -/
theorem test_loadadpcm : (final (run { start with mm := bytes [] 0x10000 [0, 1, 0xFF, 0xFE, 0, 3, 0xFF, 0xFC, 0, 5] }
    0x0B000001 0x00010000)).eng.codebook
      = (((((Vector.replicate 128 .blank).set 0 (.of 1)).set 1 (.of 0xFFFE)).set 2 (.of 3)).set 3 (.of 0xFFFC)) := by
  decide +kernel

/-- T11: refused at the first entry beyond `MM_SIZE`, with the earlier ones loaded. -/
theorem test_loadadpcm_range :
    reason (run { start with mm := bytes [] 0xFFFF8 [0, 1, 0, 2, 0, 3, 0, 4] } 0x0B000010 0x000FFFF8) = some .mmRange ∧
    (final (run { start with mm := bytes [] 0xFFFF8 [0, 1, 0, 2, 0, 3, 0, 4] } 0x0B000010 0x000FFFF8)).eng.codebook.get 3
      = .of 4 := by decide +kernel

/-- T12: the range wraps at 65536. -/
theorem test_clearbuff_wraps : (List.map (fun a => (final (run { start with
      sm := bytes (bytes [] 0xFFF6 (List.replicate 10 0xAA)) 0 (List.replicate 10 0xAA) } 0x02FFFFF8 0x00000010)).scratch a) [0xFFF7, 0xFFF8, 0xFFFF, 0, 7, 8])
    = [0xAA, 0, 0, 0, 0, 0xAA] := by decide +kernel

/-- T13: a count of 1 clears 16 bytes from an odd address. -/
theorem test_clearbuff_rounds : (List.map (fun a => (final (run { start with sm := bytes [] 0x200 (List.replicate 20 0xAA) }
      0x02000201 0x00000001)).scratch a) [0x200, 0x201, 0x210, 0x211]) = [0xAA, 0, 0, 0xAA] := by decide +kernel

/-- T16. -/
theorem test_envsetup1 : (final (run start 0x12FF1234 0xABCD5678)).eng
    = { Engine.blank with
        envValue2 := .of 0xFF00, envStep2 := .of 0x1234, envStep0 := .of 0xABCD, envStep1 := .of 0x5678 } := by
  decide +kernel

/-- T17. -/
theorem test_envsetup2 : (final (run start 0x16FFFFFF 0x0001FFFF)).eng
    = { Engine.blank with envValue0 := .of 0x0001, envValue1 := .of 0xFFFF } := by decide +kernel

/-- E1. -/
theorem test_beyond20 : (final (run start 0x20ABCDEF 0x12345678)).log = [.unknownOpcode 0x20 0x8000] := by decide +kernel

/-- E1's rule at 0x40 and 0x7F. -/
theorem test_beyond40 : (final (run start 0x40000000 0)).log = [.unknownOpcode 0x40 0x8000] ∧
    (final (run start 0x7F000000 0)).log = [.unknownOpcode 0x7F 0x8000] := by decide +kernel

/-- E2. -/
theorem test_beyond80 : (final (run start 0xFF000000 0)).log = [.unknownOpcode 0xFF 0x8000] := by decide +kernel

/-- E3, for every slot outside the block. -/
theorem test_outOfBlock : ∀ op ∈ [0x04, 0x06, 0x07, 0x0A, 0x0C, 0x0D, 0x0E, 0x11, 0x14, 0x15, 0x17, 0x18, 0x19, 0x1A, 0x1B,
    0x1C, 0x1D, 0x1E, 0x1F], reason (run start (BitVec.ofNat 32 (op * 0x1000000)) 0) = some .outOfBlockOpcode := by
  decide +kernel

/-- E4. -/
theorem test_resampleFlag2 : reason (run start 0x05028000 0x00040000) = some .resampleFlag2 := by decide +kernel

/-- A1: identity codebook, 4-bit frames, INIT. -/
theorem test_adpcm : samples (final (run { ready 0x20 with
      sm := bytes [] 0x100 [0x00, 0x01, 0x23, 0x45, 0x67, 0x89, 0xAB, 0xCD, 0xEF] } 0x01010000 0x00020000)) 0x220 16
    = [0, 1, 2, 3, 4, 5, 6, 7, -8, -7, -6, -5, -4, -3, -2, -1] := by decide +kernel

/-- A14's first frame, with both prediction vectors, and its write-back. -/
theorem test_adpcm_predicts : halves (final (run { ready 0x20 with
      sm := bytes [] 0x100 [0x21, 0x12, 0x34, 0x56, 0x78, 0x9A, 0xBC, 0xDE, 0xF0] } 0x01010000 0x00020000)) 0x20000 16
    = [4, 9, 15, 22, 30, 39, 49, -4, -5, -8, -10, -11, -11, -10, -8, -5] := by decide +kernel

/-- R205 with R12 and R346: with entries 0 to 3 loaded and block 0 selected, the loop looks up `book1[0]` and then
`book2[0]`, entry 8, which is the first unwritten one. -/
theorem test_adpcm_first_unwritten_entry : kind (exec (.adpcm true false false 0x20000) { ready 0x20 with
      eng := { engine 0x20 with codebook := Vector.ofFn fun i : Fin 128 => if i.val < 4 then .of 0 else .blank } })
    = some (.unwritten (.codebook 8)) := by decide +kernel

/-- X5: one segment of X1, in the dry-left buffer and in the block's seq and value. -/
theorem test_envmixer : samples (final (run { ready 1 with sm := fill [] 0x100 8 0x4000 } 0x03090000 0x00050000)) 0x200 9
      = [2368, 2688, 3008, 3328, 3648, 3968, 4288, 4608, 0] ∧
    (final (run { ready 1 with sm := fill [] 0x100 8 0x4000 } 0x03090000 0x00050000)).mmWord 0x5001C = 0x31C6B8E3 := by
  decide +kernel

/-- X9b's reload: the stalled ramp moves again and snaps to its target. -/
theorem test_envmixer_reload : samples (final (run { ready 0x10 with
      sm := fill [] 0x100 8 0x7FFF
      mm := bytes [] 0x50000 [0, 0, 0x40, 0, 0, 0, 0x7F, 0xFF, 0, 0, 0, 0, 0, 0, 0, 0, 0, 1, 0, 1, 0, 1, 0, 0,
        0, 3, 0, 6, 0, 0, 0, 0, 0, 3, 0, 0, 0, 0, 0, 0] } 0x03080000 0x00050000)) 0x200 8
    = [0, 0, 0, 0, 0, 0, 0, 0] := by decide +kernel

/-- Y1: the linear ramps of both channels. -/
theorem test_envmixerLin : samples (final (run { ready 8 with
      sm := fill [] 0x100 4 0x4000
      eng := { engine 8 with wet := .of 0x7FFF, volLeft := .of 0, targetLeft := .of 0x100, rateLeft := .of 0x80000
                             volRight := .of 0x100, targetRight := .of 0, rateRight := .of 0xFFF80000 } }
      0x10010000 0x00050000)) 0x500 5 = [128, 127, 127, 126, 0] := by decide +kernel

/-- Y4: the step divides toward zero. -/
theorem test_envmixerLin_tdiv : (final (run { ready 4 with
      eng := { engine 4 with volLeft := .of 5, targetLeft := .of 0, rateLeft := .of 0xFFFFFFF7
                             volRight := .of 5, targetRight := .of 0, rateRight := .of 0xFFFFFFF9 } }
      0x10010000 0x00050000)).mmBytes 0x50020 8 = [0, 4, 0xFF, 0xFE, 0, 5, 0, 0] := by decide +kernel

/-- N1, group 0's wet-left samples and the envelopes after both groups. -/
theorem test_envmixerNead : samples (final (run { ready 0 with sm := fill [] 0x100 16 0x4000 } 0x13101002 0x20304050)) 0x40E 2
      = [-4097, -4387] ∧
    (final (run { ready 0 with sm := fill [] 0x100 16 0x4000 } 0x13101002 0x20304050)).eng.envValue2 = .of 0x8200 := by
  decide +kernel

/-- N2: SWAP exchanges the wet destinations, not their masks. -/
theorem test_envmixerNead_swap : samples (final (run { ready 0 with sm := fill [] 0x100 8 0x4000 } 0x1310081C 0x20304050)) 0x400 1
      = [-2049] ∧
    samples (final (run { ready 0 with sm := fill [] 0x100 8 0x4000 } 0x1310081C 0x20304050)) 0x500 1 = [-4097] := by
  decide +kernel

/-- The input of the resampler's vectors. -/
def ramp100 : Mem := bytes [] 0x108 (((List.range 16).map fun i =>
  [(BitVec.ofNat 16 (100 * (i + 1))).extractLsb' 8 8, (BitVec.ofNat 16 (100 * (i + 1))).extractLsb' 0 8]).flatten)

/-- S3: ratio 1.5. -/
theorem test_resample : samples (final (run { ready 0x10 with
      sm := ramp100, eng := { engine 0x10 with inp := .of 0x108, out := .of 0x400 } } 0x0501C000 0x00040000)) 0x400 8
    = [0, 0, 150, 275, 450, 575, 750, 875] := by decide +kernel

/-- S4: the accumulator wraps, and the block saves the last window. -/
theorem test_resample_saves : halves (final (run { ready 0x10 with
      sm := ramp100, eng := { engine 0x10 with inp := .of 0x108, out := .of 0x400 } } 0x0501FFFF 0x00040000)) 0x40000 5
    = [1200, 1300, 1400, 1500, -16] := by decide +kernel

/-- A19 and A16: the two stops that ADPCM checks first in their turn. -/
theorem test_odd_and_misaligned :
    reason (run { ready 0x20 with eng := { engine 0x20 with out := .of 0x401 } } 0x01010000 0x00020000) = some .oddSampleAddr ∧
    reason (run (ready 0x20) 0x01010000 0x00020004) = some .mmAlign := by decide +kernel

/-- X8b: `vol·rate` leaves 32 bits. -/
theorem test_acc_overflow : kind (run { ready 0x10 with
      eng := { engine 0x10 with volRight := .of 0x4000, targetRight := .of 0x4000, rateRight := .of 0x20000 } }
      0x03090000 0x00050000) = some .accOverflow := by decide +kernel

/-- A18: the write-back over the unread list. -/
theorem test_cmdlist_write : reason (exec (.adpcm true false false 0x8018)
    { ready 0 with cp := 0x8018, cend := 0x8020 }) = some .cmdlistWrite := by decide +kernel

/-- P1b and R371: Invoke of an empty list; every register is unwritten after it. -/
theorem test_invoke_clears : (final (step { ready 0 with host := [.invoke 0x8000 0] })).eng.inp = ⟨0x100, false⟩ ∧
    (final (step { ready 0 with host := [.invoke 0x8000 0] })).status = .running := by decide +kernel

/-- The power-on state runs a command placed for it. -/
theorem test_withFetchWord : (final (step (State.reset.withFetchWord 64 0x0200004008000100))).eng.out = .of 0x200 := by
  decide +kernel

/-! ## Witnesses: states and operands that meet the hypotheses of each statement -/

/-- A list of one command at 0x8000, nothing of it run yet, with every register written and free values to draw. -/
def placed (count : Half) (w0 w1 : Word) : State := placeCommand (ready count) (wordBytes w0 ++ wordBytes w1)

/-- The same, with a NOOP after it in the list. -/
def placedThenNoop (count : Half) (w0 w1 : Word) : State := { placed count w0 w1 with cend := 0x8010 }

theorem fault_of_kind {o : Host.Outcome State Fault Refusal} {k : FaultKind} (h : kind o = some k) : ∃ f, o = .fault f := by
  cases o with
  | next t => cases h
  | fault f => exact ⟨f, rfl⟩
  | refused r => cases h

theorem refused_of_reason {o : Host.Outcome State Fault Refusal} {k : RefuseReason} (h : reason o = some k) :
    ∃ r t, o = .refused r ∧ r.stopped = some (k, t) := by
  cases o with
  | next t => cases h
  | fault f => cases h
  | refused r =>
    simp only [reason, Option.map_eq_some_iff] at h
    obtain ⟨⟨k', t⟩, h1, h2⟩ := h
    exact ⟨r, t, rfl, by rw [h1, ← h2]⟩

theorem witness_DecodeOfEncodeIsIdentity : (Instr.beyond20 0x3F).wf = true ∧ (Instr.beyond80 0x80).wf = true ∧
    (Instr.envmixerNead 0xFF 0xFF true true true true true 0xFF 0xFF 0xFF 0xFF).wf = true := by decide

theorem witness_UnnamedBitsAreIgnored :
    ((0x08F70100 : Word) ^^^ 0x08000100) &&& (namedBits (decodeWords 0x08F70100 0x02000010)).1 = 0 ∧
    ((0x02000010 : Word) ^^^ 0x02000010) &&& (namedBits (decodeWords 0x08F70100 0x02000010)).2 = 0 ∧
    (0x05FF0000 : Word).extractLsb' 24 8 = 0x05 ∧ (0x05FF0000 : Word).getLsbD 17 = true := by decide

theorem witness_EveryWordPairIsExactlyOneRow : (Instr.beyond20 0x20).wf = true ∧
    (0x3F000000 : Word) &&& (Instr.beyond20 0x20).row.2 = (Instr.beyond20 0x20).row.1 := by decide

theorem witness_EveryEightBytesAreOneCommand : 8 ≤ (List.replicate 8 (0 : Byte)).length ∧
    (List.replicate 7 (0 : Byte)).length < 8 := by decide

/-- The list's last 8 bytes of main memory. -/
theorem witness_StepRunsTheFetchedCommand :
    let s := { placed 16 0x02000200 0x00000040 with params := { start.params with mmSize := 0x8008 } }
    s.status = .running ∧ s.cp ≠ s.cend ∧ s.cp + 8 = s.params.mmSize ∧
      decode (s.mmBytes s.cp 8) = .ok (.clearbuff 0x200 0x40, []) :=
  ⟨rfl, by decide, by decide, by rfl⟩

theorem witness_EndOfListSetsIdle : ({ start with status := .running, cend := 0x8000 } : State).status = .running ∧
    ({ start with status := .running, cend := 0x8000 } : State).cp = ({ start with status := .running, cend := 0x8000 } : State).cend :=
  ⟨rfl, rfl⟩

/-- Each branch of Invoke: a length of 12, a base of 4, one list past `MM_SIZE`, one that just fits, and an empty one at
`MM_SIZE`. -/
theorem witness_InvokeMakesItsChecksInOrder : start.status = .idle ∧ 12 % 8 ≠ 0 ∧ (4 % 8 ≠ 0) ∧
    start.params.mmSize < 0xFFFF8 + 16 ∧ ¬ (start.params.mmSize < 0xFFFF8 + 8) ∧ 0xFFFF8 % 8 = 0 ∧ 0x100000 % 8 = 0 ∧
    0x100000 ≤ start.params.mmSize ∧
    ({ start with host := [.invoke 0xFFFF8 8] } : State).host = .invoke 0xFFFF8 8 :: [] :=
  ⟨rfl, by decide, by decide, by decide, by decide, by decide, by decide, by decide, rfl⟩

theorem witness_InvokeLeavesEveryRegisterUnwritten :
    ∃ t, (ready 16).status = .idle ∧ step { ready 16 with host := [.invoke 0xFFFF8 8] } = .next t :=
  (next_of_ends (by decide +kernel)).imp fun _ h => ⟨rfl, h⟩

theorem witness_HostActsBetweenInvocations : start.status = .idle ∧ (0x0FFFFF : Addr24).toNat < start.params.mmSize ∧
    start.params.mmSize ≤ (0x100000 : Addr24).toNat ∧
    ({ start with host := [.writeScratch 0xFFFF 1] } : State).host = .writeScratch 0xFFFF 1 :: [] ∧
    ({ start with host := [.writeMain 0x0FFFFF 1] } : State).host = .writeMain 0x0FFFFF 1 :: [] ∧
    ({ start with host := [.writeMain 0x100000 1] } : State).host = .writeMain 0x100000 1 :: [] ∧
    ({ start with host := [.setResolve (.table 1)] } : State).host = .setResolve (.table 1) :: [] :=
  ⟨rfl, by decide, by decide, rfl, rfl, rfl, rfl⟩

theorem witness_FaultedAndRefusedAreFinal :
    (∃ f, step (placeCommand start (wordBytes 0x01010000 ++ wordBytes 0x00020000)) = .fault f) ∧
    ∃ r t, step (placeCommand start (wordBytes 0x04000000 ++ wordBytes 0)) = .refused r ∧
      r.stopped = some (.outOfBlockOpcode, t) :=
  ⟨fault_of_kind (k := .unwritten .inp) (by decide +kernel), refused_of_reason (by decide +kernel)⟩

theorem witness_CommandsLeaveTheSequencerAlone : (∃ t, exec (.adpcm true false false 0x20000) (ready 0x20) = .next t) ∧
    ∃ t, exec (.beyond80 0xFF) (ready 0) = .next t :=
  ⟨next_of_ends (by decide +kernel), next_of_ends (by decide +kernel)⟩

/-- A command of each kind of register writer, and one that writes none. -/
theorem witness_OnlySetupCommandsWriteRegisters :
    (∃ t, exec (.setbuff 1 2 3) start = .next t) ∧ (∃ t, exec (.envsetup1 1 2 3 4) start = .next t) ∧
    (∃ t, exec (.envmixerNead 0x10 8 false false false false false 0x20 0x30 0x40 0x50) (ready 0) = .next t) ∧
    ∃ t, exec (.envmixer true true 0x50000) (ready 1) = .next t :=
  ⟨next_of_ends (by decide +kernel), next_of_ends (by decide +kernel), next_of_ends (by decide +kernel),
    next_of_ends (by decide +kernel)⟩

/-- The last byte of the unread list, with a command that ends beside it, one that faults and one that is refused. -/
theorem witness_NoCommandChangesTheUnreadList :
    let s := { ready 0 with cp := 0x20020, cend := 0x20028 }
    s.cp ≤ 0x20027 ∧ 0x20027 < s.cend ∧ (∃ t, exec (.adpcm true false false 0x20000) s = .next t) ∧
      (∃ f, exec (.adpcm true false false 0x20000) { s with eng := Engine.blank } = .fault f) ∧
      ∃ r t, exec (.adpcm true false false 0x20008) s = .refused r ∧ r.stopped = some (.cmdlistWrite, t) :=
  ⟨by decide, by decide, next_of_ends (by decide +kernel), fault_of_kind (k := .unwritten .inp) (by decide +kernel),
    refused_of_reason (by decide +kernel)⟩

theorem witness_TheListIsFetchedAsItStood :
    ∃ u, (placedThenNoop 16 0 0).status = .running ∧ (placedThenNoop 16 0 0).host = [] ∧
      Sys2Proof.core.run 1 (placedThenNoop 16 0 0) = .next u ∧ u.status = .running :=
  ⟨{ placedThenNoop 16 0 0 with cp := 0x8008 }, rfl, rfl, rfl, rfl⟩

theorem placed_inv : (placedThenNoop 16 0x08000100 0x02000040).Inv where
  smWf := Mem.wf_nil _
  mmWf := by decide +kernel
  mmSizeOk := ⟨by decide, by decide⟩
  list := fun _ => ⟨by decide, by decide, by decide, by decide⟩

theorem witness_EveryListTerminates :
    (placedThenNoop 16 0x08000100 0x02000040).Inv ∧ (placedThenNoop 16 0x08000100 0x02000040).status = .running ∧
      ∃ t, Sys2Proof.core.run (((placedThenNoop 16 0x08000100 0x02000040).cend - (placedThenNoop 16 0x08000100 0x02000040).cp) / 8 + 1)
        (placedThenNoop 16 0x08000100 0x02000040) = .next t :=
  ⟨placed_inv, rfl, next_of_ends (by decide +kernel)⟩

theorem witness_StepKeepsTheInvariant : (placedThenNoop 16 0x08000100 0x02000040).Inv ∧
    ∃ t, step (placedThenNoop 16 0x08000100 0x02000040) = .next t :=
  ⟨placed_inv, next_of_ends (by decide +kernel)⟩

theorem witness_FaultModeRefinesWrapMode :
    (∃ t, exec (.resample true 0x8000 0x40000) ((ready 16).withAcc .fault) = .next t) ∧
    (start.withAcc .wrap32).params.accOverflow = .wrap32 ∧
    ∃ f, exec (.resample true 0x8000 0x40000) (start.withAcc .wrap32) = .fault f :=
  ⟨next_of_ends (by decide +kernel), rfl, fault_of_kind (k := .unwritten .inp) (by decide +kernel)⟩

theorem witness_NoopChangesNothing : (0x00FFFFFF : Word).extractLsb' 24 8 = 0x00 := by decide

theorem witness_SetbuffSetsTheBufferRegisters : (0x08FF0123 : Word).extractLsb' 24 8 = 0x08 ∧
    (0x08F70100 : Word).extractLsb' 24 8 = 0x08 := by decide

theorem witness_SetloopSetsTheLoopAddress : (0x0FFFFFFF : Word).extractLsb' 24 8 = 0x0F := by decide

theorem witness_SetvolSetsGainsAndRamps : (0x09FF0000 : Word).extractLsb' 24 8 = 0x09 ∧
    (0x09060000 : Word).extractLsb' 24 8 = 0x09 ∧ (0x09000000 : Word).extractLsb' 24 8 = 0x09 := by decide

/-- Each branch of LOADADPCM at its boundary: 257 bytes and 256, a misaligned source, a source that ends at `MM_SIZE`, one
8 bytes past it, and count 0 at the last block. -/
theorem witness_LoadadpcmLoadsTheCodebook : 128 < ((257 : Half).toNat + 7) / 8 * 4 ∧
    ¬ (128 < ((256 : Half).toNat + 7) / 8 * 4) ∧ start.resolved 0x00010004 % 8 ≠ 0 ∧
    start.resolved 0x000FFFF8 + 2 * (((8 : Half).toNat + 7) / 8 * 4) ≤ start.params.mmSize ∧
    ¬ (start.resolved 0x000FFFF8 + 2 * (((9 : Half).toNat + 7) / 8 * 4) ≤ start.params.mmSize) ∧
    ((0 : Half).toNat + 7) / 8 * 4 = 0 ∧ start.resolved 0x000FFFF8 % 8 = 0 ∧
    (0x0BFF0060 : Word).extractLsb' 24 8 = 0x0B := by decide

/-- The first and last byte of a range that wraps, and the bytes beside it. -/
theorem witness_ClearbuffZeroesItsRange :
    inScratch (0xFFF8 + start.params.dmemBase : Half).toNat (((16 : Half).toNat + 15) / 16 * 16) 0xFFF8 ∧
    inScratch (0xFFF8 + start.params.dmemBase : Half).toNat (((16 : Half).toNat + 15) / 16 * 16) 7 ∧
    ¬ inScratch (0xFFF8 + start.params.dmemBase : Half).toNat (((16 : Half).toNat + 15) / 16 * 16) 0xFFF7 ∧
    ¬ inScratch (0xFFF8 + start.params.dmemBase : Half).toNat (((16 : Half).toNat + 15) / 16 * 16) 8 ∧
    (0x02FFFFF8 : Word).extractLsb' 24 8 = 0x02 := by
  unfold inScratch; decide

theorem witness_EnvsetupSetsTheNeadRegisters : (0x12FF1234 : Word).extractLsb' 24 8 = 0x12 ∧
    (0x16FFFFFF : Word).extractLsb' 24 8 = 0x16 := by decide

theorem witness_UnknownOpcodesOnlyWarn : 0x20 ≤ ((0x20ABCDEF : Word).extractLsb' 24 8).toNat ∧
    0x20 ≤ ((0xFF000000 : Word).extractLsb' 24 8).toNat := by decide

theorem witness_OutOfBlockSlotsAreRefused : Instr.slot1F ∈ outOfBlockRows ∧
    ((0x04ABCDEF : Word).extractLsb' 24 8).toNat ∈ [0x04, 0x06, 0x07, 0x0A, 0x0C, 0x0D, 0x0E, 0x11, 0x14, 0x15, 0x17, 0x18,
      0x19, 0x1A, 0x1B, 0x1C, 0x1D, 0x1E, 0x1F] := by decide

/-- The last even and odd scratch addresses. -/
theorem witness_ScratchSamplesRoundTrip : 65534 % 2 = 0 ∧ 65535 % 2 ≠ 0 ∧ 0 % 2 = 0 ∧ 2 % 65536 ≠ 65534 % 65536 ∧
    2 % 65536 ≠ (65534 + 1) % 65536 := by decide

/-- Main memory: the last word and half, one byte past them, and a word that ends in the first byte of the unread list. -/
theorem witness_MainMemoryRoundTrip :
    let s := { start with cp := 0x8000, cend := 0x8008 }
    0xFFFFC + 4 ≤ s.params.mmSize ∧ (∀ b, 0xFFFFC ≤ b → b < 0xFFFFC + 4 → ¬ (s.cp ≤ b ∧ b < s.cend)) ∧
      s.params.mmSize < 0xFFFFD + 4 ∧ (∃ b, 0x7FFD ≤ b ∧ b < 0x7FFD + 4 ∧ s.cp ≤ b ∧ b < s.cend) ∧
      0xFFFFE + 2 ≤ s.params.mmSize ∧ (∀ b, 0xFFFFE ≤ b → b < 0xFFFFE + 2 → ¬ (s.cp ≤ b ∧ b < s.cend)) ∧
      s.params.mmSize < 0xFFFFF + 2 ∧ ∃ b, 0x7FFF ≤ b ∧ b < 0x7FFF + 2 ∧ s.cp ≤ b ∧ b < s.cend :=
  ⟨by decide, fun b h1 _ ⟨_, h4⟩ => absurd (Nat.lt_of_le_of_lt h1 h4) (by decide), by decide,
    ⟨0x8000, by decide, by decide, by decide, by decide⟩, by decide,
    fun b h1 _ ⟨_, h4⟩ => absurd (Nat.lt_of_le_of_lt h1 h4) (by decide), by decide,
    ⟨0x8000, by decide, by decide, by decide, by decide⟩⟩

/-- ENVMIXER with its wet-left buffer unset: the register after the four set before it; and a misaligned block. -/
theorem witness_SetupChecksComeFirst :
    let s := { ready 16 with eng := { engine 16 with wetLeft := .blank } }
    blockWordOf (.envmixer true true 0x50004) = some 0x50004 ∧ s.resolved 0x50004 % 8 ≠ 0 ∧
    setupOf (.envmixer true true 0x50000) = [.inp, .out, .count, .dryRight] ++ .wetLeft :: .wetRight :: initRegs ∧
    (∀ w, blockWordOf (.envmixer true true 0x50000) = some w → s.resolved w % 8 = 0) ∧
    (∀ q ∈ ([.inp, .out, .count, .dryRight] : List RegName), s.eng.isWritten q = true) ∧
    s.eng.isWritten .wetLeft = false :=
  ⟨rfl, by decide, rfl, fun w h => by cases h; decide, by decide +kernel, rfl⟩

theorem witness_EndingMeansItsBlockWasStorable : blockWordOf (.resample true 0x8000 0x40000) = some 0x40000 ∧
    ∃ t, exec (.resample true 0x8000 0x40000) (ready 16) = .next t := ⟨rfl, next_of_ends (by decide +kernel)⟩

theorem witness_FourBitResiduals : (List.replicate 8 (0x80 : Byte)).length = 8 ∧ 7 < 8 ∧ 12 ≤ 15 := by decide

theorem witness_TwoBitResiduals : (List.replicate 4 (0x80 : Byte)).length = 4 ∧ 3 < 4 ∧ 14 ≤ 15 := by decide

/-- Sums that fit, and one that stops the run. -/
theorem witness_PredictionPassSamples :
    (∀ i, i < 8 → AccOk start (nth [1, 1] i * 2048 + nth [] i * 0 + nth [] i * 0
      + ∑ k ∈ Finset.range i, nth [] k * nth [1, 1] (i - 1 - k))) ∧
    ¬ (∀ i, i < 8 → AccOk start (nth [1048576] i * 2048 + nth [] i * 0 + nth [] i * 0
      + ∑ k ∈ Finset.range i, nth [] k * nth [1048576] (i - 1 - k))) := by
  refine ⟨fun i hi => .inr ?_, fun h => ?_⟩
  · have h : (∑ k ∈ Finset.range i, nth [] k * nth [1, 1] (i - 1 - k)) = 0 := by simp [nth]
    rw [h]
    have : ∀ i, i < 8 → fitsS32 (nth [1, 1] i * 2048 + nth [] i * 0 + nth [] i * 0 + 0) = true := by decide
    exact this i hi
  · rcases h 0 (by decide) with h | h
    · cases h
    · exact absurd h (by decide)

theorem witness_AdpcmFrame : ∃ t, exec (.adpcm false true true 0x20000) (ready 0x20) = .next t := next_of_ends (by decide +kernel)

/-- An aligned block below `MM_SIZE` is storable where no list runs. -/
theorem storable_ready (count : Half) {a n : Nat} (h : a % 8 = 0) (h2 : a + n ≤ 0x100000) :
    storable (ready count) a n :=
  ⟨h, h2, fun b _ hc => absurd (show b < 0 from hc.2) (Nat.not_lt_zero b)⟩

/-- Both ways to know that the selected blocks are ready: every block written with sums that wrap, or the input apart from
the output with the one frame's block 0 written and small; LOOP asks for its own block. -/
theorem witness_AdpcmCompletes :
    (let s := { ready 0x20 with eng := { engine 0x20 with codebook := Vector.replicate 128 (.of 0x7FFF) } }.withAcc .wrap32
     Ready (.adpcm false true false 0x20000) s ∧ loadable s s.eng.loop.value.toNat 32 ∧
       ∀ idx, idx < 16 → s.blockWritten idx ∧ s.blockFits idx) ∧
    (let s := ready 0x20
     Ready (.adpcm true false false 0x20000) s ∧ storable s (s.resolved 0x20000) 32 ∧ s.outAddr % 2 = 0 ∧
       apart s.inpAddr (frameBytes false * frameCount s.eng.count.value) s.outAddr (32 + 32 * frameCount s.eng.count.value) ∧
       ∀ f, f < frameCount s.eng.count.value → s.blockWritten (frameIndex (s.frameHeader false f)) ∧
         s.blockFits (frameIndex (s.frameHeader false f))) := by
  refine ⟨⟨by unfold Ready; decide +kernel, ⟨by decide, by decide⟩, fun idx _ => ⟨fun j _ _ => ?_, .inl rfl⟩⟩,
    by unfold Ready; decide +kernel, storable_ready _ (by decide) (by decide), by decide,
    apart_of_le (by decide) (by decide), fun f hf => ?_⟩
  · change ((Vector.replicate 128 (Reg.of 0x7FFF)).get j).written = true
    simp [Vector.get_eq_getElem]
  · have h0 : frameIndex ((ready 0x20).frameHeader false f) = 0 := by
      have : ∀ f, f < frameCount (ready 0x20).eng.count.value → frameIndex ((ready 0x20).frameHeader false f) = 0 := by
        decide +kernel
      exact this f hf
    rw [h0]
    have hw : ∀ j : Fin 128, j.val < 16 → ((ready 0x20).eng.codebook.get j).written = true := by decide +kernel
    have hv : ∀ j, j < 16 → -7054 ≤ (ready 0x20).codebookAt j ∧ (ready 0x20).codebookAt j ≤ 7054 := by decide +kernel
    exact ⟨fun j _ h2 => hw j (by omega), .inr ⟨by decide, fun j _ h2 => hv j (by omega)⟩⟩

/-- Two frames that select block 1, whose coefficients are not zero. -/
theorem witness_AdpcmDecodesItsFrames :
    let s := { ready 0x40 with sm := bytes [] 0x100 [0x21, 0x12, 0x34, 0x56, 0x78, 0x9A, 0xBC, 0xDE, 0xF0, 0x31] }
    Ready (.adpcm true false false 0x20000) s ∧ storable s (s.resolved 0x20000) 32 ∧ s.outAddr % 2 = 0 ∧
      apart s.inpAddr (frameBytes false * frameCount s.eng.count.value) s.outAddr (32 + 32 * frameCount s.eng.count.value) ∧
      ∀ f, f < frameCount s.eng.count.value → frameIndex (s.frameHeader false f) < 8 ∧
        s.blockWritten (frameIndex (s.frameHeader false f)) ∧ s.blockFits (frameIndex (s.frameHeader false f)) := by
  intro s
  refine ⟨by unfold Ready; decide +kernel, storable_ready 0x40 (by decide) (by decide), by decide,
    apart_of_le (by decide) (by decide), fun f hf => ?_⟩
  have h0 : frameIndex (s.frameHeader false f) = 1 := by
    have : ∀ f, f < frameCount s.eng.count.value → frameIndex (s.frameHeader false f) = 1 := by decide +kernel
    exact this f hf
  rw [h0]
  have hw : ∀ j : Fin 128, j.val < 32 → (s.eng.codebook.get j).written = true := by decide +kernel
  have hv : ∀ j, j < 32 → -7054 ≤ s.codebookAt j ∧ s.codebookAt j ≤ 7054 := by decide +kernel
  exact ⟨by decide, fun j _ h2 => hw j (by omega), .inr ⟨by decide, fun j _ h2 => hv j (by omega)⟩⟩

theorem witness_ZeroCodebookGivesTheResiduals :
    let s := ready 0x20
    Ready (.adpcm true false false 0x20000) s ∧ storable s (s.resolved 0x20000) 32 ∧ s.outAddr % 2 = 0 ∧
      apart s.inpAddr (frameBytes false * frameCount s.eng.count.value) s.outAddr (32 + 32 * frameCount s.eng.count.value) ∧
      ∀ f, f < frameCount s.eng.count.value → frameIndex (s.frameHeader false f) < 8 ∧
        s.blockWritten (frameIndex (s.frameHeader false f)) ∧
        ∀ k, k < 16 → s.codebookAt (16 * frameIndex (s.frameHeader false f) + k) = 0 := by
  intro s
  refine ⟨by unfold Ready; decide +kernel, storable_ready _ (by decide) (by decide), by decide,
    apart_of_le (by decide) (by decide), fun f hf => ?_⟩
  have h0 : frameIndex (s.frameHeader false f) = 0 := by
    have : ∀ f, f < frameCount s.eng.count.value → frameIndex (s.frameHeader false f) = 0 := by decide +kernel
    exact this f hf
  rw [h0]
  have hw : ∀ j : Fin 128, j.val < 16 → (s.eng.codebook.get j).written = true := by decide +kernel
  exact ⟨by decide, fun j _ h2 => hw j (by omega), by decide +kernel⟩

theorem witness_EntriesBeyondTheCodebookAreAnyValue : 128 ≤ 128 := by decide

/-- Each clause of the ramp step: a sum that stops the run, a step of 0 at and above its target, a step of 1 at and below
it, and a target in range. -/
theorem witness_RampStepFollowsItsRule :
    ¬ AccOk start ((2147483647 : Int) + 1) ∧ AccOk start ((0 : Int) + 0) ∧ (0 : Int) ≤ 0 ∧
      wrapS32 (0 + 0) ≤ 0 ∧ (0 : Int) < wrapS32 (1 + 0) ∧ (0 : Int) < 1 ∧ 1 ≤ wrapS32 (0 + 1) ∧ wrapS32 (0 + 1) < 2 ∧
      ∃ t u, rampStep ⟨0, 2147483647, 1⟩ start = .ok t u := by
  refine ⟨?_, .inr (by decide), by decide, by decide, by decide, by decide, by decide, by decide, _, _, rfl⟩
  rintro (h | h)
  · cases h
  · exact absurd h (by decide)

theorem witness_ChannelGainClampsInOneCase : (-32768 : Int) ≤ -32768 ∧ (-32768 : Int) ≤ 32767 ∧
    ((-32768 : Int) ≠ -32768 ∨ (-32767 : Int) ≠ -32768) := by decide

theorem witness_MixersFrame : (∃ t, exec (.envmixer true true 0x50000) (ready 1) = .next t) ∧
    ∃ t, exec (.envmixerLin true 0x50000) (ready 3) = .next t :=
  ⟨next_of_ends (by decide +kernel), next_of_ends (by decide +kernel)⟩

/-- A state whose sums wrap meets every condition on sums. -/
theorem accOk_wrap {s : State} (h : s.params.accOverflow = .wrap32) (v : Int) : AccOk s v := .inl h

theorem ramp_ok_wrap {s : State} (h : s.params.accOverflow = .wrap32) (r : Ramp) (n : Nat) : r.ok s n := fun _ _ => .inl h

theorem expRamp_ok_wrap {s : State} (h : s.params.accOverflow = .wrap32) (r : ExpRamp) (n : Nat) : r.ok s n :=
  fun _ _ => ⟨fun _ => ⟨.inl h, .inl h⟩, ramp_ok_wrap h _ _⟩

theorem expStartOk_wrap {s : State} (h : s.params.accOverflow = .wrap32) (init : Bool) (a : Nat) : expStartOk s init a :=
  ⟨fun _ => ⟨.inl h, .inl h⟩, .inl h, .inl h⟩

/-- X5 with `ACC_OVERFLOW = fault`: one segment whose sums all fit. -/
theorem expRamp_ok_ready : (expStart (ready 1) true 0x50000).left.ok (ready 1) 1 ∧
    (expStart (ready 1) true 0x50000).right.ok (ready 1) 1 := by
  have fit : ∀ {v : Int}, fitsS32 v = true → AccOk (ready 1) v := fun h => .inr h
  constructor <;> intro k hk <;> obtain rfl : k = 0 := by omega
  · refine ⟨fun _ => ⟨fit (by decide +kernel), fit (by decide +kernel)⟩, fun p hp => fit ?_⟩
    have : ∀ p, p < 8 → fitsS32 ((((expStart (ready 1) true 0x50000).left.after 0).recompute.ramp.after p).value
      + (((expStart (ready 1) true 0x50000).left.after 0).recompute.ramp.after p).step) = true := by decide +kernel
    exact this p hp
  · refine ⟨fun _ => ⟨fit (by decide +kernel), fit (by decide +kernel)⟩, fun p hp => fit ?_⟩
    have : ∀ p, p < 8 → fitsS32 ((((expStart (ready 1) true 0x50000).right.after 0).recompute.ramp.after p).value
      + (((expStart (ready 1) true 0x50000).right.after 0).recompute.ramp.after p).step) = true := by decide +kernel
    exact this p hp

theorem witness_EnvmixerCompletes :
    let s := ready 1
    Ready (.envmixer true true 0x50000) s ∧ storable s (s.resolved 0x50000) 80 ∧
      (s.inpAddr % 2 = 0 ∧ s.outAddr % 2 = 0 ∧ s.dryRightAddr % 2 = 0 ∧ s.wetLeftAddr % 2 = 0 ∧ s.wetRightAddr % 2 = 0) ∧
      expStartOk s true (s.resolved 0x50000) ∧ segmentCount s.eng.count.value = 1 ∧
      (expStart s true (s.resolved 0x50000)).left.ok s 1 ∧ (expStart s true (s.resolved 0x50000)).right.ok s 1 :=
  ⟨by unfold Ready; decide +kernel, storable_ready _ (by decide) (by decide), by decide,
    ⟨fun _ => ⟨.inr (by decide +kernel), .inr (by decide +kernel)⟩, .inr (by decide +kernel), .inr (by decide +kernel)⟩,
    by decide, expRamp_ok_ready⟩

theorem witness_EnvmixerMixesByItsRamps :
    let s := ready 1
    let b := 16 * segmentCount s.eng.count.value
    apart s.inpAddr b s.outAddr b ∧ apart s.inpAddr b s.dryRightAddr b ∧ apart s.outAddr b s.dryRightAddr b ∧
      apart s.inpAddr b s.wetLeftAddr b ∧ apart s.inpAddr b s.wetRightAddr b ∧ apart s.outAddr b s.wetLeftAddr b ∧
      apart s.outAddr b s.wetRightAddr b ∧ apart s.dryRightAddr b s.wetLeftAddr b ∧
      apart s.dryRightAddr b s.wetRightAddr b ∧ apart s.wetLeftAddr b s.wetRightAddr b ∧
      Ready (.envmixer true true 0x50000) s ∧ expStartOk s true (s.resolved 0x50000) ∧
      (expStart s true (s.resolved 0x50000)).left.ok s (segmentCount s.eng.count.value) ∧
      (expStart s true (s.resolved 0x50000)).right.ok s (segmentCount s.eng.count.value) ∧
      storable s (s.resolved 0x50000) 80 := by
  refine ⟨?_, ?_, ?_, ?_, ?_, ?_, ?_, ?_, ?_, ?_, witness_EnvmixerCompletes.1, witness_EnvmixerCompletes.2.2.2.1,
    expRamp_ok_ready.1, expRamp_ok_ready.2, witness_EnvmixerCompletes.2.1⟩ <;>
  exact apart_of_le (by decide) (by decide)

theorem witness_ExponentialRampsPersist :
    (∃ t, exec (.envmixer true true 0x50000) ((ready 0).setCount (BitVec.ofNat 16 (16 * (1 + 1)))) = .next t) ∧
      16 * (1 + 1) < 65536 ∧ ¬ ((expStart (ready 0) true 0x50000).left.after 1).ramp.stalled ∧
      ¬ ((expStart (ready 0) true 0x50000).right.after 1).ramp.stalled :=
  ⟨next_of_ends (by decide +kernel), by decide, by unfold Ramp.stalled; decide +kernel, by unfold Ramp.stalled; decide +kernel⟩

/-- In either overflow mode: the ramps of Y1, and any ramps where sums wrap. -/
theorem witness_LinearMixerCompletes :
    let s := ready 3
    Ready (.envmixerLin true 0x50000) s ∧ storable s (s.resolved 0x50000) 80 ∧ linCount s.eng.count.value = 2 ∧
      (s.inpAddr % 2 = 0 ∧ s.outAddr % 2 = 0 ∧ s.dryRightAddr % 2 = 0 ∧ s.wetLeftAddr % 2 = 0 ∧ s.wetRightAddr % 2 = 0) ∧
      (linStart s true (s.resolved 0x50000)).ramps.1.ok s 2 ∧ (linStart s true (s.resolved 0x50000)).ramps.2.ok s 2 := by
  refine ⟨by unfold Ready; decide +kernel, storable_ready _ (by decide) (by decide), by decide, by decide,
    fun p hp => .inr ?_, fun p hp => .inr ?_⟩
  · have : ∀ p, p < 2 → fitsS32 (((linStart (ready 3) true 0x50000).ramps.1.after p).value
      + ((linStart (ready 3) true 0x50000).ramps.1.after p).step) = true := by decide +kernel
    exact this p hp
  · have : ∀ p, p < 2 → fitsS32 (((linStart (ready 3) true 0x50000).ramps.2.after p).value
      + ((linStart (ready 3) true 0x50000).ramps.2.after p).step) = true := by decide +kernel
    exact this p hp

theorem witness_LinearMixerMixesByItsRamps :
    let s := ready 3
    [s.inpAddr, s.outAddr, s.dryRightAddr, s.wetLeftAddr, s.wetRightAddr].Pairwise
        (fun b c => apart b (2 * linCount s.eng.count.value) c (2 * linCount s.eng.count.value)) ∧
      Ready (.envmixerLin true 0x50000) s ∧ storable s (s.resolved 0x50000) 80 := by
  refine ⟨?_, witness_LinearMixerCompletes.1, witness_LinearMixerCompletes.2.1⟩
  refine List.Pairwise.imp (R := fun b c => b + 4 ≤ c ∧ c + 4 ≤ 65536) (fun h => apart_of_le h.1 h.2) ?_
  decide

theorem witness_LinearRampsPersist :
    (∃ t, exec (.envmixerLin true 0x50000) ((ready 0).setCount (BitVec.ofNat 16 (2 * (3 + 5)))) = .next t) ∧
      2 * (3 + 5) < 65536 := ⟨next_of_ends (by decide +kernel), by decide⟩

theorem witness_NeadCompletesInItsFrame :
    Ready (.envmixerNead 0x10 0xFF true true true true true 0x20 0x30 0x40 0x50) (ready 0) := by unfold Ready; decide +kernel

theorem witness_NeadMixesByItsEnvelopes :
    Ready (.envmixerNead 0x10 0x08 true false false true false 0x20 0x30 0x40 0x50) (ready 0) ∧
    [(0x10 : Byte).toNat * 16, (0x20 : Byte).toNat * 16, (0x30 : Byte).toNat * 16, (0x50 : Byte).toNat * 16,
      (0x40 : Byte).toNat * 16].Pairwise (fun b c => apart b 16 c 16) := by
  refine ⟨by unfold Ready; decide +kernel, ?_⟩
  refine List.Pairwise.imp (R := fun b c => (b + 16 ≤ c ∧ c + 16 ≤ 65536) ∨ (c + 16 ≤ b ∧ b + 16 ≤ 65536))
    (fun h => h.elim (fun h => apart_of_le h.1 h.2) fun h => apart_symm (apart_of_le h.1 h.2)) ?_
  decide

theorem witness_NeadEnvelopesPersist :
    ∃ t, 1 + 1 ≤ 31 ∧ (0x10 : Byte).toNat + 1 ≤ 255 ∧ (0x50 : Byte).toNat + 1 ≤ 255 ∧
      exec (.envmixerNead 0x10 (BitVec.ofNat 8 (8 * (1 + 1))) false false false true false 0x20 0x30 0x40 0x50) (ready 0)
        = .next t :=
  (next_of_ends (by decide +kernel)).imp fun _ h => ⟨by decide, by decide, by decide, h⟩

theorem witness_ResampleFrame : ∃ t, exec (.resample false 0xFFFF 0x40000) (ready 16) = .next t := next_of_ends (by decide +kernel)

/-- The vectors' table, with `ACC_OVERFLOW = fault`: no kernel can leave 32 bits. -/
theorem witness_ResampleCompletes :
    let s := ready 16
    Ready (.resample true 0x8000 0x40000) s ∧ storable s (s.resolved 0x40000) 10 ∧ s.inpAddr % 2 = 0 ∧
      outputCount s.eng.count.value ≠ 0 ∧ s.outAddr % 2 = 0 ∧
      ∀ k : Fin 64, (s.params.lut.get k).t0.toInt.natAbs + (s.params.lut.get k).t1.toInt.natAbs +
          (s.params.lut.get k).t2.toInt.natAbs + (s.params.lut.get k).t3.toInt.natAbs ≤ 65535 :=
  ⟨by unfold Ready; decide +kernel, storable_ready _ (by decide) (by decide), by decide, by decide, by decide,
    by decide +kernel⟩

theorem witness_ResampleConvolvesItsInput :
    let s := ready 16
    apart (s.inpAddr + 65528) (8 + 2 * windowMoved (accStart s true 0x40000) 0xFFFF (outputCount s.eng.count.value)) s.outAddr
        (2 * outputCount s.eng.count.value) ∧
      ∀ j, j < outputCount s.eng.count.value → AccOk s (outputDot s true 0xFFFF (s.resolved 0x40000) j) := by
  refine ⟨?_, fun j hj => .inr ?_⟩
  · intro a ha ⟨h1, h2⟩
    have e : 8 + 2 * windowMoved (accStart (ready 16) true 0x40000) 0xFFFF (outputCount (ready 16).eng.count.value) = 38 := by
      decide
    rw [e] at h1
    change (a + 65536 - (0x100 + 65528) % 65536) % 65536 < 38 at h1
    change (a + 65536 - 0x200 % 65536) % 65536 < 16 at h2
    omega
  · have : ∀ j, j < 8 → fitsS32 (outputDot (ready 16) true 0xFFFF 0x40000 j) = true := by decide +kernel
    exact this j hj

theorem witness_RatioOneIsOneFixedFilter :
    let s := ready 16
    let k0 := kernelOf s.params.lut (accStart s true 0x40000)
    Ready (.resample true 0x8000 0x40000) s ∧
      apart (s.inpAddr + 65528) (8 + 2 * outputCount s.eng.count.value) s.outAddr (2 * outputCount s.eng.count.value) ∧
      ∀ j, j < outputCount s.eng.count.value →
        fitsS32 (streamSample s true 0x40000 j * k0.t0.toInt + streamSample s true 0x40000 (j + 1) * k0.t1.toInt
          + streamSample s true 0x40000 (j + 2) * k0.t2.toInt + streamSample s true 0x40000 (j + 3) * k0.t3.toInt) = true := by
  refine ⟨by unfold Ready; decide +kernel, ?_, by decide +kernel⟩
  intro a ha ⟨h1, h2⟩
  change (a + 65536 - (0x100 + 65528) % 65536) % 65536 < 24 at h1
  change (a + 65536 - 0x200 % 65536) % 65536 < 16 at h2
  omega

theorem witness_ResamplerStateRoundTrip :
    (∃ t, exec (.resample true 0x6000 0x40000) ((ready 0).setCount (BitVec.ofNat 16 (16 * (1 + 1)))) = .next t) ∧
      16 * (1 + 1) < 65536 := ⟨next_of_ends (by decide +kernel), by decide⟩

end Sys2Proof.Tests
end

section
/-! SUPPORT. The two overflow modes (00_scope.md R6, R8). Only `acc32` looks at `ACC_OVERFLOW`, so a piece of a command
that ends in fault mode ends in wrap32 mode with the same value and, up to the mode itself, the same state. `Refines`
says this of one piece; it is shown for each shared operation, for sequences and loops, and so for every command. -/

namespace Sys2Proof.Machine

variable {α β : Type}

/-- x leaves the overflow mode alone, ends in wrap32 mode as it ends in fault mode, and stops for no overflow in wrap32
mode. -/
structure Refines (x : Act α) : Prop where
  mode : ∀ {s t a}, x s = .ok a t → t.params.accOverflow = s.params.accOverflow
  ends : ∀ {s t a}, s.params.accOverflow = .fault → x s = .ok a t → x (s.withAcc .wrap32) = .ok a (t.withAcc .wrap32)
  noOverflow : ∀ {s t}, s.params.accOverflow = .wrap32 → x s ≠ .error (.fault .accOverflow) t

/-! ## Sequences and loops -/

theorem Refines.pure (a : α) : Refines (pure a : Act α) where
  mode h := by obtain ⟨-, rfl⟩ := pure_ok_iff.1 h; rfl
  ends _ h := by obtain ⟨rfl, rfl⟩ := pure_ok_iff.1 h; rfl
  noOverflow _ := nofun

theorem Refines.bind {x : Act α} {f : α → Act β} (hx : Refines x) (hf : ∀ a, Refines (f a)) : Refines (x >>= f) where
  mode h := by
    obtain ⟨a, u, h1, h2⟩ := bind_ok_iff.1 h
    exact ((hf a).mode h2).trans (hx.mode h1)
  ends hm h := by
    obtain ⟨a, u, h1, h2⟩ := bind_ok_iff.1 h
    rw [bind_of_ok (hx.ends hm h1)]
    exact (hf a).ends ((hx.mode h1).trans hm) h2
  noOverflow hm h := by
    rcases bind_error_iff.1 h with h1 | ⟨a, u, h1, h2⟩
    · exact hx.noOverflow hm h1
    · exact (hf a).noOverflow ((hx.mode h1).trans hm) h2

theorem Refines.ite {c : Prop} [Decidable c] {x y : Act α} (hx : Refines x) (hy : Refines y) :
    Refines (if c then x else y) := by
  split
  · exact hx
  · exact hy

theorem Refines.loop {n : Nat} {f : Nat → Act Unit} (h : ∀ i, Refines (f i)) : Refines (loop n f) := by
  induction n with
  | zero => exact .pure ()
  | succ n ih => exact ih.bind fun _ => h n

theorem Refines.loopFrom {n : Nat} {b : β} {f : Nat → β → Act β} (h : ∀ i c, Refines (f i c)) :
    Refines (loopFrom n b f) := by
  induction n with
  | zero => exact .pure b
  | succ n ih => exact ih.bind fun c => h n c

theorem Refines.collect {n : Nat} {f : Nat → Act α} (h : ∀ i, Refines (f i)) : Refines (collect n f) := by
  induction n with
  | zero => exact .pure []
  | succ n ih => exact ih.bind fun xs => (h n).bind fun x => .pure (xs ++ [x])

/-! ## The shared operations -/

/-- A look at anything but the overflow mode. -/
theorem refines_look {f : State → α} (h : ∀ s m, f (s.withAcc m) = f s) : Refines (look f) where
  mode e := by cases e; rfl
  ends _ e := by cases e; rw [look_apply, h]
  noOverflow _ := nofun

/-- A change that neither reads nor writes the overflow mode. -/
theorem refines_change {f : State → State} (h : ∀ s m, f (s.withAcc m) = (f s).withAcc m) : Refines (change f) where
  mode {s t a} e := by
    cases e
    have hs : f s = (f s).withAcc s.params.accOverflow := h s s.params.accOverflow
    rw [hs, withAcc_accOverflow]
  ends _ e := by cases e; rw [change_apply, h]
  noOverflow _ := nofun

theorem refines_stop {e : Stop} (h : e ≠ .fault .accOverflow) : Refines (stop e : Act α) where
  mode := nofun
  ends _ := nofun
  noOverflow _ he := by cases he; exact h rfl

theorem refines_refuse (r : RefuseReason) : Refines (refuse r : Act α) := refines_stop nofun

theorem refines_refuseIf (b : Bool) (r : RefuseReason) : Refines (refuseIf b r) := .ite (refines_refuse r) (.pure ())

/-- A piece that reads the parameters and uses any but the overflow mode. -/
theorem refines_getParams_bind {f : Params → Act α} (hp : ∀ p m, f { p with accOverflow := m } = f p)
    (hf : ∀ p, Refines (f p)) : Refines (getParams >>= f) where
  mode {s t a} h := (hf s.params).mode h
  ends {s t a} hm h := by
    rw [bind_of_ok (getParams_apply _)] at h ⊢
    exact (congrFun (hp s.params .wrap32) _).trans ((hf s.params).ends hm h)
  noOverflow {s t} hm h := (hf s.params).noOverflow hm h

/-- The one operation the mode matters to: where a sum fits, the mode is not asked; where it does not, fault mode stops
and wrap32 mode ends (R8). -/
theorem refines_acc32 (v : Int) : Refines (acc32 v) where
  mode h := by rw [(acc32_ok_iff.1 h).2]
  ends {s t a} hm h := by
    obtain ⟨h, rfl⟩ := acc32_ok_iff.1 h
    refine acc32_ok_iff.2 ⟨?_, rfl⟩
    rw [hm] at h
    unfold acc32Result at h ⊢
    split_ifs at h ⊢ with hf
    exact h
  noOverflow hm h := by rw [acc32_wrap32 hm] at h; cases h

theorem refines_drawHalf : Refines drawHalf where
  mode {s t a} h := by
    obtain ⟨v, su, dr, h'⟩ := drawHalf_runs s
    rw [h'] at h; cases h; rfl
  ends {s t a} _ h := by
    unfold drawHalf at h ⊢
    rw [withAcc_supply]
    cases hs : s.supply <;> rw [hs] at h <;> cases h <;> rfl
  noOverflow {s t} _ h := by
    obtain ⟨v, su, dr, h'⟩ := drawHalf_runs s
    rw [h'] at h; cases h

theorem refines_drawByte : Refines drawByte := refines_drawHalf.bind fun _ => .pure _

theorem refines_d8 (a : Nat) : Refines (d8 a) := refines_look fun _ _ => rfl

theorem refines_d8w (a : Nat) (v : Byte) : Refines (d8w a v) := refines_change fun _ _ => rfl

theorem refines_d16 (a : Nat) : Refines (d16 a) := (refines_refuseIf _ _).bind fun _ => refines_look fun _ _ => rfl

theorem refines_d16w (a : Nat) (v : Int) : Refines (d16w a v) :=
  (refines_refuseIf _ _).bind fun _ => (refines_d8w _ _).bind fun _ => refines_d8w _ _

theorem refines_checkRange (a n : Nat) : Refines (checkRange a n) :=
  refines_getParams_bind (fun _ _ => rfl) fun _ => refines_refuseIf _ _

theorem refines_checkStore (a n : Nat) : Refines (checkStore a n) :=
  (refines_checkRange a n).bind fun _ => (refines_look fun _ _ => rfl).bind fun _ =>
    (refines_look fun _ _ => rfl).bind fun _ => refines_refuseIf _ _

theorem refines_checkAlign (a : Nat) : Refines (checkAlign a) := refines_refuseIf _ _

theorem refines_memRead16 (a : Nat) : Refines (memRead16 a) :=
  (refines_checkRange a 2).bind fun _ => refines_look fun _ _ => rfl

theorem refines_memRead32 (a : Nat) : Refines (memRead32 a) :=
  (refines_checkRange a 4).bind fun _ => refines_look fun _ _ => rfl

theorem refines_mmStore (a : Nat) (v : Byte) : Refines (mmStore a v) := refines_change fun _ _ => rfl

theorem refines_memWrite8 (a : Nat) (v : Byte) : Refines (memWrite8 a v) :=
  (refines_checkStore a 1).bind fun _ => refines_mmStore a v

theorem refines_memWrite16 (a : Nat) (v : Half) : Refines (memWrite16 a v) :=
  (refines_checkStore a 2).bind fun _ => (refines_mmStore _ _).bind fun _ => refines_mmStore _ _

theorem refines_memWrite32 (a : Nat) (v : Word) : Refines (memWrite32 a v) :=
  (refines_checkStore a 4).bind fun _ => (refines_mmStore _ _).bind fun _ => (refines_mmStore _ _).bind fun _ =>
    (refines_mmStore _ _).bind fun _ => refines_mmStore _ _

theorem refines_readReg {w : Nat} (name : RegName) (get : Engine → Reg w) : Refines (readReg name get) :=
  (refines_look fun _ _ => rfl).bind fun _ => .ite (.pure _) (refines_stop nofun)

theorem refines_setEng (f : Engine → Engine) : Refines (setEng f) := refines_change fun _ _ => rfl

theorem refines_resolve (w : Word) : Refines (resolve w) := refines_look fun _ _ => rfl

theorem refines_blockBase (w : Word) : Refines (blockBase w) :=
  (refines_resolve w).bind fun _ => (refines_checkAlign _).bind fun _ => .pure _

/-! ## Setup commands -/

theorem refines_setbuff (inp out count : Half) : Refines (setbuff inp out count) :=
  refines_getParams_bind (fun _ _ => rfl) fun _ => refines_setEng _

theorem refines_setbuffAux (dr wl wr : Half) : Refines (setbuffAux dr wl wr) :=
  refines_getParams_bind (fun _ _ => rfl) fun _ => refines_setEng _

theorem refines_setloop (addr : Word) : Refines (setloop addr) := (refines_resolve addr).bind fun _ => refines_setEng _

theorem refines_loadadpcm (count : Half) (addr : Word) : Refines (loadadpcm count addr) :=
  (refines_resolve addr).bind fun _ => (refines_refuseIf _ _).bind fun _ => (refines_checkAlign _).bind fun _ =>
    .loop fun _ => (refines_memRead16 _).bind fun _ => refines_setEng _

theorem refines_clearbuff (dmem count : Half) : Refines (clearbuff dmem count) :=
  refines_getParams_bind (fun _ _ => rfl) fun _ => .loop fun _ => refines_d8w _ _

theorem refines_warnUnknown (op : Byte) : Refines (warnUnknown op) := refines_change fun _ _ => rfl

/-! ## ADPCM -/

theorem refines_codebookLookup (j : Nat) : Refines (codebookLookup j) := by
  refine .bind ?_ fun _ => .pure _
  unfold codebookBits
  split
  · exact refines_readReg _ _
  · exact refines_drawHalf

theorem refines_codebookBlock (idx : Nat) : Refines (codebookBlock idx) :=
  .collect fun _ => (refines_codebookLookup _).bind fun _ => (refines_codebookLookup _).bind fun _ => .pure _

theorem refines_predict (book1 book2 r : List Int) (l1 l2 : Int) : Refines (predict book1 book2 r l1 l2) :=
  .collect fun _ => (refines_acc32 _).bind fun _ => .pure _

theorem refines_decodeFrame (twobit : Bool) (inp : Nat) (hist : List Int) : Refines (decodeFrame twobit inp hist) :=
  (refines_d8 _).bind fun _ => (Refines.collect fun _ => refines_d8 _).bind fun _ =>
    (refines_codebookBlock _).bind fun _ => (refines_predict _ _ _ _ _).bind fun _ =>
      (refines_predict _ _ _ _ _).bind fun _ => .pure _

theorem refines_readHistory (src : Nat) : Refines (readHistory src) :=
  (refines_checkAlign src).bind fun _ => .collect fun _ => (refines_memRead16 _).bind fun _ => .pure _

theorem refines_loadHistory (init loopFlag : Bool) (lfa : Nat) : Refines (loadHistory init loopFlag lfa) :=
  .ite (.pure _) (.ite ((refines_readReg _ _).bind fun _ => refines_readHistory _) (refines_readHistory _))

theorem refines_storeSamples (o : Nat) (xs : List Int) : Refines (storeSamples o xs) := .loop fun _ => refines_d16w _ _

theorem refines_decodeFrames (twobit : Bool) (inp out n : Nat) (hist : List Int) :
    Refines (decodeFrames twobit inp out n hist) :=
  .loopFrom fun _ _ => (refines_decodeFrame _ _ _).bind fun _ => (refines_storeSamples _ _).bind fun _ => .pure _

theorem refines_adpcm (init loopFlag twobit : Bool) (lfa : Word) : Refines (adpcm init loopFlag twobit lfa) :=
  (refines_blockBase lfa).bind fun _ => (refines_readReg _ _).bind fun _ => (refines_readReg _ _).bind fun _ =>
    (refines_readReg _ _).bind fun _ => (refines_loadHistory _ _ _).bind fun _ => (refines_storeSamples _ _).bind fun _ =>
      (refines_decodeFrames _ _ _ _ _).bind fun _ => .loop fun _ => refines_memWrite16 _ _

/-! ## The exponential and linear mixers -/

theorem refines_rampStep (r : Ramp) : Refines (rampStep r) := (refines_acc32 _).bind fun _ => .pure _

theorem refines_mix (b : Nat) (g : Int) (p : Nat) (s : Int) : Refines (mix b g p s) :=
  (refines_d16 _).bind fun _ => refines_d16w _ _

theorem refines_mixSample (b : MixBufs) (dry wet : Int) (p : Nat) (lv rv : Int) :
    Refines (mixSample b dry wet p lv rv) := by
  refine (refines_d16 _).bind fun _ => (refines_mix _ _ _ _).bind fun _ => (refines_mix _ _ _ _).bind fun _ => ?_
  split
  · exact .pure ()
  · exact (refines_mix _ _ _ _).bind fun _ => refines_mix _ _ _ _

theorem refines_mixerSample (b : MixBufs) (dry wet : Int) (p : Nat) (rs : Ramp × Ramp) :
    Refines (mixerSample b dry wet p rs) :=
  (refines_rampStep _).bind fun _ => (refines_rampStep _).bind fun _ => (refines_mixSample _ _ _ _ _ _).bind fun _ =>
    .pure _

theorem refines_saveUnnamed (a : Nat) (offsets : List Nat) : Refines (saveUnnamed a offsets) := by
  induction offsets with
  | nil => exact .pure ()
  | cons o rest ih => exact refines_drawByte.bind fun _ => (refines_memWrite8 _ _).bind fun _ => ih

theorem refines_startStep (value target rate seq : Int) : Refines (startStep value target rate seq) :=
  (refines_acc32 _).bind fun _ => .pure _

theorem refines_expFromRegs : Refines expFromRegs := by
  unfold expFromRegs
  iterate 8 refine (refines_readReg _ _).bind fun _ => ?_
  iterate 2 refine (refines_acc32 _).bind fun _ => ?_
  iterate 2 refine (refines_startStep _ _ _ _).bind fun _ => ?_
  exact .pure _

theorem refines_expFromBlock (a : Nat) : Refines (expFromBlock a) := by
  unfold expFromBlock
  iterate 2 refine (refines_memRead16 _).bind fun _ => ?_
  iterate 8 refine (refines_memRead32 _).bind fun _ => ?_
  iterate 2 refine (refines_startStep _ _ _ _).bind fun _ => ?_
  exact .pure _

theorem refines_segmentStart (r : ExpRamp) : Refines (segmentStart r) :=
  .ite (.pure _) ((refines_acc32 _).bind fun _ => (refines_acc32 _).bind fun _ => .pure _)

theorem refines_expSegment (b : MixBufs) (segment : Nat) (x : ExpState) : Refines (expSegment b segment x) :=
  (refines_segmentStart _).bind fun _ => (refines_segmentStart _).bind fun _ =>
    (Refines.loopFrom fun _ _ => refines_mixerSample _ _ _ _ _).bind fun _ => .pure _

theorem refines_expSave (a : Nat) (x : ExpState) : Refines (expSave a x) := by
  refine (refines_checkStore _ _).bind fun _ => ?_
  iterate 2 refine (refines_memWrite16 _ _).bind fun _ => ?_
  iterate 8 refine (refines_memWrite32 _ _).bind fun _ => ?_
  exact refines_saveUnnamed _ _

theorem refines_readWets (aux : Bool) : Refines (readWets aux) :=
  .ite ((refines_readReg _ _).bind fun _ => (refines_readReg _ _).bind fun _ => .pure _) (.pure none)

theorem refines_envmixer (init aux : Bool) (block : Word) : Refines (envmixer init aux block) := by
  refine (refines_blockBase block).bind fun a => ?_
  iterate 4 refine (refines_readReg _ _).bind fun _ => ?_
  exact (refines_readWets aux).bind fun _ => (Refines.ite refines_expFromRegs (refines_expFromBlock a)).bind fun _ =>
    (Refines.loopFrom fun _ _ => refines_expSegment _ _ _).bind fun _ => refines_expSave _ _

theorem refines_linFromRegs : Refines linFromRegs := by
  unfold linFromRegs
  iterate 8 refine (refines_readReg _ _).bind fun _ => ?_
  exact .pure _

theorem refines_linFromBlock (a : Nat) : Refines (linFromBlock a) := by
  unfold linFromBlock
  iterate 4 refine (refines_memRead16 _).bind fun _ => ?_
  iterate 4 refine (refines_memRead32 _).bind fun _ => ?_
  exact .pure _

theorem refines_linSave (a : Nat) (x : LinState) : Refines (linSave a x) := by
  refine (refines_checkStore _ _).bind fun _ => ?_
  iterate 4 refine (refines_memWrite16 _ _).bind fun _ => ?_
  iterate 4 refine (refines_memWrite32 _ _).bind fun _ => ?_
  exact refines_saveUnnamed _ _

theorem refines_envmixerLin (init : Bool) (block : Word) : Refines (envmixerLin init block) := by
  refine (refines_blockBase block).bind fun a => ?_
  iterate 6 refine (refines_readReg _ _).bind fun _ => ?_
  exact (Refines.ite refines_linFromRegs (refines_linFromBlock a)).bind fun _ =>
    (Refines.loopFrom fun _ _ => refines_mixerSample _ _ _ _ _).bind fun _ => refines_linSave _ _

/-! ## The nead mixer -/

theorem refines_accumulate (a : Nat) (v : Int) : Refines (accumulate a v) :=
  (refines_d16 _).bind fun _ => refines_d16w _ _

theorem refines_neadMix (b : NeadBufs) (m : NeadMasks) (ev : Envs) (p : Nat) : Refines (neadMix b m ev p) :=
  (refines_d16 _).bind fun _ => (refines_accumulate _ _).bind fun _ => (refines_accumulate _ _).bind fun _ =>
    (refines_accumulate _ _).bind fun _ => refines_accumulate _ _

theorem refines_neadGroup (b : NeadBufs) (m : NeadMasks) (es : Envs) (group : Nat) (ev : Envs) :
    Refines (neadGroup b m es group ev) :=
  (Refines.loop fun _ => refines_neadMix _ _ _ _).bind fun _ => (refines_setEng _).bind fun _ => .pure _

theorem refines_envmixerNead (inp count : Byte) (swap xorWl xorWr xorDl xorDr : Bool) (dl dr wl wr : Byte) :
    Refines (envmixerNead inp count swap xorWl xorWr xorDl xorDr dl dr wl wr) := by
  unfold envmixerNead
  iterate 6 refine (refines_readReg _ _).bind fun _ => ?_
  exact (Refines.loopFrom fun _ _ => refines_neadGroup _ _ _ _ _).bind fun _ => .pure ()

/-! ## The resampler -/

theorem refines_startWindow (init : Bool) (sa : Nat) (ip : Half) : Refines (startWindow init sa ip) :=
  .ite ((Refines.loop fun _ => refines_d16w _ _).bind fun _ => .pure _)
    ((Refines.loop fun _ => (refines_memRead16 _).bind fun _ => refines_d16w _ _).bind fun _ =>
      (refines_memRead16 _).bind fun _ => .pure _)

theorem refines_resampleOne (pitch : Nat) (w : Window) : Refines (resampleOne pitch w) := by
  refine refines_getParams_bind (fun _ _ => rfl) fun _ => ?_
  iterate 4 refine (refines_d16 _).bind fun _ => ?_
  exact (refines_acc32 _).bind fun _ => .pure _

theorem refines_resampleStep (pitch out j : Nat) (w : Window) : Refines (resampleStep pitch out j w) :=
  (refines_resampleOne pitch w).bind fun _ => (refines_d16w _ _).bind fun _ => .pure _

theorem refines_saveWindow (sa : Nat) (w : Window) : Refines (saveWindow sa w) :=
  (refines_checkStore _ _).bind fun _ =>
    (Refines.loop fun _ => (refines_d16 _).bind fun _ => refines_memWrite16 _ _).bind fun _ => refines_memWrite16 _ _

theorem refines_resample (init : Bool) (pitch : Half) (block : Word) : Refines (resample init pitch block) := by
  refine (refines_blockBase block).bind fun _ => ?_
  iterate 3 refine (refines_readReg _ _).bind fun _ => ?_
  exact (refines_startWindow _ _ _).bind fun _ => (Refines.loopFrom fun _ _ => refines_resampleStep _ _ _ _).bind fun _ =>
    refines_saveWindow _ _

/-! ## Every command -/

/-- Every command is the run of one piece, and that piece keeps the two modes in step. -/
theorem exec_eq_runAct_refines (i : Instr) : ∃ x, (∀ s, exec i s = runAct x s) ∧ Refines x :=
  match i with
  | .noop => ⟨_, fun _ => rfl, .pure ()⟩
  | .adpcm init loopFlag twobit lfa => ⟨_, fun _ => rfl, refines_adpcm init loopFlag twobit lfa⟩
  | .clearbuff dmem count => ⟨_, fun _ => rfl, refines_clearbuff dmem count⟩
  | .envmixer init aux block => ⟨_, fun _ => rfl, refines_envmixer init aux block⟩
  | .resample init pitch block => ⟨_, fun _ => rfl, refines_resample init pitch block⟩
  | .resampleFlag2 => ⟨_, fun _ => rfl, refines_refuse .resampleFlag2⟩
  | .setbuff inp out count => ⟨_, fun _ => rfl, refines_setbuff inp out count⟩
  | .setbuffAux dr wl wr => ⟨_, fun _ => rfl, refines_setbuffAux dr wl wr⟩
  | .setvolAux dry wet => ⟨_, fun s => (rfl : execSetvolAux dry wet s = _), refines_setEng _⟩
  | .setvolVol side vol => ⟨_, fun s => (rfl : execSetvolVol side vol s = _), refines_setEng _⟩
  | .setvol side target rate => ⟨_, fun s => (rfl : execSetvol side target rate s = _), refines_setEng _⟩
  | .envsetup1 v2 s2 s0 s1 => ⟨_, fun s => (rfl : execEnvsetup1 v2 s2 s0 s1 s = _), refines_setEng _⟩
  | .envsetup2 v0 v1 => ⟨_, fun s => (rfl : execEnvsetup2 v0 v1 s = _), refines_setEng _⟩
  | .loadadpcm count addr => ⟨_, fun _ => rfl, refines_loadadpcm count addr⟩
  | .setloop addr => ⟨_, fun _ => rfl, refines_setloop addr⟩
  | .envmixerLin init block => ⟨_, fun _ => rfl, refines_envmixerLin init block⟩
  | .envmixerNead _ _ _ _ _ _ _ _ _ _ _ => ⟨_, fun _ => rfl, refines_envmixerNead _ _ _ _ _ _ _ _ _ _ _⟩
  | .loadbuff | .savebuff | .segment | .dmemmove | .mixer | .interleave | .polef
  | .slot11 | .slot14 | .slot15 | .slot17 | .slot18 | .slot19 | .slot1A | .slot1B | .slot1C | .slot1D
  | .slot1E | .slot1F => ⟨outOfBlock, fun _ => rfl, refines_refuse .outOfBlockOpcode⟩
  | .beyond20 op | .beyond40 op | .beyond80 op => ⟨_, fun _ => rfl, refines_warnUnknown op⟩

theorem kind_faultOf (k : FaultKind) (s : State) : (Fault.of k s).kind = k := by cases k <;> rfl

/-- Settles O21: a command that ends in fault mode ends the same in wrap32 mode, and wrap32 mode has no overflow fault;
both by the refinement of the one piece each command runs. -/
theorem faultModeRefinesWrapMode : Obligations.FaultModeRefinesWrapMode := by
  refine ⟨fun i s t h => ?_, fun i s f hm h hk => ?_⟩
  · obtain ⟨x, hx, hr⟩ := exec_eq_runAct_refines i
    rw [hx] at h ⊢
    exact runAct_next_iff.2 (hr.ends (s := s.withAcc .fault) rfl (runAct_next_iff.1 h))
  · obtain ⟨x, hx, hr⟩ := exec_eq_runAct_refines i
    rw [hx] at h
    obtain ⟨k, t, he, rfl⟩ := runAct_fault_iff.1 h
    rw [kind_faultOf] at hk
    exact hr.noOverflow hm (hk ▸ he)

end Sys2Proof.Machine
end

section
/-! SUPPORT. What a command keeps, whatever command it is and however it ends: said once of every command (`exec_keeps`)
from the frames of Laws/Engines.lean, so that the invariant and the register table follow from it alone. -/

namespace Sys2Proof.Machine

/-! ## Which registers a command may write (10_state.md R32) -/

/-- From register file a to b nothing changed but the registers R32's table lets the command write. -/
def MayWrite (i : Instr) (a b : Engine) : Prop :=
  match i with
  | .setbuff _ _ _ => b = { a with inp := b.inp, out := b.out, count := b.count }
  | .setbuffAux _ _ _ => b = { a with dryRight := b.dryRight, wetLeft := b.wetLeft, wetRight := b.wetRight }
  | .setvolAux _ _ => b = { a with dry := b.dry, wet := b.wet }
  | .setvolVol c v => b = a.setVol c v
  | .setvol c v r => b = (a.setTarget c v).setRate c r
  | .loadadpcm _ _ => b = { a with codebook := b.codebook }
  | .setloop _ => b = { a with loop := b.loop }
  | .envsetup1 _ _ _ _ =>
    b = { a with envValue2 := b.envValue2, envStep0 := b.envStep0, envStep1 := b.envStep1, envStep2 := b.envStep2 }
  | .envsetup2 _ _ => b = { a with envValue0 := b.envValue0, envValue1 := b.envValue1 }
  | .envmixerNead _ _ _ _ _ _ _ _ _ _ _ => EnvOnly a b
  | _ => EngSame a b

/-! ## The frame of a command -/

/-- What a command that started on s keeps in the state t it leaves: all that `Within` says but for the log, which grows by
the command's own events. -/
structure CommandKeeps (i : Instr) (s t : State) : Prop where
  upToLog : Within (MayWrite i) (fun _ => True) (fun _ => True) s { t with log := s.log }
  log : t.log = s.log ++ eventsOf i s

/-- A command without events that stays within a frame of its own. -/
theorem CommandKeeps.of_within {i : Instr} {S M : Nat → Prop} {s t : State} (h : Within (MayWrite i) S M s t)
    (he : eventsOf i s = []) : CommandKeeps i s t where
  upToLog :=
    { eng := h.eng
      control := { h.control with log := rfl }
      scratch := fun _ _ hn => absurd trivial hn
      main := fun _ hn => absurd trivial hn
      unread := h.unread
      smWf := h.smWf
      mmWf := h.mmWf }
  log := by rw [he, List.append_nil, h.control.log]

/-- Another register file, and nothing else. -/
theorem within_set_eng {E : Engine → Engine → Prop} {s : State} {e : Engine} (h : E s.eng e) :
    Within E (fun _ => False) (fun _ => False) s { s with eng := e } where
  eng := h
  control := ⟨rfl, rfl, rfl, rfl, rfl, rfl⟩
  scratch := fun _ _ _ => rfl
  main := fun _ _ => rfl
  unread := fun _ _ _ => rfl
  smWf := id
  mmWf := id

theorem mayWrite_loadadpcm_framing (count : Half) (addr : Word) : EngFraming (MayWrite (.loadadpcm count addr)) where
  refl _ := rfl
  trans a b c h1 h2 := by unfold MayWrite at *; rw [h2, h1]

/-- LOADADPCM touches the codebook alone (R149). -/
theorem keeps_loadadpcm (count : Half) (addr : Word) :
    Keeps (Within (MayWrite (.loadadpcm count addr)) (fun _ => False) fun _ => False) (loadadpcm count addr) := by
  have hE := mayWrite_loadadpcm_framing count addr
  have F := within_framing hE (fun _ => False) fun _ => False
  exact Keeps.bind F ((Silent.resolve _).keeps F) fun _ => Keeps.bind F (Keeps.refuseIf F _ _) fun _ =>
    Keeps.bind F ((Silent.checkAlign _).keeps F) fun _ => Keeps.loop F fun _ _ =>
      Keeps.bind F ((Silent.memRead16 _).keeps F) fun _ => keeps_setEng fun _ => rfl

/-- CLEARBUFF touches scratch alone (R150). -/
theorem keeps_clearbuff (dmem count : Half) :
    Keeps (Within EngSame (fun _ => True) fun _ => False) (clearbuff dmem count) := by
  have F := framing_same (fun _ => True) fun _ => False
  exact Keeps.bind F (Silent.getParams.keeps F) fun _ => Keeps.loop F fun _ _ => keeps_d8w engSame_framing _ trivial

/-- An opcode beyond the table adds its warning and nothing else (R104). -/
theorem warnUnknown_keeps {i : Instr} {op : Byte} {s : State} (hw : MayWrite i = EngSame)
    (he : eventsOf i s = [.unknownOpcode op (s.cp - 8)]) : CommandKeeps i s (leaves (warnUnknown op) s) where
  upToLog := hw ▸ (framing_same _ _).refl s
  log := by rw [he]; rfl

/-- A slot outside the block changes nothing: it only stops (R105). -/
theorem refuse_keeps {i : Instr} {s : State} (r : RefuseReason) (hw : MayWrite i = EngSame) (he : eventsOf i s = []) :
    CommandKeeps i s (leaves (refuse r : Act Unit) s) :=
  .of_within (within_set_eng (hw ▸ rfl)) he

/-- Every command is the run of one piece, and that piece, whether it ends or stops, stays within the command's frame. -/
theorem exec_keeps (i : Instr) : ∃ x, (∀ s, exec i s = runAct x s) ∧ ∀ s, CommandKeeps i s (leaves x s) :=
  match i with
  | .noop => ⟨pure (), fun _ => rfl, fun _ => .of_within (within_set_eng rfl) rfl⟩
  | .adpcm init loopFlag twobit lfa => ⟨_, fun _ => rfl, fun s => .of_within (adpcm_within init loopFlag twobit lfa s) rfl⟩
  | .clearbuff dmem count => ⟨_, fun _ => rfl, fun s => .of_within (keeps_clearbuff dmem count s) rfl⟩
  | .envmixer init aux block => ⟨_, fun _ => rfl, fun s => .of_within (envmixer_within init aux block s) rfl⟩
  | .envmixerLin init block => ⟨_, fun _ => rfl, fun s => .of_within (envmixerLin_within init block s) rfl⟩
  | .envmixerNead _ _ _ _ _ _ _ _ _ _ _ =>
    ⟨_, fun _ => rfl, fun s => .of_within (envmixerNead_within _ _ _ _ _ _ _ _ _ _ _ s) rfl⟩
  | .resample init pitch block => ⟨_, fun _ => rfl, fun s => .of_within (resample_within init pitch block s) rfl⟩
  | .loadadpcm count addr => ⟨_, fun _ => rfl, fun s => .of_within (keeps_loadadpcm count addr s) rfl⟩
  | .setbuff inp out count => ⟨setbuff inp out count, fun _ => rfl, fun _ => .of_within (within_set_eng rfl) rfl⟩
  | .setbuffAux dr wl wr => ⟨setbuffAux dr wl wr, fun _ => rfl, fun _ => .of_within (within_set_eng rfl) rfl⟩
  | .setvolAux dry wet => ⟨_, fun s => (rfl : execSetvolAux dry wet s = _), fun _ => .of_within (within_set_eng rfl) rfl⟩
  | .setvolVol c v => ⟨_, fun s => (rfl : execSetvolVol c v s = _), fun _ => .of_within (within_set_eng rfl) rfl⟩
  | .setvol c v r => ⟨_, fun s => (rfl : execSetvol c v r s = _), fun _ => .of_within (within_set_eng rfl) rfl⟩
  | .setloop addr => ⟨setloop addr, fun _ => rfl, fun _ => .of_within (within_set_eng rfl) rfl⟩
  | .envsetup1 v2 s2 s0 s1 =>
    ⟨_, fun s => (rfl : execEnvsetup1 v2 s2 s0 s1 s = _), fun _ => .of_within (within_set_eng rfl) rfl⟩
  | .envsetup2 v0 v1 => ⟨_, fun s => (rfl : execEnvsetup2 v0 v1 s = _), fun _ => .of_within (within_set_eng rfl) rfl⟩
  | .resampleFlag2 => ⟨_, fun _ => rfl, fun _ => refuse_keeps .resampleFlag2 rfl rfl⟩
  | .loadbuff | .savebuff | .segment | .dmemmove | .mixer | .interleave | .polef
  | .slot11 | .slot14 | .slot15 | .slot17 | .slot18 | .slot19 | .slot1A | .slot1B | .slot1C | .slot1D
  | .slot1E | .slot1F => ⟨outOfBlock, fun _ => rfl, fun _ => refuse_keeps .outOfBlockOpcode rfl rfl⟩
  | .beyond20 _ | .beyond40 _ | .beyond80 _ => ⟨_, fun _ => rfl, fun _ => warnUnknown_keeps rfl rfl⟩

/-- The frame of a command that ends. -/
theorem commandKeeps_of_next {i : Instr} {s t : State} (h : exec i s = .next t) : CommandKeeps i s t := by
  obtain ⟨x, hx, hk⟩ := exec_keeps i
  rw [hx] at h
  exact leaves_of_ok (runAct_next_iff.1 h) ▸ hk s

/-! ## The register table, row by row -/

theorem vol_setVol_of_ne {c d : Side} (h : c ≠ d) (e : Engine) (v : Half) : (e.setVol d v).vol c = e.vol c := by
  cases c <;> cases d <;> first | rfl | exact absurd rfl h

theorem setTarget_setRate_of_ne {c d : Side} (h : c ≠ d) (e : Engine) (v : Half) (r : Word) :
    ((e.setTarget d v).setRate d r).target c = e.target c ∧ ((e.setTarget d v).setRate d r).rate c = e.rate c := by
  cases c <;> cases d <;> first | exact ⟨rfl, rfl⟩ | exact absurd rfl h

section
variable {i : Instr} {a b : Engine} (h : MayWrite i a b)
include h

theorem MayWrite.buffers (hn : ∀ x y z, i ≠ .setbuff x y z) :
    b.inp = a.inp ∧ b.out = a.out ∧ b.count = a.count := by
  cases i
  case setbuff => exact absurd rfl (hn _ _ _)
  all_goals rewrite [show b = _ from h]; simp

theorem MayWrite.auxBuffers (hn : ∀ x y z, i ≠ .setbuffAux x y z) :
    b.dryRight = a.dryRight ∧ b.wetLeft = a.wetLeft ∧ b.wetRight = a.wetRight := by
  cases i
  case setbuffAux => exact absurd rfl (hn _ _ _)
  all_goals rewrite [show b = _ from h]; simp

theorem MayWrite.gains (hn : ∀ x y, i ≠ .setvolAux x y) : b.dry = a.dry ∧ b.wet = a.wet := by
  cases i
  case setvolAux => exact absurd rfl (hn _ _)
  all_goals rewrite [show b = _ from h]; simp

theorem MayWrite.vol {c : Side} (hn : ∀ x, i ≠ .setvolVol c x) : b.vol c = a.vol c := by
  cases i
  case setvolVol d v =>
    rw [show b = _ from h]
    exact vol_setVol_of_ne (fun hc => hn v (by rw [hc])) a v
  all_goals rewrite [show b = _ from h]; cases c <;> simp [Engine.vol]

theorem MayWrite.targetAndRate {c : Side} (hn : ∀ x y, i ≠ .setvol c x y) :
    b.target c = a.target c ∧ b.rate c = a.rate c := by
  cases i
  case setvol d v r =>
    rw [show b = _ from h]
    exact setTarget_setRate_of_ne (fun hc => hn v r (by rw [hc])) a v r
  all_goals rewrite [show b = _ from h]; cases c <;> simp [Engine.target, Engine.rate]

theorem MayWrite.loop (hn : ∀ x, i ≠ .setloop x) : b.loop = a.loop := by
  cases i
  case setloop => exact absurd rfl (hn _)
  all_goals rewrite [show b = _ from h]; simp

theorem MayWrite.codebook (hn : ∀ x y, i ≠ .loadadpcm x y) : b.codebook = a.codebook := by
  cases i
  case loadadpcm => exact absurd rfl (hn _ _)
  all_goals rewrite [show b = _ from h]; simp

theorem MayWrite.envSteps (hn : ∀ x y z w, i ≠ .envsetup1 x y z w) (c : EnvCh) : b.envStep c = a.envStep c := by
  cases i
  case envsetup1 => exact absurd rfl (hn _ _ _ _)
  all_goals rewrite [show b = _ from h]; cases c <;> simp [Engine.envStep]

theorem MayWrite.envValue2 (hn : ∀ p q r t u v w x y z m, i ≠ .envmixerNead p q r t u v w x y z m)
    (hn1 : ∀ x y z w, i ≠ .envsetup1 x y z w) : b.envValue .c2 = a.envValue .c2 := by
  cases i
  case envmixerNead => exact absurd rfl (hn _ _ _ _ _ _ _ _ _ _ _)
  case envsetup1 => exact absurd rfl (hn1 _ _ _ _)
  all_goals rewrite [show b = _ from h]; simp [Engine.envValue]

theorem MayWrite.envValues01 (hn : ∀ p q r t u v w x y z m, i ≠ .envmixerNead p q r t u v w x y z m)
    (hn2 : ∀ x y, i ≠ .envsetup2 x y) :
    b.envValue .c0 = a.envValue .c0 ∧ b.envValue .c1 = a.envValue .c1 := by
  cases i
  case envmixerNead => exact absurd rfl (hn _ _ _ _ _ _ _ _ _ _ _)
  case envsetup2 => exact absurd rfl (hn2 _ _)
  all_goals rewrite [show b = _ from h]; simp [Engine.envValue]

end

/-- Settles O14: a command that ends wrote only registers it may write, and each row of R32's table reads this off. -/
theorem onlySetupCommandsWriteRegisters : Obligations.OnlySetupCommandsWriteRegisters := by
  intro i s t h
  have he : MayWrite i s.eng t.eng := (commandKeeps_of_next h).upToLog.eng
  exact ⟨he.buffers, he.auxBuffers, he.gains, fun _ => he.vol, fun _ => he.targetAndRate, he.loop, he.codebook,
    he.envSteps, fun hn => ⟨he.envValue2 hn, he.envValues01 hn⟩⟩

end Sys2Proof.Machine
end

section
/-! SUPPORT. The invariant of the block (10_state.md R39; 20_memory.md R70, R75): a host action, the end of a list and a
fetched command each keep it. -/

namespace Sys2Proof.Machine

/-- While no list runs, the invariant is about the memories and their size alone. -/
theorem State.Inv.of_idle {s : State} (hi : s.status = .idle) (hs : Mem.wf Config.scratchSize s.sm)
    (hm : Mem.wf s.params.mmSize s.mm) (hp : MmSizeOk s.params) : s.Inv :=
  ⟨hs, hm, hp, fun hr => by rw [hi] at hr; cases hr⟩

/-- An Invoke that is accepted sets cp and cend to the ends of an aligned list below `MM_SIZE` (R140). -/
theorem invoke_ok {addr size : Nat} {s t : State} (h : invoke addr size s = .ok () t) :
    size % 8 = 0 ∧ addr % 8 = 0 ∧ addr + size ≤ s.params.mmSize ∧
      t = { s with eng := s.eng.clearWritten, cp := addr, cend := addr + size, status := .running } := by
  obtain ⟨_, _, h1, k1⟩ := bind_ok_iff.1 h
  obtain ⟨_, _, h2, k2⟩ := bind_ok_iff.1 k1
  obtain ⟨_, _, h3, k3⟩ := bind_ok_iff.1 k2
  obtain ⟨hsize, rfl⟩ := refuseIf_ok_iff.1 h1
  obtain ⟨haddr, rfl⟩ := checkAlign_ok_iff.1 h2
  obtain ⟨hrange, rfl⟩ := checkRange_ok_iff.1 h3
  cases k3
  exact ⟨by simpa using hsize, haddr, hrange, rfl⟩

/-- Every host action that is not refused keeps the invariant (R140, R82, R78). -/
theorem hostAction_inv {a : HostAction} {s t : State} (hi : s.status = .idle) (h : s.Inv)
    (ht : hostAction a s = .ok () t) : t.Inv := by
  cases a with
  | invoke addr size =>
    obtain ⟨h1, h2, h3, rfl⟩ := invoke_ok ht
    exact ⟨h.smWf, h.mmWf, h.mmSizeOk, fun _ => ⟨Nat.le_add_right addr size, h3, h2, by simp; omega⟩⟩
  | writeScratch a v =>
    cases ht
    exact .of_idle hi (Mem.wf_write h.smWf (Nat.mod_lt _ (by decide)) v) h.mmWf h.mmSizeOk
  | writeMain a v =>
    obtain ⟨_, _, h1, h2⟩ := bind_ok_iff.1 ht
    obtain ⟨h1, rfl⟩ := checkRange_ok_iff.1 h1
    cases h2
    exact .of_idle hi h.smWf (Mem.wf_write h.mmWf h1 v) h.mmSizeOk
  | setResolve r =>
    cases ht
    exact .of_idle hi h.smWf h.mmWf h.mmSizeOk

/-- A command keeps the invariant, whether it ends or stops: memories stay canonical, and cp and cend stay. -/
theorem CommandKeeps.inv {i : Instr} {s t : State} (hk : CommandKeeps i s t) (h : s.Inv) : t.Inv := by
  obtain ⟨hcp, hcend, hstatus, -, hparams, -⟩ := hk.upToLog.control
  dsimp only at hcp hcend hstatus hparams
  refine ⟨hk.upToLog.smWf h.smWf, ?_, ?_, ?_⟩
  · rw [hparams]; exact hk.upToLog.mmWf h.mmWf
  · rw [hparams]; exact h.mmSizeOk
  · rw [hcp, hcend, hstatus, hparams]; exact h.list

/-- Fetch moves cp on by 8, which keeps it a multiple of 8 not past cend where the list has not ended (R141, R39). -/
theorem State.Inv.fetched {s : State} (h : s.Inv) (hr : s.status = .running) (hne : s.cp ≠ s.cend) :
    State.Inv { s with cp := s.cp + 8 } := by
  obtain ⟨h1, h2, h3, h4⟩ := h.list hr
  exact ⟨h.smWf, h.mmWf, h.mmSizeOk, fun _ => ⟨by dsimp; omega, h2, by dsimp; omega, h4⟩⟩

/-- Settles O18, by the four things a step that answers a next state can be. -/
theorem stepKeepsTheInvariant : Obligations.StepKeepsTheInvariant := by
  intro s t h hst
  rcases step_next_cases hst with ⟨-, -, rfl⟩ | ⟨a, rest, hi, -, ha⟩ | ⟨-, -, rfl⟩ | ⟨hr, hne, -, hx⟩
  · exact h
  · exact hostAction_inv (s := { s with host := rest }) hi ⟨h.smWf, h.mmWf, h.mmSizeOk, h.list⟩ (runAct_next_iff.1 ha)
  · exact .of_idle rfl h.smWf h.mmWf h.mmSizeOk
  · exact (commandKeeps_of_next hx).inv (h.fetched hr hne)

/-- Settles O19: no byte is listed, and no list runs. -/
theorem resetMeetsTheInvariant : Obligations.ResetMeetsTheInvariant :=
  .of_idle rfl (Mem.wf_nil _) (Mem.wf_nil _) ⟨by decide, by decide⟩

/-- Settles O20: the register file is blank, and the table carries the proof that it meets R301. -/
theorem resetIsThePowerOnState : Obligations.ResetIsThePowerOnState :=
  ⟨rfl, rfl, blank_unwritten, Config.hardwareLut_meets_r301⟩

end Sys2Proof.Machine
end

section
/-! SUPPORT. The ways a run ends short (10_state.md R40; 60_exceptions.md R342): every step answers a next state or a stop,
and a stop carries a state that answers the same stop again. -/

namespace Sys2Proof.Machine

/-- A command answers a next state or a stop. -/
theorem runAct_cases (x : Act Unit) (s : State) :
    (∃ t, runAct x s = .next t) ∨ ∃ why t, runAct x s = Stop.outcome why t := by
  unfold runAct
  cases x s with
  | ok _ t => exact .inl ⟨t, rfl⟩
  | error why t => exact .inr ⟨why, t, rfl⟩

/-- A step answers a next state or a stop. -/
theorem step_cases (s : State) : (∃ t, step s = .next t) ∨ ∃ why t, step s = Stop.outcome why t := by
  cases hs : s.status with
  | idle =>
    rw [step_idle hs]
    cases hh : s.host with
    | nil => exact .inl ⟨s, idleStep_nil hh⟩
    | cons a rest => rw [idleStep_cons hh]; exact runAct_cases _ _
  | running =>
    by_cases he : s.cp = s.cend
    · exact .inl ⟨_, step_end hs he⟩
    · rw [step_command hs he]
      by_cases hr : s.cp + 8 ≤ s.params.mmSize
      · obtain ⟨x, hx, -⟩ := exec_eq_runAct_refines (decodeWords (s.mmWord s.cp) (s.mmWord (s.cp + 4)))
        rw [commandStep_in_range hr, hx]
        exact runAct_cases _ _
      · exact .inr ⟨_, _, commandStep_out_of_range (by omega)⟩
  | faulted k => exact .inr ⟨_, _, step_faulted hs⟩
  | refused r => exact .inr ⟨_, _, step_refused hs⟩

/-- A step that faults answers a stop's fault. -/
theorem step_fault {s : State} {f : Fault} (h : step s = .fault f) :
    ∃ k, ∃ t : State, f = Fault.of k { t with status := .faulted k } := by
  rcases step_cases s with ⟨t, ht⟩ | ⟨(k | r), t, ht⟩ <;> rw [ht] at h <;> cases h
  exact ⟨k, t, rfl⟩

/-- A step that refuses answers a stop's refusal. -/
theorem step_refusal {s : State} {r : Refusal} (h : step s = .refused r) :
    ∃ why, ∃ t : State, r = Refusal.of why { t with status := .refused why } := by
  rcases step_cases s with ⟨t, ht⟩ | ⟨(k | why), t, ht⟩ <;> rw [ht] at h <;> cases h
  exact ⟨why, t, rfl⟩

@[simp] theorem last_faultOf (k : FaultKind) (t : State) : (Fault.of k t).last = t := by cases k <;> rfl

@[simp] theorem stopped_refusalOf (why : RefuseReason) (t : State) :
    (Refusal.of why t).stopped = some (why, t) := by cases why <;> rfl

/-- Settles O12: a stop's state names the stop in its status, and a step from that status answers the stop again. -/
theorem faultedAndRefusedAreFinal : Obligations.FaultedAndRefusedAreFinal := by
  refine ⟨fun s f h => ?_, fun s r h => ?_⟩
  · obtain ⟨k, t, rfl⟩ := step_fault h
    rw [last_faultOf, kind_faultOf]
    exact ⟨rfl, step_faulted rfl⟩
  · obtain ⟨why, t, rfl⟩ := step_refusal h
    exact ⟨why, _, stopped_refusalOf why _, rfl, step_refused rfl⟩

end Sys2Proof.Machine
end

section
/-! SUPPORT. The checks at the start of a command (60_exceptions.md R346; 70_reset_and_hazards.md R374): the block's
alignment, then the setup registers in their order. `ReadsFirst` says of a piece that it starts with such reads, whatever
it does after them. -/

namespace Sys2Proof.Machine

variable {α β : Type}

/-- The first of some registers that is unwritten. -/
def State.firstUnwritten (s : State) (rs : List RegName) : Option RegName := rs.find? fun r => !s.eng.isWritten r

theorem firstUnwritten_of_split {s : State} {pre post : List RegName} {r : RegName}
    (hpre : ∀ q ∈ pre, s.eng.isWritten q = true) (hr : s.eng.isWritten r = false) :
    s.firstUnwritten (pre ++ r :: post) = some r :=
  List.find?_eq_some_iff_append.2 ⟨by simp [hr], pre, post, rfl, by simpa using hpre⟩

/-- On s, x faults at the first of the registers rs that is unwritten, with nothing changed. -/
def ReadsFirst (rs : List RegName) (x : Act α) (s : State) : Prop :=
  ∀ r, s.firstUnwritten rs = some r → x s = .error (.fault (.unwritten r)) s

theorem ReadsFirst.nil (x : Act α) (s : State) : ReadsFirst [] x s := nofun

/-- What follows the reads does not matter. -/
theorem ReadsFirst.bind {rs : List RegName} {x : Act α} {s : State} (h : ReadsFirst rs x s) (f : α → Act β) :
    ReadsFirst rs (x >>= f) s := fun r hr => bind_of_error (h r hr)

/-- The block's base is resolved and aligned: the reads come next. -/
theorem ReadsFirst.blockBase {rs : List RegName} {w : Word} {f : Nat → Act β} {s : State} (ha : s.resolved w % 8 = 0)
    (h : ∀ a, ReadsFirst rs (f a) s) : ReadsFirst rs (blockBase w >>= f) s := fun r hr => by
  rw [bind_of_ok (blockBase_ok_iff.2 ⟨rfl, ha, rfl⟩)]
  exact h _ r hr

/-- One register is read, and the other reads come next. -/
theorem ReadsFirst.readReg {rs : List RegName} {w : Nat} {name : RegName} {get : Engine → Reg w} {f : BitVec w → Act β}
    {s : State} (hg : (get s.eng).written = s.eng.isWritten name) (h : ∀ v, ReadsFirst rs (f v) s) :
    ReadsFirst (name :: rs) (readReg name get >>= f) s := fun r hr => by
  cases hw : s.eng.isWritten name with
  | false =>
    obtain rfl : name = r := by simpa [State.firstUnwritten, hw] using hr
    exact bind_of_error (readReg_unwritten (hg.trans hw))
  | true =>
    rw [bind_of_ok (readReg_written (hg.trans hw))]
    exact h _ r (by simpa [State.firstUnwritten, hw] using hr)

/-! ## The reads of each command -/

theorem readsFirst_loadHistory (init loopFlag : Bool) (lfa : Nat) (s : State) :
    ReadsFirst (if !init && loopFlag then [.loop] else []) (loadHistory init loopFlag lfa) s := by
  cases init <;> cases loopFlag
  case false.true => exact .readReg rfl fun _ => .nil _ _
  all_goals exact .nil _ _

theorem readsFirst_adpcm {init loopFlag twobit : Bool} {w : Word} {s : State} (ha : s.resolved w % 8 = 0) :
    ReadsFirst (setupOf (.adpcm init loopFlag twobit w)) (adpcm init loopFlag twobit w) s :=
  .blockBase ha fun _ => .readReg rfl fun _ => .readReg rfl fun _ => .readReg rfl fun _ =>
    (readsFirst_loadHistory init loopFlag _ s).bind _

theorem readsFirst_expFromRegs (s : State) : ReadsFirst initRegs expFromRegs s := by
  iterate 8 refine .readReg rfl fun _ => ?_
  exact .nil _ _

theorem readsFirst_linFromRegs (s : State) : ReadsFirst initRegs linFromRegs s := by
  iterate 8 refine .readReg rfl fun _ => ?_
  exact .nil _ _

theorem readsFirst_expLoad (init : Bool) (a : Nat) (s : State) :
    ReadsFirst (if init then initRegs else []) (expLoad init a) s := by
  cases init
  · exact .nil _ _
  · exact readsFirst_expFromRegs s

theorem readsFirst_linLoad (init : Bool) (a : Nat) (s : State) :
    ReadsFirst (if init then initRegs else []) (linLoad init a) s := by
  cases init
  · exact .nil _ _
  · exact readsFirst_linFromRegs s

/-- The wet buffers are read with AUX alone, and the other reads come next (R246). -/
theorem ReadsFirst.readWets {rs : List RegName} {aux : Bool} {f : Option (Nat × Nat) → Act β} {s : State}
    (h : ∀ x, ReadsFirst rs (f x) s) :
    ReadsFirst ((if aux then [.wetLeft, .wetRight] else []) ++ rs) (readWets aux >>= f) s := by
  cases aux
  · exact h none
  · unfold Machine.readWets
    simp only [if_true, act_bind_assoc]
    exact .readReg rfl fun _ => .readReg rfl fun _ => h _

theorem readsFirst_envmixer {init aux : Bool} {w : Word} {s : State} (ha : s.resolved w % 8 = 0) :
    ReadsFirst (setupOf (.envmixer init aux w)) (envmixer init aux w) s := by
  refine .blockBase ha fun a => ?_
  iterate 4 refine .readReg rfl fun _ => ?_
  exact .readWets fun _ => (readsFirst_expLoad init a s).bind _

theorem readsFirst_envmixerLin {init : Bool} {w : Word} {s : State} (ha : s.resolved w % 8 = 0) :
    ReadsFirst (setupOf (.envmixerLin init w)) (envmixerLin init w) s := by
  refine .blockBase ha fun a => ?_
  iterate 6 refine .readReg rfl fun _ => ?_
  exact (readsFirst_linLoad init a s).bind _

theorem readsFirst_resample {init : Bool} {pitch : Half} {w : Word} {s : State} (ha : s.resolved w % 8 = 0) :
    ReadsFirst (setupOf (.resample init pitch w)) (resample init pitch w) s := by
  refine .blockBase ha fun a => ?_
  iterate 3 refine .readReg rfl fun _ => ?_
  exact .nil _ _

theorem readsFirst_envmixerNead (inp count : Byte) (swap xorWl xorWr xorDl xorDr : Bool) (dl dr wl wr : Byte)
    (s : State) :
    ReadsFirst (setupOf (.envmixerNead inp count swap xorWl xorWr xorDl xorDr dl dr wl wr))
      (envmixerNead inp count swap xorWl xorWr xorDl xorDr dl dr wl wr) s := by
  iterate 6 refine .readReg rfl fun _ => ?_
  exact .nil _ _

/-- A command whose block is aligned reads its setup registers first, in the order of `setupOf`. -/
theorem exec_readsFirst {i : Instr} {s : State} (hb : ∀ w, blockWordOf i = some w → s.resolved w % 8 = 0) :
    setupOf i = [] ∨ ∃ x, exec i s = runAct x s ∧ ReadsFirst (setupOf i) x s := by
  cases i
  case adpcm => exact .inr ⟨_, rfl, readsFirst_adpcm (hb _ rfl)⟩
  case envmixer => exact .inr ⟨_, rfl, readsFirst_envmixer (hb _ rfl)⟩
  case envmixerLin => exact .inr ⟨_, rfl, readsFirst_envmixerLin (hb _ rfl)⟩
  case resample => exact .inr ⟨_, rfl, readsFirst_resample (hb _ rfl)⟩
  case envmixerNead => exact .inr ⟨_, rfl, readsFirst_envmixerNead _ _ _ _ _ _ _ _ _ _ _ s⟩
  all_goals exact .inl rfl

/-- A command with a block starts with its base (R77). -/
theorem exec_startsWithBlockBase {i : Instr} {w : Word} (h : blockWordOf i = some w) :
    ∃ f, ∀ s, exec i s = runAct (blockBase w >>= f) s := by
  cases i
  case adpcm | envmixer | envmixerLin | resample => cases h; exact ⟨_, fun _ => rfl⟩
  all_goals cases h

/-- Settles O34: a command starts with its block's base and goes on with the reads of its setup, and a stop among them
leaves the state as it was. -/
theorem setupChecksComeFirst : Obligations.SetupChecksComeFirst := by
  refine ⟨fun i s w hw ha => ?_, fun i s pre post r hsetup hb hpre hr => ?_⟩
  · obtain ⟨f, hf⟩ := exec_startsWithBlockBase hw
    rw [hf, runAct_of_error (bind_of_error (blockBase_misaligned ha))]
    rfl
  · obtain hnil | ⟨x, hx, hfirst⟩ := exec_readsFirst hb
    · simp [hnil] at hsetup
    · rw [hsetup] at hfirst
      rw [hx, runAct_of_error (hfirst r (firstUnwritten_of_split hpre hr))]
      rfl

end Sys2Proof.Machine
end

section
/-! SUPPORT. The unread part of a running list (20_memory.md R83; 40_control.md R141, R143): no command changes a byte of
it, so each step of a running list only moves cp on by 8, and a run leaves what is still to be fetched as it stood. -/

namespace Sys2Proof.Machine

/-- The frame of a command that faults: it holds of the state the fault carries, up to its status. -/
theorem commandKeeps_of_fault {i : Instr} {s : State} {f : Fault} (h : exec i s = .fault f) :
    ∃ k t, f = Fault.of k { t with status := .faulted k } ∧ CommandKeeps i s t := by
  obtain ⟨x, hx, hk⟩ := exec_keeps i
  rw [hx] at h
  obtain ⟨k, t, ht, rfl⟩ := runAct_fault_iff.1 h
  exact ⟨k, t, rfl, leaves_of_error ht ▸ hk s⟩

/-- The frame of a command that is refused. -/
theorem commandKeeps_of_refused {i : Instr} {s : State} {r : Refusal} (h : exec i s = .refused r) :
    ∃ why t, r = Refusal.of why { t with status := .refused why } ∧ CommandKeeps i s t := by
  obtain ⟨x, hx, hk⟩ := exec_keeps i
  rw [hx] at h
  obtain ⟨why, t, ht, rfl⟩ := runAct_refused_iff.1 h
  exact ⟨why, t, rfl, leaves_of_error ht ▸ hk s⟩

/-- Settles O15: the frame of a command leaves the unread list alone, and a stop's state is the state the command left. -/
theorem noCommandChangesTheUnreadList : Obligations.NoCommandChangesTheUnreadList := by
  refine fun i s a h1 h2 => ⟨fun t h => ?_, fun f h => ?_, fun r why t h hr => ?_⟩
  · exact (commandKeeps_of_next h).upToLog.unread a h1 h2
  · obtain ⟨k, t, rfl, hk⟩ := commandKeeps_of_fault h
    rw [last_faultOf]
    exact hk.upToLog.unread a h1 h2
  · obtain ⟨why', u, rfl, hk⟩ := commandKeeps_of_refused h
    rw [stopped_refusalOf] at hr
    cases hr
    exact hk.upToLog.unread a h1 h2

/-- From s to t, k commands of a list were fetched, and what is still to be fetched stands as it stood. -/
structure FetchedAsItStood (k : Nat) (s t : State) : Prop where
  cp : t.cp = s.cp + 8 * k
  cend : t.cend = s.cend
  unread : ∀ a, t.cp ≤ a → a < t.cend → t.mm.read a = s.mm.read a

theorem FetchedAsItStood.refl (s : State) : FetchedAsItStood 0 s s := ⟨rfl, rfl, fun _ _ _ => rfl⟩

theorem FetchedAsItStood.trans {j k : Nat} {s t u : State} (h1 : FetchedAsItStood j s t) (h2 : FetchedAsItStood k t u) :
    FetchedAsItStood (k + j) s u where
  cp := by rw [h2.cp, h1.cp]; omega
  cend := h2.cend.trans h1.cend
  unread a ha hb := (h2.unread a ha hb).trans (h1.unread a (by have := h2.cp; omega) (h2.cend ▸ hb))

/-- A step of a running list is the end of the list, or it fetches one command and the list runs on (R141). -/
theorem step_of_running {s t : State} (hs : s.status = .running) (h : step s = .next t) :
    t = endOfList s ∨ (t.status = .running ∧ t.host = s.host ∧ FetchedAsItStood 1 s t) := by
  rcases step_next_cases h with ⟨hi, -⟩ | ⟨_, _, hi, -⟩ | ⟨-, -, rfl⟩ | ⟨-, -, -, hx⟩
  · rw [hs] at hi; cases hi
  · rw [hs] at hi; cases hi
  · exact .inl rfl
  · have hk := (commandKeeps_of_next hx).upToLog
    obtain ⟨hcp, hcend, hstatus, -, -, hhost⟩ := hk.control
    dsimp only at hcp hcend hstatus hhost
    exact .inr ⟨hstatus.trans hs, hhost, hcp, hcend, fun a h1 h2 => hk.unread a (hcp ▸ h1) (hcend ▸ h2)⟩

/-- A run of k + 1 steps that ends is a step that ends, then a run of k steps. -/
theorem run_succ_next_iff {M : Host.Core} {k : Nat} {s u : M.State} :
    M.run (k + 1) s = .next u ↔ ∃ t, M.step s = .next t ∧ M.run k t = .next u := by
  rw [Host.Core.run]
  cases M.step s <;> simp

/-- An Idle block that the host asks nothing of stays as it is. -/
theorem run_idle {s : State} (hs : s.status = .idle) (hh : s.host = []) (k : Nat) : core.run k s = .next s := by
  induction k with
  | zero => rfl
  | succ k ih => exact run_succ_next_iff (M := core).2 ⟨s, (step_idle hs).trans (idleStep_nil hh), ih⟩

/-- A run that finds the list still running has fetched a command at every step. -/
theorem run_fetchedAsItStood {k : Nat} {s u : State} (hs : s.status = .running) (hh : s.host = [])
    (hrun : core.run k s = .next u) (hu : u.status = .running) : FetchedAsItStood k s u := by
  induction k generalizing s with
  | zero => cases hrun; exact .refl _
  | succ k ih =>
    obtain ⟨t, hstep, hrest⟩ := run_succ_next_iff (M := core).1 hrun
    rcases step_of_running hs hstep with rfl | ⟨ht, hth, hf⟩
    · rw [run_idle (endOfList_status s) hh] at hrest
      cases hrest
      cases hu
    · exact hf.trans (ih ht (hth.trans hh) hrest)

/-- Settles O16, by induction on the steps of the run. -/
theorem theListIsFetchedAsItStood : Obligations.TheListIsFetchedAsItStood := by
  intro k s u hs hh hrun hu
  obtain ⟨hcp, hcend, hread⟩ := run_fetchedAsItStood hs hh hrun hu
  exact ⟨hcp, hcend, hread⟩

end Sys2Proof.Machine
end

section
/-! SUPPORT. Stores to the two memories (20_memory.md R71, R74 to R76, R78, R82, R83): what a later load reads, which bytes
stay, and which stores are refused. -/

namespace Sys2Proof.Machine

/-! ## Scratch -/

theorem scratch_poke16_high (s : State) (a : Nat) (v : Int) : (poke16 s a v).scratch a = (lo16 v).extractLsb' 8 8 := by
  unfold poke16
  rw [scratch_poke8, if_neg (by omega), scratch_poke8, if_pos rfl]

theorem scratch_poke16_low (s : State) (a : Nat) (v : Int) :
    (poke16 s a v).scratch (a + 1) = (lo16 v).extractLsb' 0 8 := by
  unfold poke16
  rw [scratch_poke8, if_pos rfl]

/-- Settles O32: an even store is `poke16`, whose two bytes, samples and other bytes are read off; an odd access stops at
its check. -/
theorem scratchSamplesRoundTrip : Obligations.ScratchSamplesRoundTrip := by
  refine fun s a v => ⟨fun ha => ?_, fun ha => ⟨d16w_odd ha v s, d16_odd ha s⟩⟩
  refine ⟨poke16 s a v, d16w_even ha v s, rfl, scratch_poke16_high s a v, scratch_poke16_low s a v, fun b hb => ?_,
    fun b => scratch_poke16 s a v⟩
  rw [d16_even hb, sample_poke16 s ha hb]

/-! ## Main memory -/

theorem unlisted_iff {s : State} {a n : Nat} (hn : 0 < n) :
    Unlisted s a n ↔ ∀ b, a ≤ b → b < a + n → ¬ (s.cp ≤ b ∧ b < s.cend) := by
  refine ⟨fun h b => unlisted_of_mem h, fun h ⟨h1, h2, h3⟩ => ?_⟩
  exact h (max a s.cp) (by omega) (by omega) ⟨by omega, by omega⟩

theorem checkStore_range {a n : Nat} {s : State} (h : s.params.mmSize < a + n) :
    checkStore a n s = .error (.refuse .mmRange) s := by
  unfold checkStore
  refine bind_of_error ?_
  rw [checkRange_apply, if_neg (by omega)]

/-- A store in range with a byte in the unread list is refused (R83). -/
theorem checkStore_listed {a n : Nat} {s : State} (hr : a + n ≤ s.params.mmSize)
    (h : ∃ b, a ≤ b ∧ b < a + n ∧ s.cp ≤ b ∧ b < s.cend) : checkStore a n s = .error (.refuse .cmdlistWrite) s := by
  obtain ⟨b, h1, h2, h3, h4⟩ := h
  unfold checkStore checkUnread
  rw [bind_of_ok (checkRange_ok_iff.2 ⟨hr, rfl⟩), bind_of_ok (look_apply _ _), bind_of_ok (look_apply _ _),
    decide_eq_true (by omega)]
  rfl

theorem memWrite16_of_error {a : Nat} {v : Half} {s : State} {e : Stop} (h : checkStore a 2 s = .error e s) :
    memWrite16 a v s = .error e s := bind_of_error h

theorem memWrite32_of_error {a : Nat} {v : Word} {s : State} {e : Stop} (h : checkStore a 4 s = .error e s) :
    memWrite32 a v s = .error e s := bind_of_error h

/-- Two neighbouring bytes of a word are a half of it. -/
theorem word_append_half (x : Word) (i : Nat) :
    (x.extractLsb' (i + 8) 8 : Byte) ++ (x.extractLsb' i 8 : Byte) = x.extractLsb' i 16 := by
  ext j hj
  simp only [BitVec.getElem_append, BitVec.getElem_extractLsb']
  split
  · rfl
  · congr 1; omega

/-- The upper half of a stored word stands at its address, big-endian (R74). -/
theorem mmHalf_mmPoke32_high (s : State) (a : Nat) (v : Word) : (mmPoke32 s a v).mmHalf a = v.extractLsb' 16 16 := by
  unfold State.mmHalf mmPoke32
  simp only [mm_read_mmPoke]
  simpa using word_append_half v 16

/-- The lower half of a stored word stands 2 bytes on. -/
theorem mmHalf_mmPoke32_low (s : State) (a : Nat) (v : Word) : (mmPoke32 s a v).mmHalf (a + 2) = v.extractLsb' 0 16 := by
  unfold State.mmHalf mmPoke32
  simp only [mm_read_mmPoke]
  simpa using word_append_half v 0

/-- A word store that the checks let through, and every reading after it. -/
theorem memWrite32_roundTrip {s : State} {a : Nat} (v : Word) (hr : a + 4 ≤ s.params.mmSize) (hu : Unlisted s a 4) :
    ∃ t, memWrite32 a v s = .ok () t ∧ t = { s with mm := t.mm } ∧ memRead32 a t = .ok v t ∧
      memRead16 a t = .ok (v.extractLsb' 16 16) t ∧ memRead16 (a + 2) t = .ok (v.extractLsb' 0 16) t ∧
      t.mm.read a = v.extractLsb' 24 8 ∧ t.mm.read (a + 3) = v.extractLsb' 0 8 ∧
      ∀ b, b < a ∨ a + 4 ≤ b → t.mm.read b = s.mm.read b := by
  have hsize : (mmPoke32 s a v).params.mmSize = s.params.mmSize := rfl
  refine ⟨mmPoke32 s a v, memWrite32_ok_iff.2 ⟨⟨hr, hu⟩, rfl⟩, rfl, ?_, ?_, ?_, ?_, ?_, fun b => mm_read_mmPoke32 s v⟩
  · exact memRead32_ok_iff.2 ⟨hr, (mmWord_mmPoke32_self s a v).symm, rfl⟩
  · exact memRead16_ok_iff.2 ⟨by omega, (mmHalf_mmPoke32_high s a v).symm, rfl⟩
  · exact memRead16_ok_iff.2 ⟨by omega, (mmHalf_mmPoke32_low s a v).symm, rfl⟩
  · simp [mmPoke32, mm_read_mmPoke]
  · simp [mmPoke32, mm_read_mmPoke]

/-- A half store that the checks let through, and every reading after it. -/
theorem memWrite16_roundTrip {s : State} {a : Nat} (v : Half) (hr : a + 2 ≤ s.params.mmSize) (hu : Unlisted s a 2) :
    ∃ t, memWrite16 a v s = .ok () t ∧ t = { s with mm := t.mm } ∧ memRead16 a t = .ok v t ∧
      t.mm.read a = v.extractLsb' 8 8 ∧ t.mm.read (a + 1) = v.extractLsb' 0 8 ∧
      ∀ b, b < a ∨ a + 2 ≤ b → t.mm.read b = s.mm.read b := by
  refine ⟨mmPoke16 s a v, memWrite16_ok_iff.2 ⟨⟨hr, hu⟩, rfl⟩, rfl, ?_, ?_, ?_, fun b => mm_read_mmPoke16 s v⟩
  · exact memRead16_ok_iff.2 ⟨hr, (mmHalf_mmPoke16_self s a v).symm, rfl⟩
  · simp [mmPoke16, mm_read_mmPoke]
  · simp [mmPoke16, mm_read_mmPoke]

/-- Settles O33: for either width, a store passes both checks, or stops at the range check, or passes that one and stops at
the check of the unread list. -/
theorem mainMemoryRoundTrip : Obligations.MainMemoryRoundTrip := by
  refine ⟨fun s a v => ⟨fun hr hu => ?_, fun hr => ?_, fun hr hb => ?_⟩,
    fun s a v => ⟨fun hr hu => ?_, fun hr => ?_, fun hr hb => ?_⟩⟩
  · exact memWrite32_roundTrip v hr ((unlisted_iff (by decide)).2 hu)
  · exact ⟨memWrite32_of_error (checkStore_range hr), memRead32_range hr⟩
  · exact memWrite32_of_error (checkStore_listed hr hb)
  · exact memWrite16_roundTrip v hr ((unlisted_iff (by decide)).2 hu)
  · exact ⟨memWrite16_of_error (checkStore_range hr), memRead16_range hr⟩
  · exact memWrite16_of_error (checkStore_listed hr hb)

/-! ## The host's stores between invocations -/

theorem step_hostAction {s : State} {a : HostAction} {rest : List HostAction} (hs : s.status = .idle)
    (hh : s.host = a :: rest) : step s = runAct (hostAction a) { s with host := rest } :=
  (step_idle hs).trans (idleStep_cons hh)

/-- Settles O11: each request is the next host action of an Idle block, and the bytes after a store are read off. -/
theorem hostActsBetweenInvocations : Obligations.HostActsBetweenInvocations := by
  refine ⟨fun s a v rest hs hh => ?_, fun s a v rest hs hh => ⟨fun ha => ?_, fun ha => ?_⟩, fun s r rest hs hh => ?_⟩
  · refine ⟨poke8 { s with host := rest } a.toNat v, step_hostAction hs hh, rfl, fun b hb => ?_⟩
    rw [scratch_poke8, Nat.mod_eq_of_lt hb, Nat.mod_eq_of_lt a.isLt]
    rfl
  · refine ⟨mmPoke { s with host := rest } a.toNat v, ?_, rfl, mm_read_mmPoke _ _ _⟩
    rw [step_hostAction hs hh]
    exact runAct_next_iff.2 (bind_of_ok (checkRange_ok_iff.2 ⟨ha, rfl⟩))
  · rw [step_hostAction hs hh]
    have hcheck : checkRange a.toNat 1 { s with host := rest } = .error (.refuse .mmRange) { s with host := rest } := by
      rw [checkRange_apply, if_neg (by dsimp; omega)]
    exact runAct_of_error (bind_of_error hcheck)
  · exact step_hostAction hs hh

end Sys2Proof.Machine
end

section
/-! SUPPORT. The block a command stores at its end (20_memory.md R75, R77, R83, R84): the checks of its stores say that every
byte of it may be stored to where the command ends, and a command moves neither `MM_SIZE` nor the unread list, so the same
held where it started. -/

namespace Sys2Proof.Machine

variable {α β : Type}

/-- Every one of n bytes from a lies below `MM_SIZE` and outside the unread list. -/
def OpenToStores (a n : Nat) (s : State) : Prop :=
  ∀ b, inMain a n b → b < s.params.mmSize ∧ ¬ (s.cp ≤ b ∧ b < s.cend)

theorem openToStores_of_checkStore {a n : Nat} {s t : State} (h : checkStore a n s = .ok () t) : OpenToStores a n s := by
  obtain ⟨hr, hu, -⟩ := checkStore_ok_iff.1 h
  exact fun b ⟨h1, h2⟩ => ⟨by omega, unlisted_of_mem hu h1 h2⟩

/-- The control part of the state alone decides. -/
theorem OpenToStores.congr {a n : Nat} {s t : State} (hc : SameControl s t) :
    OpenToStores a n t ↔ OpenToStores a n s := by
  unfold OpenToStores
  rw [hc.cp, hc.cend, hc.params]

/-- A block that is aligned and open to stores is storable. -/
theorem OpenToStores.storable {a n : Nat} {s : State} (h : OpenToStores a n s) (hn : 0 < n) (ha : a % 8 = 0) :
    storable s a n := by
  have hlast := (h (a + n - 1) ⟨by omega, by omega⟩).1
  exact ⟨ha, by omega, fun b hb => (h b hb).2⟩

/-- Where x ends, n bytes from a are open to stores. -/
def EndsOpen (a n : Nat) (x : Act α) : Prop := ∀ s v t, x s = .ok v t → OpenToStores a n t

/-- What runs before does not matter. -/
theorem EndsOpen.after {a n : Nat} {x : Act α} {f : α → Act β} (h : ∀ v, EndsOpen a n (f v)) :
    EndsOpen a n (x >>= f) := fun s v t ht => by
  obtain ⟨w, u, -, hf⟩ := bind_ok_iff.1 ht
  exact h w u v t hf

/-- A piece that first checks a store and then leaves the control part of the state alone. -/
theorem EndsOpen.of_checkStore {a n : Nat} {f : Unit → Act β}
    (hk : Keeps SameControl (checkStore a n >>= f)) : EndsOpen a n (checkStore a n >>= f) := fun s v t ht => by
  obtain ⟨_, u, hc, -⟩ := bind_ok_iff.1 ht
  exact (OpenToStores.congr (hk.of_ok ht)).2 (openToStores_of_checkStore hc)

/-- A frame keeps the control part of the state. -/
theorem Keeps.control {E : Engine → Engine → Prop} {S M : Nat → Prop} {x : Act α} (h : Keeps (Within E S M) x) :
    Keeps SameControl x := fun s => (h s).control

theorem keeps_memWrite16_control (a : Nat) (v : Half) : Keeps SameControl (memWrite16 a v) :=
  (keeps_memWrite16 (S := fun _ => True) (M := fun _ => True) engSame_framing v fun _ _ _ => trivial).control

/-! ## The last part of each command with a block -/

/-- Halves stored one after the other: each store checks its own two bytes. -/
theorem endsOpen_memWrite16s (a n : Nat) (f : Nat → Half) :
    EndsOpen a (2 * n) (loop n fun i => memWrite16 (a + 2 * i) (f i)) := by
  induction n with
  | zero => exact fun s _ t _ b ⟨h1, h2⟩ => absurd h2 (by omega)
  | succ n ih =>
    intro s v t ht b ⟨h1, h2⟩
    rw [loop_succ] at ht
    obtain ⟨w, u, hloop, hlast⟩ := bind_ok_iff.1 ht
    by_cases hb : b < a + 2 * n
    · exact (OpenToStores.congr ((keeps_memWrite16_control _ _).of_ok hlast)).2 (ih s w u hloop) b ⟨h1, hb⟩
    · exact EndsOpen.of_checkStore (keeps_memWrite16_control _ _) u v t hlast b ⟨by omega, by omega⟩

theorem endsOpen_expSave (a : Nat) (x : ExpState) : EndsOpen a 80 (expSave a x) :=
  .of_checkStore (keeps_expSave (S := fun _ => True) (M := fun _ => True) x fun _ _ _ => trivial).control

theorem endsOpen_linSave (a : Nat) (x : LinState) : EndsOpen a 80 (linSave a x) :=
  .of_checkStore (keeps_linSave (S := fun _ => True) (M := fun _ => True) x fun _ _ _ => trivial).control

theorem sameControl_framing : Framing SameControl := ⟨SameControl.refl, fun _ _ _ => SameControl.trans⟩

theorem endsOpen_saveWindow (sa : Nat) (w : Window) : EndsOpen sa 10 (saveWindow sa w) := by
  have F := sameControl_framing
  refine .of_checkStore (Keeps.bind F ((Silent.checkStore sa 10).keeps F) fun _ => Keeps.bind F ?_ fun _ => ?_)
  · exact Keeps.loop F fun t _ => Keeps.bind F ((Silent.d16 _).keeps F) fun _ => keeps_memWrite16_control _ _
  · exact keeps_memWrite16_control _ _

/-! ## Every command with a block -/

/-- A command with a block starts with the block's base and ends with the block open to stores. -/
theorem exec_endsOpen {i : Instr} {w : Word} (h : blockWordOf i = some w) :
    ∃ f, (∀ s, exec i s = runAct (blockBase w >>= f) s) ∧ ∀ a, EndsOpen a (blockBytesOf i) (f a) := by
  cases i
  case adpcm =>
    cases h
    refine ⟨_, fun _ => rfl, fun a => ?_⟩
    iterate 6 refine .after fun _ => ?_
    exact endsOpen_memWrite16s a 16 _
  case envmixer =>
    cases h
    refine ⟨_, fun _ => rfl, fun a => ?_⟩
    iterate 7 refine .after fun _ => ?_
    exact endsOpen_expSave a _
  case envmixerLin =>
    cases h
    refine ⟨_, fun _ => rfl, fun a => ?_⟩
    iterate 8 refine .after fun _ => ?_
    exact endsOpen_linSave a _
  case resample =>
    cases h
    refine ⟨_, fun _ => rfl, fun a => ?_⟩
    iterate 5 refine .after fun _ => ?_
    exact endsOpen_saveWindow a _
  all_goals cases h

theorem blockBytesOf_pos {i : Instr} {w : Word} (h : blockWordOf i = some w) : 0 < blockBytesOf i := by
  cases i
  case adpcm | envmixer | envmixerLin | resample => simp [blockBytesOf]
  all_goals cases h

/-- Settles O35: the block's base passed its alignment check, its bytes were open to stores at the end, and the frame of the
command carries this back to the start. -/
theorem endingMeansItsBlockWasStorable : Obligations.EndingMeansItsBlockWasStorable := by
  intro i s t w hw h
  obtain ⟨f, hf, hopen⟩ := exec_endsOpen hw
  have hc := (commandKeeps_of_next h).upToLog.control
  rw [hf] at h
  obtain ⟨a, u, hbase, hrest⟩ := bind_ok_iff.1 (runAct_next_iff.1 h)
  obtain ⟨rfl, halign, rfl⟩ := blockBase_ok_iff.1 hbase
  have hend : OpenToStores (u.resolved w) (blockBytesOf i) t := hopen _ u () t hrest
  exact OpenToStores.storable ((OpenToStores.congr hc).1 hend) (blockBytesOf_pos hw) halign

end Sys2Proof.Machine
end

section
/-! SUPPORT. The fields of a command word (30_encoding.md R102): what a field of a packed word reads as, which word the
fields of a word pack to, and which bits of a word are kept when some of its fields are packed again and the others are 0. -/

namespace Sys2Proof

/-! ## A field of a packed word -/

@[simp] theorem opcodeOf_packWord0 (op flags : Byte) (low : Half) : opcodeOf (packWord0 op flags low) = op := by
  unfold opcodeOf packWord0
  exact (BitVec.extractLsb'_append_eq_of_le (by decide)).trans BitVec.extractLsb'_append_eq_left

@[simp] theorem byteOf_two_packWord0 (op flags : Byte) (low : Half) : byteOf 2 (packWord0 op flags low) = flags :=
  (BitVec.extractLsb'_append_eq_of_le (by decide)).trans BitVec.extractLsb'_append_eq_right

@[simp] theorem byteOf_one_packWord0 (op flags : Byte) (low : Half) :
    byteOf 1 (packWord0 op flags low) = low.extractLsb' 8 8 :=
  BitVec.extractLsb'_append_eq_of_add_le (by decide)

@[simp] theorem loHalf_packWord0 (op flags : Byte) (low : Half) : loHalf (packWord0 op flags low) = low :=
  BitVec.extractLsb'_append_eq_right

@[simp] theorem hiHalf_packHalves (hi lo : Half) : hiHalf (packHalves hi lo) = hi := BitVec.extractLsb'_append_eq_left

@[simp] theorem loHalf_packHalves (hi lo : Half) : loHalf (packHalves hi lo) = lo := BitVec.extractLsb'_append_eq_right

@[simp] theorem byteOf_three_wordOfBytes (a b c d : Byte) : byteOf 3 (wordOfBytes a b c d) = a :=
  (BitVec.extractLsb'_append_eq_of_le (by decide)).trans <|
    (BitVec.extractLsb'_append_eq_of_le (by decide)).trans BitVec.extractLsb'_append_eq_left

@[simp] theorem byteOf_two_wordOfBytes (a b c d : Byte) : byteOf 2 (wordOfBytes a b c d) = b :=
  (BitVec.extractLsb'_append_eq_of_le (by decide)).trans <|
    (BitVec.extractLsb'_append_eq_of_le (by decide)).trans BitVec.extractLsb'_append_eq_right

@[simp] theorem byteOf_one_wordOfBytes (a b c d : Byte) : byteOf 1 (wordOfBytes a b c d) = c :=
  (BitVec.extractLsb'_append_eq_of_le (by decide)).trans BitVec.extractLsb'_append_eq_right

@[simp] theorem byteOf_zero_wordOfBytes (a b c d : Byte) : byteOf 0 (wordOfBytes a b c d) = d :=
  BitVec.extractLsb'_append_eq_right

/-! ## A flag of a packed word -/

theorem flagBit_eq_byteOf {n : Nat} (hn : n < 8) (w : Word) : flagBit n w = (byteOf 2 w).getLsbD n := by
  simp [flagBit, byteOf, hn]

theorem getLsbD_eq_loHalf {n : Nat} (hn : n < 16) (w : Word) : w.getLsbD n = (loHalf w).getLsbD n := by
  simp [loHalf, hn]

theorem getLsbD_flagsByte (f0 f1 f2 f3 : Bool) (n : Nat) :
    (flagsByte f0 f1 f2 f3).getLsbD n
      = if n < 1 then f0 else if n < 2 then f1 else if n < 3 then f2 else if n < 4 then f3 else false := by
  simp only [flagsByte, BitVec.getLsbD_append, BitVec.getLsbD_ofBool]
  grind

theorem getLsbD_neadLow (count : Byte) (f4 f3 f2 f1 f0 : Bool) (n : Nat) :
    (neadLow count f4 f3 f2 f1 f0).getLsbD n
      = if n < 1 then f0 else if n < 2 then f1 else if n < 3 then f2 else if n < 4 then f3 else if n < 5 then f4
        else if n < 8 then false else count.getLsbD (n - 8) := by
  simp only [neadLow, BitVec.getLsbD_append, BitVec.getLsbD_ofBool]
  grind

@[simp] theorem flagBit_packWord0_flagsByte (op : Byte) (f0 f1 f2 f3 : Bool) (low : Half) {n : Nat} (hn : n < 8) :
    flagBit n (packWord0 op (flagsByte f0 f1 f2 f3) low)
      = if n < 1 then f0 else if n < 2 then f1 else if n < 3 then f2 else if n < 4 then f3 else false := by
  rw [flagBit_eq_byteOf hn, byteOf_two_packWord0, getLsbD_flagsByte]

@[simp] theorem flagBit_packWord0_zero (op : Byte) (low : Half) {n : Nat} (hn : n < 8) :
    flagBit n (packWord0 op 0#8 low) = false := by
  rw [flagBit_eq_byteOf hn, byteOf_two_packWord0, BitVec.getLsbD_zero]

@[simp] theorem sideOf_packWord0 (op : Byte) (f2 f3 : Bool) (c : Side) (low : Half) :
    sideOf (packWord0 op (flagsByte false (leftFlag c) f2 f3) low) = c := by
  unfold sideOf
  cases c <;> simp [leftFlag]

theorem leftFlag_sideOf (w : Word) : leftFlag (sideOf w) = flagBit 1 w := by
  unfold sideOf
  split <;> simp_all [leftFlag]

@[simp] theorem neadLow_count (count : Byte) (f4 f3 f2 f1 f0 : Bool) :
    (neadLow count f4 f3 f2 f1 f0).extractLsb' 8 8 = count := by
  unfold neadLow
  iterate 6 rw [BitVec.extractLsb'_append_eq_of_le (by decide)]
  exact BitVec.extractLsb'_eq_self

/-! ## A word packed from its own fields -/

theorem packHalves_halves (w : Word) : packHalves (hiHalf w) (loHalf w) = w := BitVec.extractLsb'_append_extractLsb'

theorem wordOfBytes_bytes (w : Word) : wordOfBytes (byteOf 3 w) (byteOf 2 w) (byteOf 1 w) (byteOf 0 w) = w :=
  Machine.word_append_bytes w

theorem packWord0_fields (w : Word) : packWord0 (opcodeOf w) (byteOf 2 w) (loHalf w) = w := by
  have h : (w.extractLsb' 24 8 ++ w.extractLsb' 16 8 : Half) = w.extractLsb' 16 16 :=
    BitVec.extractLsb'_append_extractLsb'_eq_extractLsb' rfl
  exact (congrArg (· ++ w.extractLsb' 0 16) h).trans (packHalves_halves w)

/-! ## A word packed from some of its fields: the bits that are kept -/

theorem packWord0_and (op flags mo mf : Byte) (low ml : Half) :
    packWord0 op flags low &&& packWord0 mo mf ml = packWord0 (op &&& mo) (flags &&& mf) (low &&& ml) := by
  unfold packWord0
  exact BitVec.and_append.trans (congrArg (· ++ (low &&& ml)) BitVec.and_append)

theorem packHalves_and (hi lo mh ml : Half) :
    packHalves hi lo &&& packHalves mh ml = packHalves (hi &&& mh) (lo &&& ml) := BitVec.and_append

theorem word_eq_and (w : Word) : w = w &&& 0xFFFFFFFF := BitVec.and_allOnes.symm

theorem packHalves_eq_and (w : Word) : packHalves (hiHalf w) (loHalf w) = w &&& 0xFFFFFFFF :=
  (packHalves_halves w).trans (word_eq_and w)

theorem packHalves_low_eq_and (w : Word) : packHalves 0 (loHalf w) = w &&& 0x0000FFFF := by
  calc
    packHalves 0 (loHalf w) = packHalves (hiHalf w &&& 0) (loHalf w &&& 0xFFFF) :=
      congrArg₂ packHalves BitVec.and_zero.symm BitVec.and_allOnes.symm
    _ = w &&& packHalves 0 0xFFFF := by rw [← packHalves_and, packHalves_halves]

theorem flagsByte_eq_and (w : Word) (f0 f1 f2 f3 : Bool) :
    flagsByte (f0 && flagBit 0 w) (f1 && flagBit 1 w) (f2 && flagBit 2 w) (f3 && flagBit 3 w)
      = byteOf 2 w &&& flagsByte f0 f1 f2 f3 := by
  apply BitVec.eq_of_getLsbD_eq
  intro i hi
  rw [BitVec.getLsbD_and, getLsbD_flagsByte, getLsbD_flagsByte, ← flagBit_eq_byteOf hi]
  interval_cases i <;> simp [Bool.and_comm]

theorem neadLow_eq_and (w : Word) :
    neadLow (byteOf 1 w) (w.getLsbD 4) (w.getLsbD 3) (w.getLsbD 2) (w.getLsbD 1) (w.getLsbD 0) = loHalf w &&& 0xFF1F := by
  apply BitVec.eq_of_getLsbD_eq
  intro i hi
  rw [BitVec.getLsbD_and, getLsbD_neadLow, ← getLsbD_eq_loHalf hi]
  interval_cases i <;> simp [byteOf]

section

variable {w m : Word} {op : Byte}

/-- A first word packed with its own opcode keeps what its flags byte and its low half keep. -/
theorem packWord0_eq_and {flags mf : Byte} {low ml : Half} (h : (opcodeOf w).toNat = op.toNat)
    (hf : flags = byteOf 2 w &&& mf) (hl : low = loHalf w &&& ml) (hm : packWord0 0xFF mf ml = m) :
    packWord0 op flags low = w &&& m := by
  have hop : op = opcodeOf w &&& 0xFF := (BitVec.eq_of_toNat_eq h).symm.trans BitVec.and_allOnes.symm
  rw [hop, hf, hl, ← packWord0_and, packWord0_fields, hm]

theorem opcode_eq_and (h : (opcodeOf w).toNat = op.toNat) : packWord0 op 0 0 = w &&& 0xFF000000 :=
  packWord0_eq_and h BitVec.and_zero.symm BitVec.and_zero.symm rfl

theorem opcodeLow_eq_and (h : (opcodeOf w).toNat = op.toNat) : packWord0 op 0 (loHalf w) = w &&& 0xFF00FFFF :=
  packWord0_eq_and h BitVec.and_zero.symm BitVec.and_allOnes.symm rfl

theorem opcodeFlags_eq_and (h : (opcodeOf w).toNat = op.toNat) (f0 f1 f2 f3 : Bool)
    (hm : packWord0 0xFF (flagsByte f0 f1 f2 f3) 0 = m) :
    packWord0 op (flagsByte (f0 && flagBit 0 w) (f1 && flagBit 1 w) (f2 && flagBit 2 w) (f3 && flagBit 3 w)) 0 = w &&& m :=
  packWord0_eq_and h (flagsByte_eq_and w f0 f1 f2 f3) BitVec.and_zero.symm hm

theorem opcodeFlagsLow_eq_and (h : (opcodeOf w).toNat = op.toNat) (f0 f1 f2 f3 : Bool)
    (hm : packWord0 0xFF (flagsByte f0 f1 f2 f3) 0xFFFF = m) :
    packWord0 op (flagsByte (f0 && flagBit 0 w) (f1 && flagBit 1 w) (f2 && flagBit 2 w) (f3 && flagBit 3 w)) (loHalf w)
      = w &&& m :=
  packWord0_eq_and h (flagsByte_eq_and w f0 f1 f2 f3) BitVec.and_allOnes.symm hm

end

/-! ## The fields of a masked word -/

section

variable {w m r : Word}

theorem opcodeOf_and (h : w &&& m = r) : opcodeOf w &&& opcodeOf m = opcodeOf r := by
  rw [← h]
  exact BitVec.extractLsb'_and.symm

theorem opcodeOf_of_and (h : w &&& m = r) (hm : opcodeOf m = 0xFF) : opcodeOf w = opcodeOf r := by
  rw [← opcodeOf_and h, hm]
  exact BitVec.and_allOnes.symm

theorem flagBit_of_and (h : w &&& m = r) {n : Nat} (hm : flagBit n m = true) : flagBit n w = flagBit n r := by
  rw [← h]
  unfold flagBit at hm ⊢
  rw [BitVec.getLsbD_and, hm, Bool.and_true]

end

/-- Words that differ only outside a mask agree under it. -/
theorem and_eq_of_xor_and {w v m : Word} (h : (w ^^^ v) &&& m = 0) : v &&& m = w &&& m := by
  apply BitVec.eq_of_getLsbD_eq
  intro i hi
  have hb : ((w ^^^ v) &&& m).getLsbD i = false := by rw [h, BitVec.ofNat_eq_ofNat, BitVec.getLsbD_zero]
  simp only [BitVec.getLsbD_and, BitVec.getLsbD_xor] at hb ⊢
  grind

end Sys2Proof
end

section
/-! SUPPORT. The decoder and the encoder (30_encoding.md R100 to R119). Two facts go through the opcode map row by row:
decoding an encoded command gives it back, and encoding a decoded pair keeps the named bits. That a pair matches one row
alone, and that unnamed bits are ignored, follow from these two and from `sameRow_decodeWords`: a first word that matches a
row decodes to a command of that row. -/

namespace Sys2Proof

/-! ## Opcodes beyond the table (R104) -/

theorem decodeWords_of_ge {w0 : Word} (w1 : Word) (h : 0x20 ≤ (opcodeOf w0).toNat) :
    decodeWords w0 w1 = decodeBeyond (opcodeOf w0) := by
  unfold decodeWords
  split
  case h_33 => rfl
  all_goals omega

theorem wf_decodeBeyond {op : Byte} (h : 0x20 ≤ op.toNat) : (decodeBeyond op).wf = true := by
  unfold decodeBeyond
  split_ifs <;> simp [Instr.wf] <;> omega

theorem decodeWords_beyond20 {w0 : Word} (w1 : Word) (h : (Instr.beyond20 (opcodeOf w0)).wf = true) :
    decodeWords w0 w1 = .beyond20 (opcodeOf w0) := by
  obtain ⟨hge, hlt⟩ := of_decide_eq_true h
  exact (decodeWords_of_ge w1 hge).trans (if_pos hlt)

theorem decodeWords_beyond40 {w0 : Word} (w1 : Word) (h : (Instr.beyond40 (opcodeOf w0)).wf = true) :
    decodeWords w0 w1 = .beyond40 (opcodeOf w0) := by
  obtain ⟨hge, hlt⟩ := of_decide_eq_true h
  exact (decodeWords_of_ge w1 (by omega)).trans <| (if_neg (by omega)).trans (if_pos hlt)

theorem decodeWords_beyond80 {w0 : Word} (w1 : Word) (h : (Instr.beyond80 (opcodeOf w0)).wf = true) :
    decodeWords w0 w1 = .beyond80 (opcodeOf w0) := by
  have hge := of_decide_eq_true h
  exact (decodeWords_of_ge w1 (by omega)).trans <| (if_neg (by omega)).trans (if_neg (by omega))

/-- Every pair of words decodes to a well-formed command. -/
theorem wf_decodeWords (w0 w1 : Word) : (decodeWords w0 w1).wf = true := by
  unfold decodeWords
  split
  case h_6 => unfold decodeResample; split_ifs <;> rfl
  case h_9 => unfold decodeSetbuff; split_ifs <;> rfl
  case h_10 => unfold decodeSetvol; split_ifs <;> rfl
  case h_33 => exact wf_decodeBeyond (by grind)
  all_goals rfl

/-! ## Decoding what was encoded -/

theorem decodeNead_packWord0 (op inp count : Byte) (swap xorWl xorWr xorDl xorDr : Bool) (dl dr wl wr : Byte) :
    decodeNead (packWord0 op inp (neadLow count swap xorWl xorWr xorDl xorDr)) (wordOfBytes dl dr wl wr)
      = .envmixerNead inp count swap xorWl xorWr xorDl xorDr dl dr wl wr := by
  simp only [decodeNead, getLsbD_eq_loHalf, loHalf_packWord0, getLsbD_neadLow, byteOf_one_packWord0, neadLow_count,
    byteOf_two_packWord0, byteOf_three_wordOfBytes, byteOf_two_wordOfBytes, byteOf_one_wordOfBytes,
    byteOf_zero_wordOfBytes, Nat.reduceLT, if_true, if_false]

/-- No operand bit is dropped: each field is read back from where its layout packs it. -/
theorem decodeWords_encodeWords {i : Instr} (h : i.wf = true) : decodeWords (encodeWords i).1 (encodeWords i).2 = i := by
  cases i with
  | beyond20 op => simpa [encodeWords] using decodeWords_beyond20 (w0 := packWord0 op 0 0) 0 (by simpa using h)
  | beyond40 op => simpa [encodeWords] using decodeWords_beyond40 (w0 := packWord0 op 0 0) 0 (by simpa using h)
  | beyond80 op => simpa [encodeWords] using decodeWords_beyond80 (w0 := packWord0 op 0 0) 0 (by simpa using h)
  | envmixerNead => simp [encodeWords, decodeWords, decodeNead_packWord0]
  | _ => simp [encodeWords, decodeWords, decodeResample, decodeSetvol, decodeSetbuff]

theorem decode_wordBytes (w0 w1 : Word) (rest : List Byte) :
    decode (wordBytes w0 ++ wordBytes w1 ++ rest) = .ok (decodeWords w0 w1, rest) := by
  change Except.ok (decodeWords (wordOfBytes _ _ _ _) (wordOfBytes _ _ _ _), rest) = _
  rw [wordOfBytes_bytes, wordOfBytes_bytes]

/-- Settles O1: the bytes are read back as the two encoded words, and these decode to the command. -/
theorem decodeOfEncodeIsIdentity : Obligations.DecodeOfEncodeIsIdentity := by
  intro i rest h
  unfold encode
  rw [decode_wordBytes, decodeWords_encodeWords h]

/-! ## Encoding what was decoded -/

/-- Encoding i gives the bits of the two words that i's layout names. -/
def KeepsNamedBits (w0 w1 : Word) (i : Instr) : Prop :=
  encodeWords i = (w0 &&& (namedBits i).1, w1 &&& (namedBits i).2)

section

variable {w0 : Word} (w1 : Word)

theorem keepsNamedBits_decodeResample (h : (opcodeOf w0).toNat = 0x05) : KeepsNamedBits w0 w1 (decodeResample w0 w1) := by
  unfold decodeResample
  split
  next hf =>
    have h0 := opcodeFlags_eq_and (op := 0x05) h false true false false rfl
    rw [hf] at h0
    exact Prod.ext h0 BitVec.and_zero.symm
  next hf =>
    have h0 := opcodeFlagsLow_eq_and (op := 0x05) h true true false false rfl
    rw [eq_false_of_ne_true hf] at h0
    exact Prod.ext h0 (word_eq_and w1)

theorem keepsNamedBits_decodeSetbuff (h : (opcodeOf w0).toNat = 0x08) : KeepsNamedBits w0 w1 (decodeSetbuff w0 w1) := by
  have h0 := opcodeFlagsLow_eq_and (op := 0x08) h false false false true rfl
  unfold decodeSetbuff
  split
  next hf =>
    rw [hf] at h0
    exact Prod.ext h0 (packHalves_eq_and w1)
  next hf =>
    simp only [hf, Bool.false_and, Bool.and_false] at h0
    exact Prod.ext h0 (packHalves_eq_and w1)

theorem keepsNamedBits_decodeSetvol (h : (opcodeOf w0).toNat = 0x09) : KeepsNamedBits w0 w1 (decodeSetvol w0 w1) := by
  unfold decodeSetvol
  split
  next ha =>
    have h0 := opcodeFlagsLow_eq_and (op := 0x09) h false false false true rfl
    rw [ha] at h0
    exact Prod.ext h0 (packHalves_low_eq_and w1)
  next ha =>
    have h0 := opcodeFlagsLow_eq_and (op := 0x09) h false true true true rfl
    rw [eq_false_of_ne_true ha, ← leftFlag_sideOf] at h0
    split
    next hv =>
      rw [hv] at h0
      exact Prod.ext h0 BitVec.and_zero.symm
    next hv =>
      rw [eq_false_of_ne_true hv] at h0
      exact Prod.ext h0 (word_eq_and w1)

theorem keepsNamedBits_decodeNead (h : (opcodeOf w0).toNat = 0x13) : KeepsNamedBits w0 w1 (decodeNead w0 w1) :=
  Prod.ext (packWord0_eq_and h BitVec.and_allOnes.symm (neadLow_eq_and w0) rfl)
    ((wordOfBytes_bytes w1).trans (word_eq_and w1))

theorem keepsNamedBits_decodeBeyond : KeepsNamedBits w0 w1 (decodeBeyond (opcodeOf w0)) := by
  have hrow : KeepsNamedBits w0 w1 (.beyond20 (opcodeOf w0)) := Prod.ext (opcode_eq_and rfl) BitVec.and_zero.symm
  unfold decodeBeyond
  split_ifs <;> exact hrow

end

/-- Row by row of the opcode map, each with the bits that R107 to R119 name; the rows left to the end name the opcode
alone. -/
theorem keepsNamedBits_decodeWords (w0 w1 : Word) : KeepsNamedBits w0 w1 (decodeWords w0 w1) := by
  unfold decodeWords
  split
  -- ADPCM, CLEARBUFF, ENVMIXER
  case h_2 h => exact Prod.ext (opcodeFlags_eq_and h true true true false rfl) (word_eq_and w1)
  case h_3 h => exact Prod.ext (opcodeLow_eq_and h) (packHalves_low_eq_and w1)
  case h_4 h => exact Prod.ext (opcodeFlags_eq_and h true false false true rfl) (word_eq_and w1)
  -- RESAMPLE, SETBUFF, SETVOL
  case h_6 h => exact keepsNamedBits_decodeResample w1 h
  case h_9 h => exact keepsNamedBits_decodeSetbuff w1 h
  case h_10 h => exact keepsNamedBits_decodeSetvol w1 h
  -- LOADADPCM, SETLOOP, ENVMIXER_LIN
  case h_12 h => exact Prod.ext (opcodeLow_eq_and h) (word_eq_and w1)
  case h_16 h => exact Prod.ext (opcode_eq_and h) (word_eq_and w1)
  case h_17 h => exact Prod.ext (opcodeFlags_eq_and h true false false false rfl) (word_eq_and w1)
  -- ENVSETUP1, ENVMIXER_NEAD, ENVSETUP2
  case h_19 h =>
    exact Prod.ext (packWord0_eq_and h BitVec.and_allOnes.symm BitVec.and_allOnes.symm rfl) (packHalves_eq_and w1)
  case h_20 h => exact keepsNamedBits_decodeNead w1 h
  case h_23 h => exact Prod.ext (opcode_eq_and h) (packHalves_eq_and w1)
  -- beyond the table
  case h_33 => exact keepsNamedBits_decodeBeyond w1
  all_goals exact Prod.ext (opcode_eq_and ‹_›) BitVec.and_zero.symm

/-- Settles O2: every row keeps its named bits. -/
theorem encodeOfDecodeKeepsTheNamedBits : Obligations.EncodeOfDecodeKeepsTheNamedBits := keepsNamedBits_decodeWords

/-- Clearing the unnamed bits of two words does not change what they decode to. -/
theorem decodeWords_and_namedBits (w0 w1 : Word) :
    decodeWords (w0 &&& (namedBits (decodeWords w0 w1)).1) (w1 &&& (namedBits (decodeWords w0 w1)).2)
      = decodeWords w0 w1 := by
  have h := decodeWords_encodeWords (wf_decodeWords w0 w1)
  rwa [keepsNamedBits_decodeWords w0 w1] at h

/-! ## The rows of the opcode table (R103) -/

/-- Two commands of one row of the table, whose layouts name the same bits. -/
def SameRow (i j : Instr) : Prop := i.row = j.row ∧ namedBits i = namedBits j

/-- A first word that matches the row of a command decodes to a command of that row: a row's mask holds the opcode and the
flags that select the form. -/
theorem sameRow_decodeWords {w0 : Word} (w1 : Word) {j : Instr} (h : w0 &&& j.row.2 = j.row.1) :
    SameRow (decodeWords w0 w1) j := by
  cases j with
  | beyond20 op =>
    have hwf : ∀ b : Byte, b &&& 0xE0 = 0x20 → (Instr.beyond20 b).wf = true := by decide
    dsimp only [Instr.row] at h
    rw [decodeWords_beyond20 w1 (hwf _ (opcodeOf_and h))]
    exact ⟨rfl, rfl⟩
  | beyond40 op =>
    have hwf : ∀ b : Byte, b &&& 0xC0 = 0x40 → (Instr.beyond40 b).wf = true := by decide
    dsimp only [Instr.row] at h
    rw [decodeWords_beyond40 w1 (hwf _ (opcodeOf_and h))]
    exact ⟨rfl, rfl⟩
  | beyond80 op =>
    have hwf : ∀ b : Byte, b &&& 0x80 = 0x80 → (Instr.beyond80 b).wf = true := by decide
    dsimp only [Instr.row] at h
    rw [decodeWords_beyond80 w1 (hwf _ (opcodeOf_and h))]
    exact ⟨rfl, rfl⟩
  | resample | resampleFlag2 =>
    dsimp only [Instr.row] at h
    unfold decodeWords decodeResample
    rw [opcodeOf_of_and h rfl, flagBit_of_and (n := 1) h rfl]
    exact ⟨rfl, rfl⟩
  | setbuff | setbuffAux | setvolAux =>
    dsimp only [Instr.row] at h
    unfold decodeWords decodeSetbuff decodeSetvol
    rw [opcodeOf_of_and h rfl, flagBit_of_and (n := 3) h rfl]
    exact ⟨rfl, rfl⟩
  | setvolVol | setvol =>
    dsimp only [Instr.row] at h
    unfold decodeWords decodeSetvol
    rw [opcodeOf_of_and h rfl, flagBit_of_and (n := 3) h rfl, flagBit_of_and (n := 2) h rfl]
    exact ⟨rfl, rfl⟩
  | _ =>
    dsimp only [Instr.row] at h
    unfold decodeWords
    rw [opcodeOf_of_and h rfl]
    exact ⟨rfl, rfl⟩

/-- A row's mask lies within the bits its layout names. -/
theorem namedBits_and_row (i : Instr) : (namedBits i).1 &&& i.row.2 = i.row.2 := by
  cases i <;> · dsimp only [namedBits, Instr.row]; decide

theorem and_row_of_and_namedBits {w v : Word} {i : Instr} (h : w &&& (namedBits i).1 = v &&& (namedBits i).1) :
    w &&& i.row.2 = v &&& i.row.2 := by
  rw [← namedBits_and_row, ← BitVec.and_assoc, h, BitVec.and_assoc]

open Laws FirstWordInRow in
/-- An encoded command matches its own row (Laws/PerInstr.lean, for each command). -/
theorem encodeWords_and_row {i : Instr} (h : i.wf = true) : (encodeWords i).1 &&& i.row.2 = i.row.1 := by
  revert h
  cases i
  exacts [noop, adpcm _ _ _ _, clearbuff _ _, envmixer _ _ _, resample _ _ _, resampleFlag2, setbuff _ _ _,
    setbuffAux _ _ _, setvolAux _ _, setvolVol _ _, setvol _ _ _, loadadpcm _ _, setloop _, envmixerLin _ _,
    envsetup1 _ _ _ _, envmixerNead _ _ _ _ _ _ _ _ _ _ _, envsetup2 _ _, loadbuff, savebuff, segment, dmemmove, mixer,
    interleave, polef, slot11, slot14, slot15, slot17, slot18, slot19, slot1A, slot1B, slot1C, slot1D, slot1E, slot1F,
    beyond20 _, beyond40 _, beyond80 _]

/-- The first word matches the row of the command it decodes to: under the row's mask it is the encoded first word. -/
theorem decodeWords_and_row (w0 w1 : Word) : w0 &&& (decodeWords w0 w1).row.2 = (decodeWords w0 w1).row.1 := by
  calc
    w0 &&& (decodeWords w0 w1).row.2
      = w0 &&& (namedBits (decodeWords w0 w1)).1 &&& (decodeWords w0 w1).row.2 := by
        rw [BitVec.and_assoc, namedBits_and_row]
    _ = (encodeWords (decodeWords w0 w1)).1 &&& (decodeWords w0 w1).row.2 := by rw [keepsNamedBits_decodeWords w0 w1]
    _ = (decodeWords w0 w1).row.1 := encodeWords_and_row (wf_decodeWords w0 w1)

/-- Settles O4: the pair matches its own row, and any row it matches is the row of what it decodes to. -/
theorem everyWordPairIsExactlyOneRow : Obligations.EveryWordPairIsExactlyOneRow := fun w0 w1 =>
  ⟨wf_decodeWords w0 w1, decodeWords_and_row w0 w1, fun _ _ h => (sameRow_decodeWords w1 h).1.symm⟩

/-! ## Unnamed bits (R106) -/

/-- Pairs that agree on the named bits decode alike: they match the same row, so the same bits are named in both. -/
theorem decodeWords_congr {w0 w1 v0 v1 : Word}
    (h0 : v0 &&& (namedBits (decodeWords w0 w1)).1 = w0 &&& (namedBits (decodeWords w0 w1)).1)
    (h1 : v1 &&& (namedBits (decodeWords w0 w1)).2 = w1 &&& (namedBits (decodeWords w0 w1)).2) :
    decodeWords v0 v1 = decodeWords w0 w1 := by
  have hrow := (and_row_of_and_namedBits h0).trans (decodeWords_and_row w0 w1)
  obtain ⟨-, hnamed⟩ := sameRow_decodeWords v1 hrow
  rw [← decodeWords_and_namedBits v0 v1, hnamed, h0, h1, decodeWords_and_namedBits]

theorem decodeWords_resampleFlag2 {w0 : Word} (w1 : Word) (h : opcodeOf w0 = 0x05) (hf : flagBit 1 w0 = true) :
    decodeWords w0 w1 = .resampleFlag2 := by
  unfold decodeWords
  rw [h]
  exact if_pos hf

open Machine in
theorem Machine.exec_resampleFlag2 (s : State) :
    exec .resampleFlag2 s = .refused (.resampleFlag2 { s with status := .refused .resampleFlag2 }) := rfl

/-- Settles O3: words that differ in unnamed bits alone agree on the named ones. -/
theorem unnamedBitsAreIgnored : Obligations.UnnamedBitsAreIgnored := by
  refine ⟨fun _ _ _ _ h0 h1 => decodeWords_congr (and_eq_of_xor_and h0) (and_eq_of_xor_and h1), fun w0 w1 s h hf => ?_⟩
  rw [decodeWords_resampleFlag2 w1 h hf]
  exact Machine.exec_resampleFlag2 s

/-! ## Bytes and written-out words -/

/-- Settles O5: the decoder looks at the length alone to tell a command from none. -/
theorem everyEightBytesAreOneCommand : Obligations.EveryEightBytesAreOneCommand := fun bs =>
  match bs with
  | _ :: _ :: _ :: _ :: _ :: _ :: _ :: _ :: _ => ⟨fun _ => ⟨_, rfl⟩, fun h => absurd h (by simp)⟩
  | [] | [_] | [_, _] | [_, _, _] | [_, _, _, _] | [_, _, _, _, _] | [_, _, _, _, _, _] | [_, _, _, _, _, _, _] =>
    ⟨fun h => absurd h (by simp), fun _ => rfl⟩

/-- Settles O6: the words are closed terms, so the decoder is run. -/
theorem writtenOutWordsDecode : Obligations.WrittenOutWordsDecode := by
  unfold Obligations.WrittenOutWordsDecode
  decide

end Sys2Proof
end

section
/-! SUPPORT. The opcodes that have no meaning in the block (30_encoding.md R104, R105): beyond the table a warning and
nothing else, an in-table slot outside the block a refusal and nothing else. -/

namespace Sys2Proof.Machine

theorem runAct_warnUnknown (op : Byte) (s : State) :
    runAct (warnUnknown op) s = .next { s with log := s.log ++ [.unknownOpcode op (s.cp - 8)] } := rfl

/-- The three rows beyond the table have one meaning. -/
theorem exec_decodeBeyond (op : Byte) (s : State) : exec (decodeBeyond op) s = runAct (warnUnknown op) s := by
  unfold decodeBeyond
  split_ifs <;> rfl

/-- Settles O29: from 0x20 up a command only runs `warnUnknown`. -/
theorem unknownOpcodesOnlyWarn : Obligations.UnknownOpcodesOnlyWarn := by
  refine ⟨fun op s => ⟨runAct_warnUnknown op s, runAct_warnUnknown op s, runAct_warnUnknown op s⟩, fun w0 w1 s h => ?_⟩
  rw [decodeWords_of_ge w1 h, exec_decodeBeyond]
  exact runAct_warnUnknown _ s

theorem exec_outOfBlock {i : Instr} (h : i ∈ outOfBlockRows) (s : State) :
    exec i s = .refused (.outOfBlockOpcode { s with status := .refused .outOfBlockOpcode }) := by
  fin_cases h <;> rfl

/-- The opcodes of the 19 slots outside the block decode to their rows (R103). -/
theorem decodeWords_mem_outOfBlockRows {w0 : Word} (w1 : Word)
    (h : (opcodeOf w0).toNat ∈ [0x04, 0x06, 0x07, 0x0A, 0x0C, 0x0D, 0x0E, 0x11, 0x14, 0x15, 0x17, 0x18, 0x19, 0x1A,
      0x1B, 0x1C, 0x1D, 0x1E, 0x1F]) : decodeWords w0 w1 ∈ outOfBlockRows := by
  unfold decodeWords
  generalize (opcodeOf w0).toNat = n at h
  fin_cases h <;> simp [outOfBlockRows]

/-- Settles O30: the rows outside the block stop at once, and the 19 opcodes decode to them. -/
theorem outOfBlockSlotsAreRefused : Obligations.OutOfBlockSlotsAreRefused :=
  ⟨fun _ s h => exec_outOfBlock h s, fun _ w1 s h => exec_outOfBlock (decodeWords_mem_outOfBlockRows w1 h) s⟩

end Sys2Proof.Machine
end

section
/-! SUPPORT. The end of every list (40_control.md R142, R143): no command moves cp or cend, so a step that is not the end of
the list moves cp on by the 8 of its fetch, and the list's length says how many steps the run has. -/

namespace Sys2Proof.Machine

/-- Before the end of the list, a step that does not stop fetches one command, and the list runs on (R141). -/
theorem step_before_end {s t : State} (hs : s.status = .running) (hne : s.cp ≠ s.cend) (h : step s = .next t) :
    t.status = .running ∧ t.cp = s.cp + 8 ∧ t.cend = s.cend := by
  rcases step_next_cases h with ⟨hi, -⟩ | ⟨_, _, hi, -⟩ | ⟨-, he, -⟩ | ⟨-, -, -, hx⟩
  · rw [hs] at hi; cases hi
  · rw [hs] at hi; cases hi
  · exact absurd he hne
  · obtain ⟨hcp, hcend, hstatus, -⟩ := (commandKeeps_of_next hx).upToLog.control
    exact ⟨hstatus.trans hs, hcp, hcend⟩

theorem run_end {s : State} (hs : s.status = .running) (he : s.cp = s.cend) : core.run 1 s = .next (endOfList s) :=
  run_succ_next_iff (M := core).2 ⟨_, step_end hs he, rfl⟩

/-- A list of n commands runs n commands and one step more, unless it stops earlier. -/
theorem run_list {n : Nat} {s t : State} (hs : s.status = .running) (hn : s.cend = s.cp + 8 * n)
    (hrun : core.run (n + 1) s = .next t) : t.status = .idle ∧ t.cp = s.cend := by
  induction n generalizing s with
  | zero =>
    cases (run_end hs hn.symm).symm.trans hrun
    exact ⟨rfl, hn.symm⟩
  | succ n ih =>
    obtain ⟨u, hstep, hrest⟩ := run_succ_next_iff (M := core).1 hrun
    obtain ⟨hu, hcp, hcend⟩ := step_before_end hs (by omega) hstep
    exact hcend ▸ ih hu (by omega) hrest

/-- Settles O17: by the invariant the list is a whole number of commands, on which `run_list` is an induction. -/
theorem everyListTerminates : Obligations.EveryListTerminates := by
  intro s t hinv hs hrun
  obtain ⟨hle, -, hcp, hcend⟩ := hinv.list hs
  exact run_list hs (by omega) hrun

/-- Settles O13: the frame of a command that ends (`commandKeeps_of_next`) holds the control part of the state. -/
theorem commandsLeaveTheSequencerAlone : Obligations.CommandsLeaveTheSequencerAlone := by
  intro i s t h
  have hk := commandKeeps_of_next h
  obtain ⟨hcp, hcend, hstatus, -, hparams, hhost⟩ := hk.upToLog.control
  exact ⟨hcp, hcend, hstatus, hparams, hhost, hk.log⟩

end Sys2Proof.Machine
end

section
/-! SUPPORT. The rows of the opcode map (30_encoding.md R103) for NOOP, the setup commands, LOADADPCM and CLEARBUFF. -/

namespace Sys2Proof

section
variable {w0 : Word} (w1 : Word)

theorem decodeWords_noop (h : opcodeOf w0 = 0x00) : decodeWords w0 w1 = .noop := by
  simp [decodeWords, h]

theorem decodeWords_clearbuff (h : opcodeOf w0 = 0x02) : decodeWords w0 w1 = .clearbuff (loHalf w0) (loHalf w1) := by
  simp [decodeWords, h]

theorem decodeWords_setbuff (h : opcodeOf w0 = 0x08) : decodeWords w0 w1 = decodeSetbuff w0 w1 := by
  simp [decodeWords, h]

theorem decodeWords_setvol (h : opcodeOf w0 = 0x09) : decodeWords w0 w1 = decodeSetvol w0 w1 := by
  simp [decodeWords, h]

theorem decodeWords_loadadpcm (h : opcodeOf w0 = 0x0B) : decodeWords w0 w1 = .loadadpcm (loHalf w0) w1 := by
  simp [decodeWords, h]

theorem decodeWords_setloop (h : opcodeOf w0 = 0x0F) : decodeWords w0 w1 = .setloop w1 := by
  simp [decodeWords, h]

theorem decodeWords_envsetup1 (h : opcodeOf w0 = 0x12) :
    decodeWords w0 w1 = .envsetup1 (byteOf 2 w0) (loHalf w0) (hiHalf w1) (loHalf w1) := by
  simp [decodeWords, h]

theorem decodeWords_envsetup2 (h : opcodeOf w0 = 0x16) : decodeWords w0 w1 = .envsetup2 (hiHalf w1) (loHalf w1) := by
  simp [decodeWords, h]

end

end Sys2Proof
end

section
/-! SUPPORT. LOADADPCM (40_control.md R149): its rounds load the codebook entry by entry, as far as main memory
reaches. -/

namespace Sys2Proof.Machine

/-- A loop ends where its first failing round ends. -/
theorem loop_error {n k : Nat} {f : Nat → Act Unit} {s t u : State} {e : Stop} (hk : k < n)
    (h : loop k f s = .ok () t) (he : f k t = .error e u) : loop n f s = .error e u := by
  induction n with
  | zero => omega
  | succ n ih =>
    rw [loop_succ]
    rcases Nat.lt_succ_iff_lt_or_eq.1 hk with hlt | rfl
    · exact bind_of_error (ih hlt)
    · rw [bind_of_ok h]
      exact he

theorem codebookFrom_zero (s : State) (a : Nat) : s.codebookFrom a 0 = s.eng := by
  have hbook : (Vector.ofFn fun i : Fin 128 => s.eng.codebook.get i) = s.eng.codebook := by
    ext i hi : 1
    simp [Vector.get]
  simp [State.codebookFrom, hbook]

theorem codebookFrom_succ (s : State) (a n : Nat) :
    (s.codebookFrom a n).setCodebook n (s.mmHalf (a + 2 * n)) = s.codebookFrom a (n + 1) := by
  unfold Engine.setCodebook State.codebookFrom
  refine congrArg (fun book => { s.eng with codebook := book }) ?_
  ext i hi : 1
  rw [Vector.getElem_setIfInBounds hi, Vector.getElem_ofFn, Vector.getElem_ofFn]
  dsimp only
  rcases Nat.lt_trichotomy i n with h | rfl | h
  · rw [if_neg (by omega), if_pos h, if_pos (by omega)]
  · rw [if_pos rfl, if_pos (by omega)]
  · rw [if_neg (by omega), if_neg (by omega), if_neg (by omega)]

/-- One round of LOADADPCM's loop, with the source at a. -/
def loadEntry (a i : Nat) : Act Unit := do
  let v ← memRead16 (a + 2 * i)
  setEng fun e => e.setCodebook i v

theorem loadEntry_of_le {a i : Nat} {s : State} (e : Engine) (h : a + 2 * (i + 1) ≤ s.params.mmSize) :
    loadEntry a i { s with eng := e } = .ok () { s with eng := e.setCodebook i (s.mmHalf (a + 2 * i)) } :=
  bind_of_ok (memRead16_of_le (by dsimp; omega))

theorem loadEntry_range {a i : Nat} {s : State} (e : Engine) (h : s.params.mmSize < a + 2 * (i + 1)) :
    loadEntry a i { s with eng := e } = .error (.refuse .mmRange) { s with eng := e } :=
  bind_of_error (memRead16_range (by dsimp; omega))

/-- Entries that lie in main memory are all loaded. -/
theorem loop_loadEntry_of_le {a n : Nat} {s : State} (h : n = 0 ∨ a + 2 * n ≤ s.params.mmSize) :
    loop n (loadEntry a) s = .ok () { s with eng := s.codebookFrom a n } := by
  induction n with
  | zero => rw [codebookFrom_zero]; rfl
  | succ n ih =>
    have hn : a + 2 * (n + 1) ≤ s.params.mmSize := by omega
    rw [loop_succ, bind_of_ok (ih (by omega)), ← codebookFrom_succ]
    exact loadEntry_of_le _ hn

/-- At the first entry beyond `MM_SIZE` the loop is refused, with the entries before it loaded. -/
theorem loop_loadEntry_range {a n : Nat} {s : State} (hn : n ≠ 0) (h : s.params.mmSize < a + 2 * n) :
    loop n (loadEntry a) s
      = .error (.refuse .mmRange) { s with eng := s.codebookFrom a ((s.params.mmSize - a) / 2) } :=
  loop_error (k := (s.params.mmSize - a) / 2) (by omega) (loop_loadEntry_of_le (by omega))
    (loadEntry_range _ (by omega))

theorem loadCount_eq (count : Half) : loadCount count = (count.toNat + 7) / 8 * 4 := by
  unfold loadCount alignUp
  omega

/-- LOADADPCM is its two checks, in their order, then its loop. -/
theorem loadadpcm_apply (count : Half) (addr : Word) (s : State) :
    loadadpcm count addr s
      = if 128 < loadCount count then .error (.refuse .loadadpcmSize) s
        else if s.resolved addr % 8 ≠ 0 then .error (.refuse .mmAlign) s
        else loop (loadCount count) (loadEntry (s.resolved addr)) s := by
  unfold loadadpcm
  rw [bind_of_ok (resolve_apply addr s)]
  split
  · next hsize => exact bind_of_error (by rw [decide_eq_true hsize]; rfl)
  · next hsize =>
    rw [bind_of_ok (refuseIf_ok_iff.2 ⟨decide_eq_false hsize, rfl⟩)]
    split
    · next halign => exact bind_of_error (checkAlign_misaligned halign s)
    · next halign => exact bind_of_ok (checkAlign_ok_iff.2 ⟨not_not.1 halign, rfl⟩)

theorem exec_loadadpcm (count : Half) (addr : Word) (s : State) :
    exec (.loadadpcm count addr) s = runAct (loadadpcm count addr) s := rfl

/-- Settles O26: each refusal is one of `loadadpcm_apply`'s checks or the loop's first entry out of range. -/
theorem loadadpcmLoadsTheCodebook : Obligations.LoadadpcmLoadsTheCodebook := by
  refine ⟨fun count addr s => ?_, fun w0 w1 h => decodeWords_loadadpcm w1 h⟩
  dsimp only
  rw [exec_loadadpcm, ← loadCount_eq, runAct, loadadpcm_apply]
  split_ifs with hsize halign hrange
  · rfl
  · rfl
  · rw [loop_loadEntry_of_le hrange]
  · rw [loop_loadEntry_range (by omega) (by omega)]
    rfl

end Sys2Proof.Machine
end

section
/-! SUPPORT. CLEARBUFF (40_control.md R150): its rounds zero one scratch byte each. -/

namespace Sys2Proof.Machine

/-- From s to t the n scratch bytes from `base` up were zeroed, and nothing else changed. -/
structure Zeroed (base n : Nat) (s t : State) : Prop where
  smAlone : t = { s with sm := t.sm }
  inside : ∀ a, a < 65536 → inScratch base n a → t.scratch a = 0
  outside : ∀ a, a < 65536 → ¬ inScratch base n a → t.scratch a = s.scratch a

theorem inScratch_zero (base a : Nat) : ¬ inScratch base 0 a := Nat.not_lt_zero _

/-- One byte more of a region. -/
theorem inScratch_succ {base n a : Nat} (hn : n < 65536) (ha : a < 65536) :
    inScratch base (n + 1) a ↔ inScratch base n a ∨ a % 65536 = (base + n) % 65536 := by
  unfold inScratch
  omega

theorem Zeroed.refl (base : Nat) (s : State) : Zeroed base 0 s s :=
  ⟨rfl, fun _ _ h => absurd h (inScratch_zero _ _), fun _ _ _ => rfl⟩

/-- Zeroing the next byte. -/
theorem Zeroed.poke8 {base n : Nat} {s t : State} (hn : n < 65536) (h : Zeroed base n s t) :
    Zeroed base (n + 1) s (poke8 t (base + n) 0) where
  smAlone := congrArg (Machine.poke8 · (base + n) 0) h.smAlone
  inside a ha hin := by
    rw [scratch_poke8]
    split
    · rfl
    · next hne => exact h.inside a ha (((inScratch_succ hn ha).1 hin).resolve_right hne)
  outside a ha hout := by
    rw [inScratch_succ hn ha, not_or] at hout
    rw [scratch_poke8, if_neg hout.2]
    exact h.outside a ha hout.1

theorem clearCount_eq (count : Half) : clearCount count = (count.toNat + 15) / 16 * 16 := rfl

theorem clearCount_le (count : Half) : clearCount count ≤ 65536 := by
  rw [clearCount_eq]
  omega

/-- CLEARBUFF always ends, with its range zeroed. -/
theorem clearbuff_runs (dmem count : Half) (s : State) :
    Runs (clearbuff dmem count) s fun _ t => Zeroed (dmem + s.params.dmemBase).toNat (clearCount count) s t :=
  .bind <| .of_eq (getParams_apply s) <|
    .loop (fun n t => Zeroed (dmem + s.params.dmemBase).toNat n s t) (.refl _ s) fun n _ hn h =>
      .of_eq (d8w_apply _ 0 _) (h.poke8 (by have := clearCount_le count; omega))

/-- Settles O27: the run of CLEARBUFF's loop zeroes one byte a round. -/
theorem clearbuffZeroesItsRange : Obligations.ClearbuffZeroesItsRange := by
  refine ⟨fun dmem count s => ?_, fun w0 w1 h => decodeWords_clearbuff w1 h⟩
  obtain ⟨t, hnext, hz⟩ := (clearbuff_runs dmem count s).next
  exact ⟨t, hnext, hz.smAlone, fun a ha => ⟨hz.inside a ha, hz.outside a ha⟩⟩

end Sys2Proof.Machine
end

section
/-! SUPPORT. The sequencer's own steps (40_control.md R140 to R142): the fetch of one command, the end of the list, and
Invoke with its checks. -/

namespace Sys2Proof.Machine

/-- The 8 bytes at an address decode as the two words that fetch reads there (R141). -/
theorem decode_mmBytes (s : State) (a : Nat) :
    decode (s.mmBytes a 8) = .ok (decodeWords (s.mmWord a) (s.mmWord (a + 4)), []) := rfl

/-- Settles O7: a command step in range executes what the fetched words decode to. -/
theorem stepRunsTheFetchedCommand : Obligations.StepRunsTheFetchedCommand := by
  intro s i rest hs hne hr hdec
  cases (decode_mmBytes s s.cp).symm.trans hdec
  exact ⟨wf_decodeWords _ _, (step_command hs hne).trans (commandStep_in_range hr)⟩

/-- Settles O8: the end of the list is a step of its own (log 14). -/
theorem endOfListSetsIdle : Obligations.EndOfListSetsIdle := fun _ hs he => step_end hs he

/-- Invoke is its three checks, in their order, then the start of the list (R140). -/
theorem invoke_apply (addr size : Nat) (s : State) :
    invoke addr size s
      = if size % 8 ≠ 0 then .error (.refuse .cmdlistSize) s
        else if addr % 8 ≠ 0 then .error (.refuse .mmAlign) s
        else if s.params.mmSize < addr + size then .error (.refuse .mmRange) s
        else .ok () { s with eng := s.eng.clearWritten, cp := addr, cend := addr + size, status := .running } := by
  unfold invoke
  split
  · next hsize => exact bind_of_error (by rw [bne_iff_ne.2 hsize]; rfl)
  · next hsize =>
    rw [bind_of_ok (refuseIf_ok_iff.2 ⟨by simpa using hsize, rfl⟩)]
    split
    · next halign => exact bind_of_error (checkAlign_misaligned halign s)
    · next halign =>
      rw [bind_of_ok (checkAlign_ok_iff.2 ⟨not_not.1 halign, rfl⟩)]
      split
      · next hrange => exact bind_of_error (by rw [checkRange_apply, if_neg (by omega)])
      · next hrange => exact bind_of_ok (checkRange_ok_iff.2 ⟨by omega, rfl⟩)

/-- Settles O9: an Idle block takes the Invoke as its step, and an empty list is at its end at once. -/
theorem invokeMakesItsChecksInOrder : Obligations.InvokeMakesItsChecksInOrder := by
  intro s addr size rest hs hh
  have hstep : step s = runAct (invoke addr size) { s with host := rest } := step_hostAction hs hh
  refine ⟨?_, fun hsize haddr hrange => ?_⟩
  · rw [hstep, runAct, invoke_apply]
    split_ifs <;> rfl
  · subst hsize
    have hinvoke := invoke_apply addr 0 { s with host := rest }
    rw [if_neg (by omega), if_neg (by omega), if_neg (by dsimp; omega)] at hinvoke
    exact run_succ_next_iff (M := core).2 ⟨_, hstep.trans (runAct_next_iff.2 hinvoke), run_end rfl rfl⟩

end Sys2Proof.Machine
end

section
/-! SUPPORT. NOOP and the setup commands (40_control.md R145 to R148, R151, R152): each is one change of the registers
it names, with no check. -/

namespace Sys2Proof.Machine

theorem exec_noop (s : State) : exec .noop s = .next s := rfl

/-- Settles O22: every pair of words of opcode 0 decodes to the one command that does nothing. -/
theorem noopChangesNothing : Obligations.NoopChangesNothing :=
  ⟨exec_noop, fun _ w1 s h => decodeWords_noop w1 h ▸ exec_noop s⟩

/-- Settles O23: both forms write `scratchField` of their addresses, and AUX is flag 3 (R112). -/
theorem setbuffSetsTheBufferRegisters : Obligations.SetbuffSetsTheBufferRegisters :=
  ⟨fun _ _ _ _ => rfl, fun _ _ _ _ => rfl, fun _ w1 h => decodeWords_setbuff w1 h⟩

/-- Settles O24: three forms and two sides; AUX is flag 3, VOL flag 2, LEFT flag 1 (R113). -/
theorem setvolSetsGainsAndRamps : Obligations.SetvolSetsGainsAndRamps :=
  ⟨fun _ _ _ => rfl, fun _ _ => ⟨rfl, rfl⟩, fun _ _ _ => ⟨rfl, rfl⟩, fun _ w1 h => decodeWords_setvol w1 h⟩

/-- Settles O25: the address is resolved and written, and no check stands in between. -/
theorem setloopSetsTheLoopAddress : Obligations.SetloopSetsTheLoopAddress :=
  ⟨fun _ _ => rfl, fun _ w1 h => decodeWords_setloop w1 h⟩

/-- ENVSETUP1's value2 is a multiple of 256 (R151). -/
theorem value2Field_eq (v : Byte) : value2Field v = BitVec.ofNat 16 (v.toNat * 256) := by
  apply BitVec.eq_of_toNat_eq
  unfold value2Field
  rw [BitVec.toNat_append, BitVec.toNat_ofNat, BitVec.ofNat_eq_ofNat, BitVec.toNat_zero, Nat.or_zero, Nat.shiftLeft_eq]
  omega

theorem exec_envsetup1 (value2 : Byte) (step2 step0 step1 : Half) (s : State) :
    exec (.envsetup1 value2 step2 step0 step1) s
      = .next { s with eng := { s.eng with
          envValue2 := .of (value2Field value2), envStep2 := .of step2, envStep0 := .of step0, envStep1 := .of step1 } } :=
  rfl

/-- Settles O28: the one value that is not written as it stands is value2 (`value2Field_eq`). -/
theorem envsetupSetsTheNeadRegisters : Obligations.EnvsetupSetsTheNeadRegisters := by
  refine ⟨fun value2 step2 step0 step1 s => ?_, fun _ _ _ => rfl,
    fun _ w1 => ⟨fun h => decodeWords_envsetup1 w1 h, fun h => decodeWords_envsetup2 w1 h⟩⟩
  rw [exec_envsetup1, value2Field_eq]

end Sys2Proof.Machine
end

section
/-! SUPPORT. ADPCM, the residuals of a frame's payload (41_adpcm.md R200 to R203), and lists of 16-bit samples. -/

namespace Sys2Proof.Machine

variable {α : Type}

/-! ## Lists of samples -/

/-- Every sample of a list lies in the signed 16-bit range. -/
def Samples16 (xs : List Int) : Prop := ∀ x ∈ xs, -32768 ≤ x ∧ x ≤ 32767

theorem nth_of_lt {xs : List Int} {i : Nat} (h : i < xs.length) : nth xs i = xs[i] := List.getD_eq_getElem xs 0 h

theorem nth_of_le {xs : List Int} {i : Nat} (h : xs.length ≤ i) : nth xs i = 0 := List.getD_eq_default xs 0 h

theorem nth_map_range (f : Nat → Int) {n i : Nat} (h : i < n) : nth ((List.range n).map f) i = f i := by
  rw [nth_of_lt (by simpa using h), List.getElem_map, List.getElem_range]

/-- What holds of 0 and of every element holds of `nth`, also beyond the end of the list. -/
theorem nth_of_forall_lt {p : Int → Prop} {xs : List Int} {n : Nat} (hlen : xs.length = n) (h0 : p 0)
    (h : ∀ i, i < n → p (nth xs i)) (i : Nat) : p (nth xs i) := by
  by_cases hi : i < n
  · exact h i hi
  · rwa [nth_of_le (by omega)]

theorem Samples16.nth {xs : List Int} (h : Samples16 xs) : ∀ i, -32768 ≤ nth xs i ∧ nth xs i ≤ 32767 :=
  nth_of_forall_lt (p := fun x => -32768 ≤ x ∧ x ≤ 32767) rfl (by decide) fun i hi => by
    rw [nth_of_lt hi]
    exact h _ (List.getElem_mem hi)

theorem Samples16.append {xs ys : List Int} (hx : Samples16 xs) (hy : Samples16 ys) : Samples16 (xs ++ ys) :=
  fun x h => (List.mem_append.1 h).elim (hx x) (hy x)

theorem Samples16.take {xs : List Int} (h : Samples16 xs) (n : Nat) : Samples16 (xs.take n) :=
  fun x hx => h x (List.mem_of_mem_take hx)

theorem Samples16.drop {xs : List Int} (h : Samples16 xs) (n : Nat) : Samples16 (xs.drop n) :=
  fun x hx => h x (List.mem_of_mem_drop hx)

theorem Samples16.map {f : α → Int} {l : List α} (h : ∀ a, -32768 ≤ f a ∧ f a ≤ 32767) : Samples16 (l.map f) :=
  List.forall_mem_map.2 fun a _ => h a

/-! ## Residuals (R202, R203) -/

/-- A signed field of w bits, shifted so far that it fits n bits at most. -/
theorem shl_toInt_bounds {w n : Nat} (v : BitVec (w + 1)) {k : Nat} (hk : k ≤ n) :
    -2 ^ (w + n) ≤ shl v.toInt k ∧ shl v.toInt k ≤ 2 ^ (w + n) - 2 ^ n := by
  have h1 : -2 ^ w ≤ v.toInt := by simpa using BitVec.le_toInt v
  have h2 : v.toInt ≤ 2 ^ w - 1 := by
    have := BitVec.toInt_lt (x := v)
    simpa [Int.le_sub_one_iff] using this
  have hp : (2 : Int) ^ k ≤ 2 ^ n := pow_le_pow_right₀ (by decide) hk
  have hp0 : (0 : Int) < 2 ^ k := by positivity
  have hw : (1 : Int) ≤ 2 ^ w := one_le_pow₀ (by decide)
  rw [pow_add]
  unfold shl
  constructor <;> nlinarith

theorem length_residuals4 (scale : Nat) (b : Byte) : (residuals4 scale b).length = 2 := rfl

theorem length_residuals2 (scale : Nat) (b : Byte) : (residuals2 scale b).length = 4 := rfl

/-- The residuals of a 4-bit payload byte lie in the range R202 names. -/
theorem residuals4_bounds (scale : Nat) (b : Byte) : ∀ x ∈ residuals4 scale b, -32768 ≤ x ∧ x ≤ 28672 := by
  have h (v : BitVec 4) := shl_toInt_bounds v (Nat.min_le_right scale 12)
  simp only [residuals4, List.forall_mem_cons]
  exact ⟨h _, h _, nofun⟩

/-- The residuals of a 2-bit payload byte lie in the range R203 names. -/
theorem residuals2_bounds (scale : Nat) (b : Byte) : ∀ x ∈ residuals2 scale b, -32768 ≤ x ∧ x ≤ 16384 := by
  have h (v : BitVec 2) := shl_toInt_bounds v (Nat.min_le_right scale 14)
  simp only [residuals2, List.forall_mem_cons]
  exact ⟨h _, h _, h _, h _, nofun⟩

theorem residuals4_scale {scale : Nat} (h : 12 ≤ scale) : residuals4 scale = residuals4 12 := by
  unfold residuals4
  rw [Nat.min_eq_right h, Nat.min_self]

theorem residuals2_scale {scale : Nat} (h : 14 ≤ scale) : residuals2 scale = residuals2 14 := by
  unfold residuals2
  rw [Nat.min_eq_right h, Nat.min_self]

theorem frameResiduals_false (scale : Nat) (bs : List Byte) :
    frameResiduals false scale bs = bs.flatMap (residuals4 scale) := rfl

theorem frameResiduals_true (scale : Nat) (bs : List Byte) :
    frameResiduals true scale bs = bs.flatMap (residuals2 scale) := rfl

section
variable {m : Nat} {f : Byte → List Int} (hf : ∀ b, (f b).length = m)
include hf

/-- A payload whose bytes give m residuals each. -/
theorem length_flatMap_residuals (bs : List Byte) : (bs.flatMap f).length = m * bs.length := by
  induction bs with
  | nil => rfl
  | cons b bs ih => rw [List.flatMap_cons, List.length_append, ih, hf, List.length_cons]; ring

/-- Residual q of payload byte j. -/
theorem nth_flatMap_residuals {bs : List Byte} {j q : Nat} (hj : j < bs.length) (hq : q < m) :
    nth (bs.flatMap f) (m * j + q) = nth (f (bs.getD j 0)) q := by
  induction bs generalizing j with
  | nil => exact absurd hj (Nat.not_lt_zero j)
  | cons b bs ih =>
    rw [List.flatMap_cons]
    cases j with
    | zero =>
      rw [Nat.mul_zero, Nat.zero_add]
      exact List.getD_append _ _ _ _ (by rw [hf b]; exact hq)
    | succ j =>
      have hle : (f b).length ≤ m * (j + 1) + q := by rw [hf b, Nat.mul_succ]; omega
      rw [nth, List.getD_append_right _ _ _ _ hle, hf, show m * (j + 1) + q - m = m * j + q by rw [Nat.mul_succ]; omega]
      exact ih (by simpa using hj)

end

/-- Whatever the mode, every residual is a 16-bit number. -/
theorem frameResiduals_samples16 (twobit : Bool) (scale : Nat) (bs : List Byte) :
    Samples16 (frameResiduals twobit scale bs) := by
  intro x hx
  obtain ⟨b, -, hb⟩ := List.mem_flatMap.1 hx
  cases twobit with
  | false => have := residuals4_bounds scale b x hb; omega
  | true => have := residuals2_bounds scale b x hb; omega

/-- A frame has 16 residuals (R200). -/
theorem length_frameResiduals {twobit : Bool} (scale : Nat) {bs : List Byte} (h : bs.length = payloadBytes twobit) :
    (frameResiduals twobit scale bs).length = 16 := by
  cases twobit with
  | false => rw [frameResiduals_false, length_flatMap_residuals (length_residuals4 scale), h]; rfl
  | true => rw [frameResiduals_true, length_flatMap_residuals (length_residuals2 scale), h]; rfl

/-- Settles O36: byte j gives residuals 2j and 2j + 1, each within the bounds of one byte's residuals. -/
theorem fourBitResiduals : Obligations.FourBitResiduals := by
  intro bs scale j hbs hj
  have hnth (q : Nat) (hq : q < 2) :
      nth (frameResiduals false scale bs) (2 * j + q) = nth (residuals4 scale (bs.getD j 0)) q :=
    nth_flatMap_residuals (length_residuals4 scale) (hbs ▸ hj) hq
  have hfirst := hnth 0 (by decide)
  rw [Nat.add_zero] at hfirst
  dsimp only
  rw [hfirst, hnth 1 (by decide)]
  obtain ⟨hlow0, hhigh0⟩ := residuals4_bounds scale (bs.getD j 0) _ (List.mem_cons_self ..)
  obtain ⟨hlow1, hhigh1⟩ := residuals4_bounds scale (bs.getD j 0) _ (List.mem_cons_of_mem _ (List.mem_cons_self ..))
  exact ⟨length_frameResiduals scale hbs, rfl, rfl, hlow0, hhigh0, hlow1, hhigh1, fun h => by
    rw [frameResiduals_false, residuals4_scale h, frameResiduals_false]⟩

/-- Settles O37: byte j gives residuals 4j to 4j + 3, each within the bounds of one byte's residuals. -/
theorem twoBitResiduals : Obligations.TwoBitResiduals := by
  intro bs scale j q hbs hj hq
  have hnth : nth (frameResiduals true scale bs) (4 * j + q) = nth (residuals2 scale (bs.getD j 0)) q :=
    nth_flatMap_residuals (length_residuals2 scale) (hbs ▸ hj) hq
  have hvalue : nth (residuals2 scale (bs.getD j 0)) q
      = ((bs.getD j 0).extractLsb' (6 - 2 * q) 2).toInt * 2 ^ (min scale 14) := by
    interval_cases q <;> rfl
  have hmem : nth (residuals2 scale (bs.getD j 0)) q ∈ residuals2 scale (bs.getD j 0) := by
    rw [nth_of_lt (by rwa [length_residuals2])]
    exact List.getElem_mem _
  dsimp only
  rw [hnth, ← hvalue]
  obtain ⟨hlow, hhigh⟩ := residuals2_bounds scale _ _ hmem
  exact ⟨length_frameResiduals scale hbs, rfl, hlow, hhigh, fun h => by
    rw [frameResiduals_true, residuals2_scale h, frameResiduals_true]⟩

end Sys2Proof.Machine
end

section
/-! SUPPORT. ADPCM, the lookups of a codebook block and a prediction pass (41_adpcm.md R204 to R206). -/

namespace Sys2Proof.Machine

variable {α : Type}

/-! ## Codebook entries (R204, R205) -/

/-- A lookup from 128 up is a draw (R204). -/
theorem codebookLookup_beyond {j : Nat} (h : 128 ≤ j) :
    codebookLookup j = (drawHalf >>= fun v => pure v.toInt) := by
  have hb : codebookBits j = drawHalf := dif_neg (by omega)
  rw [codebookLookup, hb]

/-- Settles O43: the entry is a draw, and a draw takes the front of the supply. -/
theorem entriesBeyondTheCodebookAreAnyValue : Obligations.EntriesBeyondTheCodebookAreAnyValue := by
  intro s j v hj
  rw [codebookLookup_beyond hj]
  refine ⟨?_, rfl⟩
  obtain ⟨x, su, dr, hdraw⟩ := drawHalf_runs s
  obtain ⟨hlow, hhigh⟩ := half_toInt_bounds x
  exact ⟨_, _, bind_of_ok hdraw, hlow, hhigh, rfl⟩

/-! ## Sums (R8, R206) -/

theorem wrapS32_of_fits {v : Int} (h : fitsS32 v = true) : wrapS32 v = v := by
  have hv : -2147483648 ≤ v ∧ v ≤ 2147483647 := by simpa [fitsS32] using h
  unfold wrapS32
  rw [BitVec.toInt_ofInt]
  exact Int.bmod_eq_of_le (by omega) (by omega)

/-- A sum that does not end the run is read back as its low 32 bits. -/
theorem acc32_of_accOk {s : State} {v : Int} (h : AccOk s v) : acc32 v s = .ok (wrapS32 v) s := by
  refine acc32_ok_iff.2 ⟨?_, rfl⟩
  unfold acc32Result
  split
  · next hfits => rw [wrapS32_of_fits hfits]
  · next hfits => rw [h.resolve_right hfits]

theorem acc32_of_not_accOk {s : State} {v : Int} (h : ¬ AccOk s v) : acc32 v s = .error (.fault .accOverflow) s := by
  obtain ⟨hmode, hfits⟩ := not_or.1 h
  have hmode : s.params.accOverflow = .fault := by
    cases hm : s.params.accOverflow with
    | fault => rfl
    | wrap32 => exact absurd hm hmode
  rw [acc32_apply, hmode]
  unfold acc32Result
  rw [if_neg hfits]

theorem innerSum_eq_sum (book2 r : List Int) (i n : Nat) :
    innerSum book2 r i n = ∑ k ∈ Finset.range n, nth book2 k * nth r (i - 1 - k) := by
  induction n with
  | zero => rfl
  | succ n ih => rw [innerSum, ih, Finset.sum_range_succ]

/-- The sum of R206, written out. -/
theorem predictSum_eq (book1 book2 r : List Int) (l1 l2 : Int) (i : Nat) :
    predictSum book1 book2 r l1 l2 i = nth r i * 2048 + nth book1 i * l1 + nth book2 i * l2
      + ∑ k ∈ Finset.range i, nth book2 k * nth r (i - 1 - k) := by
  rw [predictSum, innerSum_eq_sum]
  rfl

/-! ## A pass (R206) -/

/-- A collection of turns that each end and change nothing. -/
theorem collect_of_ok {f : Nat → Act α} {g : Nat → α} {s : State} {n : Nat} (h : ∀ i, i < n → f i s = .ok (g i) s) :
    collect n f s = .ok ((List.range n).map g) s := by
  induction n with
  | zero => rfl
  | succ n ih =>
    rw [collect_succ, bind_of_ok (ih fun i hi => h i (by omega)), bind_of_ok (h n (by omega)), List.range_succ,
      List.map_append]
    rfl

/-- Sample i of a pass, as `predict` runs it. -/
def predictSample (book1 book2 r : List Int) (l1 l2 : Int) (i : Nat) : Act Int := do
  let acc ← acc32 (predictSum book1 book2 r l1 l2 i)
  pure (clamp16 (asr acc 11))

theorem predict_eq (book1 book2 r : List Int) (l1 l2 : Int) :
    predict book1 book2 r l1 l2 = collect 8 (predictSample book1 book2 r l1 l2) := rfl

section
variable {s : State} {book1 book2 r : List Int} {l1 l2 : Int}

theorem predictSample_of_accOk {i : Nat} (h : AccOk s (predictSum book1 book2 r l1 l2 i)) :
    predictSample book1 book2 r l1 l2 i s = .ok (clamp16 (asr (wrapS32 (predictSum book1 book2 r l1 l2 i)) 11)) s :=
  bind_of_ok (acc32_of_accOk h)

/-- A pass whose sums do not end the run. -/
theorem predict_of_accOk (h : ∀ i, i < 8 → AccOk s (predictSum book1 book2 r l1 l2 i)) :
    predict book1 book2 r l1 l2 s = .ok (passSamples book1 book2 r l1 l2) s :=
  collect_of_ok fun i hi => predictSample_of_accOk (h i hi)

/-- A pass stops at the first of its sums that ends the run. -/
theorem predict_of_not_accOk (h : ¬ ∀ i, i < 8 → AccOk s (predictSum book1 book2 r l1 l2 i)) :
    predict book1 book2 r l1 l2 s = .error (.fault .accOverflow) s := by
  classical
  have hex : ∃ i, i < 8 ∧ ¬ AccOk s (predictSum book1 book2 r l1 l2 i) := by simpa using h
  obtain ⟨hlt, hbad⟩ := Nat.find_spec hex
  have hbefore (i : Nat) (hi : i < Nat.find hex) : AccOk s (predictSum book1 book2 r l1 l2 i) :=
    not_not.1 fun hn => Nat.find_min hex hi ⟨by omega, hn⟩
  rw [predict_eq]
  exact collect_error hlt (collect_of_ok fun i hi => predictSample_of_accOk (hbefore i hi))
    (bind_of_error (acc32_of_not_accOk hbad))

end

theorem length_passSamples (book1 book2 r : List Int) (l1 l2 : Int) : (passSamples book1 book2 r l1 l2).length = 8 := rfl

theorem passSamples_samples16 (book1 book2 r : List Int) (l1 l2 : Int) :
    Samples16 (passSamples book1 book2 r l1 l2) := .map fun _ => clamp16_bounds _

theorem nth_passSamples (book1 book2 r : List Int) (l1 l2 : Int) {i : Nat} (h : i < 8) :
    nth (passSamples book1 book2 r l1 l2) i = clamp16 (asr (wrapS32 (predictSum book1 book2 r l1 l2 i)) 11) :=
  nth_map_range _ h

/-- Settles O38: a pass whose sums all pass `acc32` is `passSamples`, and any other stops. -/
theorem predictionPassSamples : Obligations.PredictionPassSamples := by
  intro s b1 b2 r l1 l2
  dsimp only
  simp only [← predictSum_eq]
  exact ⟨fun h => ⟨_, predict_of_accOk h, length_passSamples b1 b2 r l1 l2, fun i hi => nth_passSamples _ _ _ _ _ hi⟩,
    predict_of_not_accOk⟩

end Sys2Proof.Machine
end

section
/-! SUPPORT. ADPCM, what it leaves unchanged (41_adpcm.md R209 to R211), and one frame (R205 to R207): when no sum of a
block ends the run, and what a frame decodes to. -/

namespace Sys2Proof.Machine

variable {α : Type}

/-- What a piece ends with, together with its frame. -/
theorem Runs.and_keeps {x : Act α} {s : State} {Q : α → State → Prop} {R : State → State → Prop} (h : Runs x s Q)
    (hk : Keeps R x) : Runs x s fun a t => Q a t ∧ R s t := by
  obtain ⟨a, t, hx, q⟩ := h
  exact ⟨a, t, hx, q, hk.of_ok hx⟩

/-! ## What ADPCM leaves unchanged -/

theorem exec_adpcm (init loopFlag twobit : Bool) (lfa : Word) (s : State) :
    exec (.adpcm init loopFlag twobit lfa) s = runAct (adpcm init loopFlag twobit lfa) s := rfl

/-- Settles O39: the frame of ADPCM's piece, at a run that ends. -/
theorem adpcmFrame : Obligations.AdpcmFrame := by
  intro s t init loopFlag twobit lfa h
  rw [exec_adpcm, runAct_next_iff] at h
  have hw := adpcm_within init loopFlag twobit lfa s
  rw [KeepsAt, leaves_of_ok h] at hw
  exact ⟨hw.eng, hw.control, hw.scratch, hw.main⟩

/-! ## The sums of a block (R206) -/

/-- The product of a coefficient and a 16-bit sample. -/
theorem coefficient_mul_bounds {c x : Int} (hc : -7054 ≤ c ∧ c ≤ 7054) (hx : -32768 ≤ x ∧ x ≤ 32767) :
    -231145472 ≤ c * x ∧ c * x ≤ 231145472 := by
  constructor <;> nlinarith

/-- Every element of a prediction vector is within 7054 in size. -/
def SmallCoefficients (book : List Int) : Prop := ∀ k, -7054 ≤ nth book k ∧ nth book k ≤ 7054

theorem smallCoefficients_of_lt {book : List Int} (hlen : book.length = 8)
    (h : ∀ k, k < 8 → -7054 ≤ nth book k ∧ nth book k ≤ 7054) : SmallCoefficients book :=
  nth_of_forall_lt (p := fun c => -7054 ≤ c ∧ c ≤ 7054) hlen (by decide) h

theorem innerSum_bounds {book2 r : List Int} (hb : SmallCoefficients book2) (hr : Samples16 r) (i n : Nat) :
    -231145472 * n ≤ innerSum book2 r i n ∧ innerSum book2 r i n ≤ 231145472 * n := by
  induction n with
  | zero => simp [innerSum]
  | succ n ih =>
    have hp := coefficient_mul_bounds (hb n) (hr.nth (i - 1 - n))
    rw [innerSum]
    omega

/-- No sum of R206 over such vectors leaves 32 bits: at most 32768 * (2048 + 9 * 7054) in size. -/
theorem predictSum_fits {book1 book2 r : List Int} {l1 l2 : Int} {i : Nat} (hb1 : SmallCoefficients book1)
    (hb2 : SmallCoefficients book2) (hr : Samples16 r) (h1 : -32768 ≤ l1 ∧ l1 ≤ 32767) (h2 : -32768 ≤ l2 ∧ l2 ≤ 32767)
    (hi : i < 8) : fitsS32 (predictSum book1 book2 r l1 l2 i) = true := by
  have hres := hr.nth i
  have hseed1 := coefficient_mul_bounds (hb1 i) h1
  have hseed2 := coefficient_mul_bounds (hb2 i) h2
  have hinner := innerSum_bounds hb2 hr i i
  simp only [fitsS32, decide_eq_true_eq]
  unfold predictSum shl
  omega

theorem length_book1 (s : State) (idx : Nat) : (s.book1 idx).length = 8 := rfl

theorem length_book2 (s : State) (idx : Nat) : (s.book2 idx).length = 8 := rfl

theorem nth_book1 (s : State) (idx : Nat) {k : Nat} (h : k < 8) : nth (s.book1 idx) k = s.codebookAt (16 * idx + k) :=
  nth_map_range _ h

theorem nth_book2 (s : State) (idx : Nat) {k : Nat} (h : k < 8) :
    nth (s.book2 idx) k = s.codebookAt (16 * idx + 8 + k) := nth_map_range _ h

/-- No sum of a pass over two prediction vectors ends the run, whatever 16-bit residuals and seeds it has. -/
def PassesOk (s : State) (book1 book2 : List Int) : Prop :=
  ∀ (r : List Int) (l1 l2 : Int), Samples16 r → (-32768 ≤ l1 ∧ l1 ≤ 32767) → (-32768 ≤ l2 ∧ l2 ≤ 32767) →
    ∀ i, i < 8 → AccOk s (predictSum book1 book2 r l1 l2 i)

theorem passesOk_of_wrap32 {s : State} (h : s.params.accOverflow = .wrap32) (book1 book2 : List Int) :
    PassesOk s book1 book2 := fun _ _ _ _ _ _ _ _ => .inl h

theorem passesOk_of_blockFits {s : State} {idx : Nat} (h : s.blockFits idx) :
    PassesOk s (s.book1 idx) (s.book2 idx) := by
  obtain hwrap | ⟨-, hsmall⟩ := h
  · exact passesOk_of_wrap32 hwrap _ _
  · have hb1 : SmallCoefficients (s.book1 idx) :=
      smallCoefficients_of_lt (length_book1 s idx) fun k hk =>
        nth_book1 s idx hk ▸ hsmall _ (by omega) (by omega)
    have hb2 : SmallCoefficients (s.book2 idx) :=
      smallCoefficients_of_lt (length_book2 s idx) fun k hk =>
        nth_book2 s idx hk ▸ hsmall _ (by omega) (by omega)
    exact fun r l1 l2 hr h1 h2 i hi => .inr (predictSum_fits hb1 hb2 hr h1 h2 hi)

/-! ## One frame (R205, R207) -/

theorem residualsOf_samples16 (s : State) (twobit : Bool) (f : Nat) : Samples16 (s.residualsOf twobit f) :=
  frameResiduals_samples16 _ _ _

/-- The two passes of a frame over its block's vectors (R207). -/
def twoPasses (book1 book2 r hist : List Int) : List Int :=
  let y := passSamples book1 book2 (r.take 8) (nth hist 14) (nth hist 15)
  y ++ passSamples book1 book2 (r.drop 8) (nth y 6) (nth y 7)

theorem frameSamples_eq (s : State) (twobit : Bool) (f : Nat) (hist : List Int) :
    s.frameSamples twobit f hist
      = twoPasses (s.book1 (frameIndex (s.frameHeader twobit f))) (s.book2 (frameIndex (s.frameHeader twobit f)))
          (s.residualsOf twobit f) hist := rfl

theorem twoPasses_samples16 (book1 book2 r hist : List Int) : Samples16 (twoPasses book1 book2 r hist) :=
  (passSamples_samples16 _ _ _ _ _).append (passSamples_samples16 _ _ _ _ _)

/-- A block from 8 up is drawn, and draws end (R204). -/
theorem codebookBlock_runs_beyond {idx : Nat} (h : 8 ≤ idx) (s : State) :
    Runs (codebookBlock idx) s fun _ _ => True := by
  have hlookup (j : Nat) (hj : 128 ≤ j) (u : State) : Runs (codebookLookup j) u fun _ _ => True := by
    obtain ⟨v, su, dr, hdraw⟩ := drawHalf_runs u
    rw [codebookLookup_beyond hj]
    exact .bind (.of_eq hdraw (.pure trivial))
  refine Runs.collect (fun _ _ _ => True) trivial fun k _ u _ _ => ?_
  exact .bind ((hlookup _ (by omega) u).mono fun _ v _ =>
    .bind ((hlookup _ (by omega) v).mono fun _ _ _ => .pure trivial))

section
variable {s t : State} {twobit : Bool} {f : Nat} {hist : List Int}

/-- The header and the payload are read without a stop, then the block, then the passes run over its vectors. -/
theorem decodeFrame_of_block {block : List (Int × Int)}
    (hblock : codebookBlock (frameIndex (s.frameHeader twobit f)) s = .ok block t)
    (hok : PassesOk t (block.map (·.1)) (block.map (·.2))) (hh : Samples16 hist) :
    decodeFrame twobit (s.inpAddr + frameBytes twobit * f) hist s
      = .ok (twoPasses (block.map (·.1)) (block.map (·.2)) (s.residualsOf twobit f) hist) t := by
  have hr := residualsOf_samples16 s twobit f
  unfold decodeFrame
  rw [bind_of_ok (d8_apply _ s), bind_of_ok (collect_of_ok fun j _ => d8_apply _ s)]
  refine (bind_of_ok hblock).trans ((bind_of_ok (predict_of_accOk ?_)).trans (bind_of_ok (predict_of_accOk ?_)))
  · exact hok _ _ _ (hr.take 8) (hh.nth 14) (hh.nth 15)
  · have hy := passSamples_samples16 (block.map (·.1)) (block.map (·.2)) ((s.residualsOf twobit f).take 8) (nth hist 14)
      (nth hist 15)
    exact hok _ _ _ (hr.drop 8) (hy.nth 6) (hy.nth 7)

/-- Frame f of a state selects a block whose entries are written and whose sums do not end the run. -/
def FrameReady (s : State) (twobit : Bool) (f : Nat) : Prop :=
  s.blockWritten (frameIndex (s.frameHeader twobit f)) ∧ s.blockFits (frameIndex (s.frameHeader twobit f))

/-- A frame whose block exists is decoded as R205 to R207 say, and nothing changes. -/
theorem decodeFrame_of_lt (h : FrameReady s twobit f) (hh : Samples16 hist)
    (hi : frameIndex (s.frameHeader twobit f) < 8) :
    decodeFrame twobit (s.inpAddr + frameBytes twobit * f) hist s = .ok (s.frameSamples twobit f hist) s := by
  obtain ⟨block, hblock, hbook1, hbook2⟩ := codebookBlock_written hi h.1
  have hok : PassesOk s (block.map (·.1)) (block.map (·.2)) := hbook1 ▸ hbook2 ▸ passesOk_of_blockFits h.2
  rw [frameSamples_eq, ← hbook1, ← hbook2]
  exact decodeFrame_of_block hblock hok hh

/-- A frame ends, whichever block it selects. -/
theorem decodeFrame_runs (h : FrameReady s twobit f) (hh : Samples16 hist) :
    Runs (decodeFrame twobit (s.inpAddr + frameBytes twobit * f) hist) s fun y _ => Samples16 y := by
  by_cases hi : frameIndex (s.frameHeader twobit f) < 8
  · exact .of_eq (decodeFrame_of_lt h hh hi) (twoPasses_samples16 _ _ _ _)
  · obtain ⟨block, t, hblock, -⟩ := codebookBlock_runs_beyond (Nat.le_of_not_lt hi) s
    have hwrap : s.params.accOverflow = .wrap32 := h.2.resolve_right fun hlt => hi hlt.1
    have hk := (keeps_codebookBlock (S := fun _ => False) (M := fun _ => False) _).of_ok hblock
    have hok := passesOk_of_wrap32 (hk.control.params ▸ hwrap) (block.map (·.1)) (block.map (·.2))
    exact .of_eq (decodeFrame_of_block hblock hok hh) (twoPasses_samples16 _ _ _ _)

end

end Sys2Proof.Machine
end

section
/-! SUPPORT. ADPCM, its stores to scratch (41_adpcm.md R209, R211): the samples they leave, and the input that they do not
meet. -/

namespace Sys2Proof.Machine

/-! ## Samples stored to scratch (R209, R211) -/

/-- From u to t the first n samples of xs were stored from an even address o up, and no other sample changed. -/
structure Stored (o n : Nat) (xs : List Int) (u t : State) : Prop where
  inside : ∀ i, i < n → t.sample (o + 2 * i) = nth xs i
  outside : ∀ b, b % 2 = 0 → (∀ i, i < n → b % 65536 ≠ (o + 2 * i) % 65536) → t.sample b = u.sample b

theorem Stored.zero (o : Nat) (xs : List Int) (u : State) : Stored o 0 xs u u := ⟨nofun, fun _ _ _ => rfl⟩

/-- One sample more, as long as the region does not meet itself at 65536. -/
theorem Stored.succ {o n : Nat} {xs : List Int} {u t : State} (h : Stored o n xs u t) (ho : o % 2 = 0) (hn : n < 32768)
    (hx : Samples16 xs) : Stored o (n + 1) xs u (poke16 t (o + 2 * n) (nth xs n)) where
  inside i hi := by
    rw [sample_poke16 _ (by omega) (by omega), toS16_of_bounds (hx.nth n).1 (hx.nth n).2]
    split
    · next heq => rw [show i = n by omega]
    · next hne => exact h.inside i (by omega)
  outside b hb hne := by
    rw [sample_poke16 _ (by omega) hb, if_neg (hne n (by omega))]
    exact h.outside b hb fun i hi => hne i (by omega)

theorem storeSamples_runs {o : Nat} (ho : o % 2 = 0) {xs : List Int} (hx : Samples16 xs) (u : State) :
    Runs (storeSamples o xs) u fun _ t => Stored o 16 xs u t :=
  .loop (fun n t => Stored o n xs u t) (.zero o xs u) fun n _ hn h =>
    .of_eq (d16w_even (by omega) _ _) (h.succ ho (by omega) hx)

/-! ## While frames are decoded -/

/-- From s to u nothing changed but draws and the scratch bytes of the history and n frames at `E[out]`. -/
def InOutput (n : Nat) (s u : State) : Prop :=
  Within EngSame (inScratch s.outAddr (32 + 32 * n)) (fun _ => False) s u

theorem InOutput.refl (n : Nat) (s : State) : InOutput n s s := (framing_same _ _).refl s

theorem InOutput.trans_within {n : Nat} {s u v : State} (h : InOutput n s u)
    (hk : Within EngSame (inScratch s.outAddr (32 + 32 * n)) (fun _ => False) u v) : InOutput n s v :=
  (framing_same _ _).trans _ _ _ h hk

/-- 16 samples stored as block g of the output: the history is block 0, frame f is block f + 1. -/
theorem storeFrame_runs {n g : Nat} {s u : State} (hg : g ≤ n) (ho : s.outAddr % 2 = 0) {xs : List Int}
    (hx : Samples16 xs) (h : InOutput n s u) :
    Runs (storeSamples (s.outAddr + 32 * g) xs) u fun _ t => Stored (s.outAddr + 32 * g) 16 xs u t ∧ InOutput n s t := by
  have hkeeps : Keeps (Within EngSame (inScratch s.outAddr (32 + 32 * n)) fun _ => False)
      (storeSamples (s.outAddr + 32 * g) xs) :=
    keeps_storeSamples xs fun i hi => by rw [Nat.add_assoc]; exact inScratch_offset (by omega)
  exact ((storeSamples_runs (by omega) hx u).and_keeps hkeeps).mono fun _ _ ht => ⟨ht.1, h.trans_within ht.2⟩

/-! ## The input stays as it was -/

section
variable {n : Nat} {s u : State} {twobit : Bool} (h : InOutput n s u)
include h

theorem InOutput.engine : u.eng = s.eng := h.eng

theorem InOutput.book1 (idx : Nat) : u.book1 idx = s.book1 idx := by
  unfold State.book1 State.codebookAt
  rw [h.engine]

theorem InOutput.book2 (idx : Nat) : u.book2 idx = s.book2 idx := by
  unfold State.book2 State.codebookAt
  rw [h.engine]

theorem InOutput.blockWritten {idx : Nat} : u.blockWritten idx ↔ s.blockWritten idx := by
  unfold State.blockWritten
  rw [h.engine]

theorem InOutput.blockFits {idx : Nat} : u.blockFits idx ↔ s.blockFits idx := by
  unfold State.blockFits State.codebookAt
  rw [h.engine, h.control.params]

theorem InOutput.inpAddr : u.inpAddr = s.inpAddr := by
  unfold State.inpAddr
  rw [h.engine]

variable (ha : apart s.inpAddr (frameBytes twobit * n) s.outAddr (32 + 32 * n))
include ha

/-- A byte of the input, which the output does not meet. -/
theorem InOutput.scratch_input {k : Nat} (hk : k < frameBytes twobit * n) :
    u.scratch (s.inpAddr + k) = s.scratch (s.inpAddr + k) := by
  rw [← scratch_mod u, ← scratch_mod s]
  exact h.scratch _ (Nat.mod_lt _ (by decide)) fun hout => ha _ (Nat.mod_lt _ (by decide)) ⟨inScratch_offset hk, hout⟩

variable {f : Nat} (hf : f < n)
include hf

theorem InOutput.frameHeader : u.frameHeader twobit f = s.frameHeader twobit f := by
  unfold State.frameHeader
  rw [h.inpAddr]
  exact h.scratch_input ha (Nat.mul_lt_mul_of_pos_left hf (Nat.succ_pos _))

theorem InOutput.residualsOf : u.residualsOf twobit f = s.residualsOf twobit f := by
  have hpayload : ∀ j ∈ List.range (payloadBytes twobit),
      u.scratch (u.inpAddr + frameBytes twobit * f + 1 + j) = s.scratch (s.inpAddr + frameBytes twobit * f + 1 + j) := by
    intro j hj
    have hfits : frameBytes twobit * (f + 1) ≤ frameBytes twobit * n := Nat.mul_le_mul_left _ hf
    have hsize : frameBytes twobit = payloadBytes twobit + 1 := rfl
    have hj : j < payloadBytes twobit := List.mem_range.1 hj
    rw [Nat.mul_succ] at hfits
    rw [h.inpAddr, Nat.add_assoc, Nat.add_assoc]
    exact h.scratch_input ha (by omega)
  unfold State.residualsOf
  rw [h.frameHeader ha hf, List.map_congr_left hpayload]

theorem InOutput.frameSamples (hist : List Int) : u.frameSamples twobit f hist = s.frameSamples twobit f hist := by
  rw [frameSamples_eq, frameSamples_eq, h.frameHeader ha hf, h.residualsOf ha hf, h.book1, h.book2]

theorem InOutput.frameReady : FrameReady u twobit f ↔ FrameReady s twobit f := by
  unfold FrameReady
  rw [h.frameHeader ha hf, h.blockWritten, h.blockFits]

end

end Sys2Proof.Machine
end

section
/-! SUPPORT. ADPCM, the whole command (41_adpcm.md R207 to R213): the history in, the frames in order, the last 16 samples
back to main memory. -/

namespace Sys2Proof.Machine

/-! ## The frames in order -/

section
variable {s : State} {twobit : Bool} {n : Nat} {hist : List Int}

/-- Frames that are ready wherever only the output has changed end, one after the other. -/
theorem decodeFrames_runs (ho : s.outAddr % 2 = 0) (hh : Samples16 hist)
    (hready : ∀ f, f < n → ∀ u, InOutput n s u → FrameReady u twobit f) {v : State} (hv : InOutput n s v) :
    Runs (decodeFrames twobit s.inpAddr s.outAddr n hist) v fun _ _ => True := by
  refine (Runs.loopFrom (fun _ y u => Samples16 y ∧ InOutput n s u) ⟨hh, hv⟩ fun f y u hf ⟨hy, hu⟩ => ?_).mono
    fun _ _ _ => trivial
  have hframe := decodeFrame_runs (hready f hf u hu) hy
  rw [hu.inpAddr] at hframe
  have hkeeps : Keeps (Within EngSame (inScratch s.outAddr (32 + 32 * n)) fun _ => False)
      (decodeFrame twobit (s.inpAddr + frameBytes twobit * f) y) :=
    keeps_decodeFrame _ _ _
  refine .bind ((hframe.and_keeps hkeeps).mono fun y' u' ⟨hy', hu'⟩ => .bind ?_)
  rw [show s.outAddr + 32 + 32 * f = s.outAddr + 32 * (f + 1) by omega]
  exact (storeFrame_runs hf ho hy' (hu.trans_within hu')).mono fun _ _ ht => .pure ⟨hy', ht.2⟩

theorem historyAfter_samples16 (hh : Samples16 hist) (f : Nat) : Samples16 (s.historyAfter twobit hist f) := by
  cases f with
  | zero => exact hh
  | succ f => exact twoPasses_samples16 _ _ _ _

/-- After f of n frames: the first history and the frames so far stand in the output, the last of them is the history
now, and nothing else changed. -/
structure Decoded (s : State) (twobit : Bool) (n : Nat) (hist : List Int) (f : Nat) (y : List Int) (u : State) : Prop where
  inOutput : InOutput n s u
  last : y = s.historyAfter twobit hist f
  samples : ∀ g, g ≤ f → ∀ i, i < 16 → u.sample (s.outAddr + 32 * g + 2 * i) = nth (s.historyAfter twobit hist g) i

/-- The samples of frame f, stored after those before it, which they do not meet. -/
theorem Decoded.succ {f : Nat} {y : List Int} {u t : State} (h : Decoded s twobit n hist f y u) (hf : f < n)
    (hn : 32 + 32 * n ≤ 65536) (ho : s.outAddr % 2 = 0)
    (hs : Stored (s.outAddr + 32 * (f + 1)) 16 (s.historyAfter twobit hist (f + 1)) u t) (ht : InOutput n s t) :
    Decoded s twobit n hist (f + 1) (s.historyAfter twobit hist (f + 1)) t where
  inOutput := ht
  last := rfl
  samples g hg i hi := by
    rcases Nat.le_succ_iff.1 hg with hle | rfl
    · rw [hs.outside _ (by omega) fun j hj => by omega]
      exact h.samples g hle i hi
    · exact hs.inside i hi

/-- With input and output apart and every selected block below 8, the frames decode to `historyAfter`. -/
theorem decodeFrames_decodes (ho : s.outAddr % 2 = 0) (hn : 32 + 32 * n ≤ 65536) (hh : Samples16 hist)
    (ha : apart s.inpAddr (frameBytes twobit * n) s.outAddr (32 + 32 * n))
    (hready : ∀ f, f < n → frameIndex (s.frameHeader twobit f) < 8 ∧ FrameReady s twobit f) {v : State}
    (hv : Decoded s twobit n hist 0 hist v) :
    Runs (decodeFrames twobit s.inpAddr s.outAddr n hist) v (Decoded s twobit n hist n) := by
  refine Runs.loopFrom (Decoded s twobit n hist) hv fun f y u hf hu => ?_
  obtain ⟨hlt, hfr⟩ := hready f hf
  have hframe := decodeFrame_of_lt ((hu.inOutput.frameReady ha hf).2 hfr)
    (hu.last ▸ historyAfter_samples16 hh f) (hu.inOutput.frameHeader ha hf ▸ hlt)
  rw [hu.inOutput.inpAddr, hu.inOutput.frameSamples ha hf, hu.last] at hframe
  rw [hu.last]
  refine .bind (.of_eq hframe (.bind ?_))
  rw [show s.outAddr + 32 + 32 * f = s.outAddr + 32 * (f + 1) by omega]
  exact (storeFrame_runs hf ho (historyAfter_samples16 hh (f + 1)) hu.inOutput).mono fun _ _ ht =>
    .pure (hu.succ hf hn ho ht.1 ht.2)

end

/-- An output apart from an input that is not empty is shorter than scratch. -/
theorem output_le_of_apart {b1 n1 b2 n2 : Nat} (h : apart b1 n1 b2 n2) (hn : 0 < n1) : n2 ≤ 65535 := by
  by_contra hlong
  have hin : inScratch b1 n1 (b1 % 65536) := inScratch_offset (i := 0) hn
  exact h (b1 % 65536) (Nat.mod_lt _ (by decide)) ⟨hin, Nat.lt_of_lt_of_le (Nat.mod_lt _ (by decide)) (by omega)⟩

/-! ## The history at the start (R208) -/

theorem historyStart_samples16 (s : State) (init loopFlag : Bool) (lfa : Nat) :
    Samples16 (s.historyStart init loopFlag lfa) := by
  unfold State.historyStart
  split
  · exact fun x hx => by rw [List.eq_of_mem_replicate hx]; decide
  · exact .map fun _ => half_toInt_bounds _

theorem readHistory_of_loadable {s : State} {src : Nat} (h : loadable s src 32) :
    readHistory src s = .ok ((List.range 16).map fun i => (s.mmHalf (src + 2 * i)).toInt) s := by
  obtain ⟨halign, hrange⟩ := h
  exact (bind_of_ok (checkAlign_ok_iff.2 ⟨halign, rfl⟩)).trans
    (collect_of_ok fun i hi => bind_of_ok (memRead16_of_le (by omega)))

theorem loadHistory_of_loadable {s : State} {init loopFlag : Bool} {lfa : Nat} (hlfa : loadable s lfa 32)
    (hloop : init = false → loopFlag = true → s.eng.loop.written = true ∧ loadable s s.eng.loop.value.toNat 32) :
    loadHistory init loopFlag lfa s = .ok (s.historyStart init loopFlag lfa) s := by
  cases init with
  | true => rfl
  | false =>
    cases loopFlag with
    | false => exact readHistory_of_loadable hlfa
    | true =>
      obtain ⟨hwritten, hload⟩ := hloop rfl rfl
      exact (bind_of_ok (readReg_written hwritten)).trans (readHistory_of_loadable hload)

/-! ## The write-back (R210) -/

/-- Two bytes of a block that is open to stores. -/
theorem memWrite16_of_openToStores {a n b : Nat} {t : State} (h : OpenToStores a n t) (h1 : a ≤ b) (h2 : b + 2 ≤ a + n)
    (v : Half) : memWrite16 b v t = .ok () (mmPoke16 t b v) := by
  have hlast := (h (b + 1) ⟨by omega, by omega⟩).1
  have hopen : Unlisted t b 2 := (unlisted_iff (by decide)).2 fun c hc1 hc2 => (h c ⟨by omega, by omega⟩).2
  exact memWrite16_ok_iff.2 ⟨⟨by omega, hopen⟩, rfl⟩

/-- From u to t the first n halves were stored from a up, and neither scratch nor the control part changed. -/
structure WroteHalves (a : Nat) (f : Nat → Half) (n : Nat) (u t : State) : Prop where
  control : SameControl u t
  sm : t.sm = u.sm
  halves : ∀ i, i < n → t.mmHalf (a + 2 * i) = f i

theorem WroteHalves.succ {a n : Nat} {f : Nat → Half} {u t : State} (h : WroteHalves a f n u t) :
    WroteHalves a f (n + 1) u (mmPoke16 t (a + 2 * n) (f n)) where
  control := h.control.trans ⟨rfl, rfl, rfl, rfl, rfl, rfl⟩
  sm := h.sm
  halves i hi := by
    rcases Nat.lt_succ_iff_lt_or_eq.1 hi with hlt | rfl
    · rw [mmHalf_mmPoke16 _ _ (by omega)]
      exact h.halves i hlt
    · exact mmHalf_mmPoke16_self _ _ _

theorem memWrite16s_runs {a n : Nat} {u : State} (h : OpenToStores a (2 * n) u) (f : Nat → Half) :
    Runs (loop n fun i => memWrite16 (a + 2 * i) (f i)) u fun _ t => WroteHalves a f n u t :=
  .loop (fun i t => WroteHalves a f i u t) ⟨.refl u, rfl, nofun⟩ fun i t hi ht =>
    .of_eq (memWrite16_of_openToStores ((OpenToStores.congr ht.control).2 h) (by omega) (by omega) _) ht.succ

theorem sample_of_sm {t u : State} (h : t.sm = u.sm) (b : Nat) : t.sample b = u.sample b := by
  unfold State.sample State.scratch
  rw [h]

/-! ## The whole command (R211) -/

/-- ADPCM between the load of the history and the write-back. -/
def adpcmBody (s : State) (init loopFlag twobit : Bool) (a : Nat) : Act (List Int) := do
  storeSamples s.outAddr (s.historyStart init loopFlag a)
  decodeFrames twobit s.inpAddr s.outAddr (frameCount s.eng.count.value) (s.historyStart init loopFlag a)

theorem keeps_adpcmBody_control (s : State) (init loopFlag twobit : Bool) (a : Nat) :
    Keeps SameControl (adpcmBody s init loopFlag twobit a) :=
  (Keeps.bind (framing_same (fun _ => True) fun _ => True) (keeps_storeSamples _ fun _ _ => trivial) fun _ =>
    keeps_decodeFrames _ _ fun _ _ => trivial).control

theorem openToStores_of_storable {s : State} {a n : Nat} (h : storable s a n) : OpenToStores a n s := by
  obtain ⟨-, hrange, hunread⟩ := h
  exact fun b hb => ⟨Nat.lt_of_lt_of_le hb.2 hrange, hunread b hb⟩

section
variable {s : State} {init loopFlag twobit : Bool} {lfa : Word}
  (hready : Ready (.adpcm init loopFlag twobit lfa) s) (hstore : storable s (s.resolved lfa) 32)
  (hloop : init = false → loopFlag = true → loadable s s.eng.loop.value.toNat 32)
include hready hstore hloop

/-- Where the setup is there and the body ends, ADPCM ends: scratch is as the body leaves it, and lfa holds its last
samples. -/
theorem exec_adpcm_of_body {Q : List Int → State → Prop}
    (hbody : Runs (adpcmBody s init loopFlag twobit (s.resolved lfa)) s Q) :
    ∃ t, exec (.adpcm init loopFlag twobit lfa) s = .next t ∧ ∃ y u, Q y u ∧ t.sm = u.sm ∧
      ∀ i, i < 16 → t.mmHalf (s.resolved lfa + 2 * i) = lo16 (nth y i) := by
  have hwritten (r : RegName) (hr : r ∈ setupOf (.adpcm init loopFlag twobit lfa)) := hready r hr
  have hinp := hwritten .inp (by simp [setupOf])
  have hout := hwritten .out (by simp [setupOf])
  have hcount := hwritten .count (by simp [setupOf])
  have hhist := loadHistory_of_loadable (init := init) (loopFlag := loopFlag) ⟨hstore.1, hstore.2.1⟩
    fun h1 h2 => ⟨hwritten .loop (by simp [setupOf, h1, h2]), hloop h1 h2⟩
  refine Runs.next (Q := fun t => ∃ y u, Q y u ∧ t.sm = u.sm ∧ _) ?_
  refine .bind (.of_eq (blockBase_ok_iff.2 ⟨rfl, hstore.1, rfl⟩) ?_)
  refine .bind (.of_eq (readReg_written hinp) ?_)
  refine .bind (.of_eq (readReg_written hout) ?_)
  refine .bind (.of_eq (readReg_written hcount) ?_)
  refine .bind (.of_eq hhist ?_)
  rw [← act_bind_assoc]
  refine .bind ((hbody.and_keeps (keeps_adpcmBody_control s init loopFlag twobit _)).mono fun y u ⟨hy, hu⟩ => ?_)
  have hopen := (OpenToStores.congr hu).2 (openToStores_of_storable hstore)
  exact (memWrite16s_runs hopen fun i => lo16 (nth y i)).mono fun _ t ht => ⟨y, u, hy, ht.sm, ht.halves⟩

variable (ho : s.outAddr % 2 = 0)
include ho

/-- ADPCM ends where every frame is ready wherever only the output has changed. -/
theorem exec_adpcm_ends
    (hframes : ∀ f, f < frameCount s.eng.count.value → ∀ u, InOutput (frameCount s.eng.count.value) s u →
      FrameReady u twobit f) :
    ∃ t, exec (.adpcm init loopFlag twobit lfa) s = .next t := by
  have hh := historyStart_samples16 s init loopFlag (s.resolved lfa)
  have hbody : Runs (adpcmBody s init loopFlag twobit (s.resolved lfa)) s fun _ _ => True :=
    .bind ((storeFrame_runs (Nat.zero_le _) ho hh (.refl _ s)).mono fun _ u hu =>
      decodeFrames_runs ho hh hframes hu.2)
  obtain ⟨t, ht, -⟩ := exec_adpcm_of_body hready hstore hloop hbody
  exact ⟨t, ht⟩

/-- ADPCM decodes: block g of the output and the block at lfa hold the histories after g and after all frames. -/
theorem exec_adpcm_decodes
    (ha : apart s.inpAddr (frameBytes twobit * frameCount s.eng.count.value) s.outAddr
      (32 + 32 * frameCount s.eng.count.value))
    (hframes : ∀ f, f < frameCount s.eng.count.value →
      frameIndex (s.frameHeader twobit f) < 8 ∧ FrameReady s twobit f) :
    ∃ t, exec (.adpcm init loopFlag twobit lfa) s = .next t ∧
      (∀ g, g ≤ frameCount s.eng.count.value → ∀ i, i < 16 → t.sample (s.outAddr + 32 * g + 2 * i)
        = nth (s.historyAfter twobit (s.historyStart init loopFlag (s.resolved lfa)) g) i) ∧
      ∀ i, i < 16 → t.mmHalf (s.resolved lfa + 2 * i)
        = lo16 (nth (s.historyAfter twobit (s.historyStart init loopFlag (s.resolved lfa))
            (frameCount s.eng.count.value)) i) := by
  have hh := historyStart_samples16 s init loopFlag (s.resolved lfa)
  have hn : 32 + 32 * frameCount s.eng.count.value ≤ 65536 := by
    obtain hzero | hpos := Nat.eq_zero_or_pos (frameCount s.eng.count.value)
    · omega
    · have := output_le_of_apart ha (Nat.mul_pos (Nat.succ_pos _) hpos)
      omega
  have hbody : Runs (adpcmBody s init loopFlag twobit (s.resolved lfa)) s (Decoded s twobit _ _ _) :=
    .bind ((storeFrame_runs (Nat.zero_le _) ho hh (.refl _ s)).mono fun _ u hu =>
      decodeFrames_decodes ho hn hh ha hframes
        ⟨hu.2, rfl, fun g hg i hi => by obtain rfl := Nat.le_zero.1 hg; exact hu.1.inside i hi⟩)
  obtain ⟨t, ht, y, u, hy, hsm, hhalves⟩ := exec_adpcm_of_body hready hstore hloop hbody
  refine ⟨t, ht, fun g hg i hi => ?_, fun i hi => hy.last ▸ hhalves i hi⟩
  rw [sample_of_sm hsm]
  exact hy.samples g hg i hi

end

/-- Settles O41: block 0 of the output is the history after no frame, and the samples of frame f are the history
after f + 1 frames. -/
theorem adpcmDecodesItsFrames : Obligations.AdpcmDecodesItsFrames := by
  intro s init loopFlag twobit lfa a n hist hready hstore hloop ho ha hframes
  obtain ⟨t, ht, hsamples, hhalves⟩ := exec_adpcm_decodes hready hstore hloop ho ha hframes
  refine ⟨t, ht, hsamples 0 (Nat.zero_le _), fun f i hf hi => ?_, hhalves⟩
  rw [show s.outAddr + 32 + 32 * f = s.outAddr + 32 * (f + 1) by omega]
  exact hsamples (f + 1) hf i hi

/-- Settles O40: with no frames, O41's argument gives the history's two copies; otherwise every frame is ready, because all
blocks are or because the output never meets the input. -/
theorem adpcmCompletes : Obligations.AdpcmCompletes := by
  intro s init loopFlag twobit lfa a n hready hstore hloop ho hblocks
  obtain hzero | hpos := Nat.eq_zero_or_pos n
  · have hno (f : Nat) (hf : f < n) : frameIndex (s.frameHeader twobit f) < 8 ∧ FrameReady s twobit f := by omega
    have ha : apart s.inpAddr (frameBytes twobit * n) s.outAddr (32 + 32 * n) := fun b _ hb =>
      inScratch_zero s.inpAddr b (by simpa [hzero] using hb.1)
    obtain ⟨t, ht, hsamples, hhalves⟩ := exec_adpcm_decodes hready hstore hloop ho ha hno
    refine ⟨t, ht, fun _ i hi => ⟨hsamples 0 (Nat.zero_le _) i hi, ?_⟩⟩
    have hlast := hhalves i hi
    rwa [show frameCount s.eng.count.value = 0 from hzero] at hlast
  · have hframes (f : Nat) (hf : f < n) (u : State) (hu : InOutput n s u) : FrameReady u twobit f := by
      obtain hall | ⟨ha, hsel⟩ := hblocks
      · obtain ⟨hw, hfits⟩ := hall (frameIndex (u.frameHeader twobit f)) (BitVec.isLt _)
        exact ⟨hu.blockWritten.2 hw, hu.blockFits.2 hfits⟩
      · exact (hu.frameReady ha hf).2 (hsel f hf)
    obtain ⟨t, ht⟩ := exec_adpcm_ends hready hstore hloop ho hframes
    exact ⟨t, ht, fun h0 => by omega⟩

/-! ## Zero blocks (R212) -/

/-- A pass over zero vectors gives its residuals back. -/
theorem passSamples_zero {book1 book2 r : List Int} (h1 : ∀ k, nth book1 k = 0) (h2 : ∀ k, nth book2 k = 0)
    (hr : Samples16 r) (hlen : r.length = 8) (l1 l2 : Int) : passSamples book1 book2 r l1 l2 = r := by
  refine List.ext_getElem hlen.symm fun i hi hri => ?_
  rw [← nth_of_lt hi, ← nth_of_lt hri]
  obtain ⟨hlow, hhigh⟩ := hr.nth i
  have hsum : predictSum book1 book2 r l1 l2 i = nth r i * 2048 := by simp [predictSum_eq, h1, h2]
  have hfits : fitsS32 (nth r i * 2048) = true := by
    simp only [fitsS32, decide_eq_true_eq]
    omega
  have hshift : asr (nth r i * 2048) 11 = nth r i := Int.mul_ediv_cancel _ (by decide)
  rw [nth_passSamples _ _ _ _ _ hi, hsum, wrapS32_of_fits hfits, hshift, clamp16_of_bounds hlow hhigh]

theorem twoPasses_zero {book1 book2 r : List Int} (h1 : ∀ k, nth book1 k = 0) (h2 : ∀ k, nth book2 k = 0)
    (hr : Samples16 r) (hlen : r.length = 16) (hist : List Int) : twoPasses book1 book2 r hist = r := by
  have hfirst := passSamples_zero h1 h2 (hr.take 8) (by simp [hlen])
  have hsecond := passSamples_zero h1 h2 (hr.drop 8) (by simp [hlen])
  simp only [twoPasses, hfirst, hsecond, List.take_append_drop]

theorem length_residualsOf (s : State) (twobit : Bool) (f : Nat) : (s.residualsOf twobit f).length = 16 :=
  length_frameResiduals _ (by simp)

section
variable {s : State} {idx : Nat} (hzero : ∀ k, k < 16 → s.codebookAt (16 * idx + k) = 0)
include hzero

/-- A block of zeros that exists fits, in either overflow mode. -/
theorem blockFits_of_zero (hi : idx < 8) : s.blockFits idx := by
  refine .inr ⟨hi, fun j hj1 hj2 => ?_⟩
  rw [show j = 16 * idx + (j - 16 * idx) by omega, hzero _ (by omega)]
  decide

theorem nth_book1_of_zero (k : Nat) : nth (s.book1 idx) k = 0 :=
  nth_of_forall_lt (p := (· = 0)) (length_book1 s idx) rfl
    (fun k hk => (nth_book1 s idx hk).trans (hzero k (by omega))) k

theorem nth_book2_of_zero (k : Nat) : nth (s.book2 idx) k = 0 :=
  nth_of_forall_lt (p := (· = 0)) (length_book2 s idx) rfl
    (fun k hk => (nth_book2 s idx hk).trans (Nat.add_assoc _ 8 k ▸ hzero (8 + k) (by omega))) k

end

/-- Settles O42: O41 at blocks of zeros, whose passes give the residuals back. -/
theorem zeroCodebookGivesTheResiduals : Obligations.ZeroCodebookGivesTheResiduals := by
  intro s init loopFlag twobit lfa n hready hstore hloop ho ha hframes
  obtain ⟨t, ht, -, hsamples, -⟩ := adpcmDecodesItsFrames s init loopFlag twobit lfa hready hstore hloop ho ha
    fun f hf => by
      obtain ⟨hi, hw, hzero⟩ := hframes f hf
      exact ⟨hi, hw, blockFits_of_zero hzero hi⟩
  refine ⟨t, ht, fun f i hf hi => ?_⟩
  obtain ⟨-, -, hzero⟩ := hframes f hf
  rw [hsamples f i hf hi, frameSamples_eq, twoPasses_zero (nth_book1_of_zero hzero) (nth_book2_of_zero hzero)
    (residualsOf_samples16 s twobit f) (length_residualsOf s twobit f)]

end Sys2Proof.Machine
end

section
/-! SUPPORT. Saturated accumulation into channel buffers, which the three envelope mixers share (42_envmixer.md R240, R244,
R252): the state after one sample and after many, and what the samples are when the buffers are apart. -/

namespace Sys2Proof.Machine

/-! ## One sample of one channel (R244) -/

/-- The state after a saturated accumulation at an even address. -/
def State.added (s : State) (a : Nat) (v : Int) : State := poke16 s a (clamp16 (s.sample a + v))

theorem accumulate_even {a : Nat} (h : a % 2 = 0) (v : Int) (s : State) : accumulate a v s = .ok () (s.added a v) := by
  unfold accumulate
  rw [bind_of_ok (d16_even h s), d16w_even h]
  rfl

theorem mix_even {b p : Nat} (h : b % 2 = 0) (g x : Int) (s : State) :
    mix b g p x s = .ok () (s.added (b + 2 * p) (contribution x g)) := accumulate_even (by omega) _ s

theorem sample_added (s : State) {a b : Nat} (ha : a % 2 = 0) (hb : b % 2 = 0) (v : Int) :
    (s.added a v).sample b = if b % 65536 = a % 65536 then clamp16 (s.sample b + v) else s.sample b := by
  unfold State.added
  rw [sample_poke16 _ ha hb, toS16_clamp16]
  split
  · next h => rw [sample_congr s h]
  · rfl

/-! ## One sample of every channel -/

/-- A channel of a mixer: its buffer, and what it adds at sample p for an input sample (R240). -/
structure Channel where
  base : Nat
  adds : Nat → Int → Int

/-- The state after sample p, with input x, is mixed into the channels in order. -/
def State.mixedOnce (s : State) (p : Nat) (x : Int) : List Channel → State
  | [] => s
  | c :: cs => (s.added (c.base + 2 * p) (c.adds p x)).mixedOnce p x cs

/-- A sample that no channel's buffer has at p. -/
theorem sample_mixedOnce_of_ne {p b : Nat} {cs : List Channel} (s : State) (x : Int) (heven : ∀ c ∈ cs, c.base % 2 = 0)
    (hb : b % 2 = 0) (hne : ∀ c ∈ cs, b % 65536 ≠ (c.base + 2 * p) % 65536) :
    (s.mixedOnce p x cs).sample b = s.sample b := by
  induction cs generalizing s with
  | nil => rfl
  | cons c cs ih =>
    have hc := heven c (by simp)
    rw [State.mixedOnce, ih _ (fun d hd => heven d (by simp [hd])) fun d hd => hne d (by simp [hd]),
      sample_added _ (by omega) hb, if_neg (hne c (by simp))]

/-- A channel's own sample, where no two channels meet at p. -/
theorem sample_mixedOnce_of_mem {p : Nat} {cs : List Channel} {c : Channel} (s : State) (x : Int)
    (heven : ∀ c ∈ cs, c.base % 2 = 0)
    (hdistinct : cs.Pairwise fun c d => (c.base + 2 * p) % 65536 ≠ (d.base + 2 * p) % 65536) (hc : c ∈ cs) :
    (s.mixedOnce p x cs).sample (c.base + 2 * p) = clamp16 (s.sample (c.base + 2 * p) + c.adds p x) := by
  induction cs generalizing s with
  | nil => cases hc
  | cons d cs ih =>
    obtain ⟨hd, hrest⟩ := List.pairwise_cons.1 hdistinct
    have hde := heven d (by simp)
    have hce := heven c hc
    have hevens : ∀ c ∈ cs, c.base % 2 = 0 := fun e he => heven e (by simp [he])
    rw [State.mixedOnce]
    rcases List.mem_cons.1 hc with rfl | hc
    · rw [sample_mixedOnce_of_ne _ _ hevens (by omega) hd, sample_added _ (by omega) (by omega), if_pos rfl]
    · rw [ih _ hevens hrest hc, sample_added _ (by omega) (by omega), if_neg (hd c hc).symm]

/-! ## Many samples -/

/-- The state after samples 0 to n-1 of the input at `inp` are mixed into the channels, in order. -/
def State.mixed (s : State) (inp : Nat) (cs : List Channel) : Nat → State
  | 0 => s
  | n + 1 => (s.mixed inp cs n).mixedOnce n ((s.mixed inp cs n).sample (inp + 2 * n)) cs

theorem mixedOnce_smAlone (s : State) (p : Nat) (x : Int) (cs : List Channel) :
    s.mixedOnce p x cs = { s with sm := (s.mixedOnce p x cs).sm } := by
  induction cs generalizing s with
  | nil => rfl
  | cons c cs ih => exact ih (s.added (c.base + 2 * p) (c.adds p x))

theorem mixed_smAlone (s : State) (inp : Nat) (cs : List Channel) (n : Nat) :
    s.mixed inp cs n = { s with sm := (s.mixed inp cs n).sm } := by
  induction n with
  | zero => rfl
  | succ n ih =>
    rw [State.mixed, mixedOnce_smAlone, ih]

/-- Samples of buffers that are apart lie at different addresses. -/
theorem ne_of_apart {b c n p q : Nat} (h : apart b (2 * n) c (2 * n)) (hp : p < n) (hq : q < n) :
    (b + 2 * p) % 65536 ≠ (c + 2 * q) % 65536 := fun heq =>
  h ((b + 2 * p) % 65536) (Nat.mod_lt _ (by decide))
    ⟨inScratch_offset (by omega), heq ▸ inScratch_offset (by omega)⟩

/-- From s to u samples 0 to k-1 of n were mixed: the channels hold their sums there and their old samples beyond, and the
input is as it was. -/
structure Mixed (inp : Nat) (cs : List Channel) (n k : Nat) (s u : State) : Prop where
  input : ∀ p, p < n → u.sample (inp + 2 * p) = s.sample (inp + 2 * p)
  done : ∀ c ∈ cs, ∀ p, p < k →
    u.sample (c.base + 2 * p) = clamp16 (s.sample (c.base + 2 * p) + c.adds p (s.sample (inp + 2 * p)))
  todo : ∀ c ∈ cs, ∀ p, k ≤ p → p < n → u.sample (c.base + 2 * p) = s.sample (c.base + 2 * p)

section
variable {inp n : Nat} {cs : List Channel} (hn : n ≤ 32768) (hinp : inp % 2 = 0) (heven : ∀ c ∈ cs, c.base % 2 = 0)
  (hapart : (inp :: cs.map (·.base)).Pairwise fun b c => apart b (2 * n) c (2 * n))
include hn hapart

/-- Different samples of channel buffers lie at different addresses. -/
theorem channels_ne {c d : Channel} (hc : c ∈ cs) (hd : d ∈ cs) {p q : Nat} (hp : p < n) (hq : q < n) (hpq : p ≠ q) :
    (c.base + 2 * p) % 65536 ≠ (d.base + 2 * q) % 65536 := by
  have hcs := List.pairwise_map.1 (List.pairwise_cons.1 hapart).2
  by_cases hcd : c = d
  · rw [hcd]
    omega
  · have hsymm : Std.Symm fun c d : Channel => apart c.base (2 * n) d.base (2 * n) := ⟨fun _ _ => apart_symm⟩
    exact ne_of_apart (hcs.forall hc hd hcd) hp hq

include hinp heven

theorem Mixed.succ {k : Nat} {s u : State} (hk : k < n) (h : Mixed inp cs n k s u) :
    Mixed inp cs n (k + 1) s (u.mixedOnce k (u.sample (inp + 2 * k)) cs) := by
  obtain ⟨hin, hcs⟩ := List.pairwise_cons.1 hapart
  have hother {c : Channel} (hc : c ∈ cs) {p : Nat} (hp : p < n) (hpk : p ≠ k) :
      (u.mixedOnce k (u.sample (inp + 2 * k)) cs).sample (c.base + 2 * p) = u.sample (c.base + 2 * p) :=
    sample_mixedOnce_of_ne _ _ heven (by have := heven c hc; omega) fun d hd => channels_ne hn hapart hc hd hp hk hpk
  refine ⟨fun p hp => ?_, fun c hc p hp => ?_, fun c hc p hkp hp => ?_⟩
  · rw [sample_mixedOnce_of_ne _ _ heven (by omega) fun c hc =>
      ne_of_apart (hin c.base (List.mem_map_of_mem hc)) hp hk]
    exact h.input p hp
  · rcases Nat.lt_succ_iff_lt_or_eq.1 hp with hlt | rfl
    · rw [hother hc (by omega) (by omega)]
      exact h.done c hc p hlt
    · have hdistinct := (List.pairwise_map.1 hcs).imp fun had => ne_of_apart had hk hk
      rw [sample_mixedOnce_of_mem _ _ heven hdistinct hc, h.todo c hc p (Nat.le_refl p) hk, h.input p hk]
  · rw [hother hc hp (by omega)]
    exact h.todo c hc p (by omega) hp

/-- With the buffers apart, every channel holds its old sample plus what it adds, clamped. -/
theorem mixed_mixed (s : State) {k : Nat} (hk : k ≤ n) : Mixed inp cs n k s (s.mixed inp cs k) := by
  induction k with
  | zero => exact ⟨fun _ _ => rfl, nofun, fun _ _ _ _ _ => rfl⟩
  | succ k ih => exact (ih (by omega)).succ hn hinp heven hapart hk

end

end Sys2Proof.Machine
end

section
/-! SUPPORT. Ramps, gains and one sample of the exponential and linear mixers (42_envmixer.md R240 to R244), and what these
mixers leave unchanged (R245, R246, R248, R249). -/

namespace Sys2Proof.Machine

/-! ## Ramps (R242) -/

/-- `acc32` ends exactly with the low 32 bits of a sum that does not end the run. -/
theorem acc32_ok_iff_accOk {s t : State} {v r : Int} : acc32 v s = .ok r t ↔ AccOk s v ∧ r = wrapS32 v ∧ t = s := by
  by_cases h : AccOk s v
  · rw [acc32_of_accOk h]
    simp [h, eq_comm]
  · rw [acc32_of_not_accOk h]
    simp [h]

/-- A ramp after one sample more. -/
def Ramp.next (r : Ramp) : Ramp := r.settle (wrapS32 (r.value + r.step))

@[simp] theorem Ramp.after_zero (r : Ramp) : r.after 0 = r := rfl

theorem Ramp.after_succ (r : Ramp) (n : Nat) : r.after (n + 1) = (r.after n).next := rfl

theorem rampStep_ok_iff {r r' : Ramp} {s t : State} :
    rampStep r s = .ok r' t ↔ AccOk s (r.value + r.step) ∧ r' = r.next ∧ t = s := by
  unfold rampStep
  rw [bind_ok_iff]
  constructor
  · rintro ⟨v, u, hacc, hpure⟩
    obtain ⟨hok, rfl, rfl⟩ := acc32_ok_iff_accOk.1 hacc
    obtain ⟨rfl, rfl⟩ := pure_ok_iff.1 hpure
    exact ⟨hok, rfl, rfl⟩
  · rintro ⟨hok, rfl, rfl⟩
    exact ⟨_, t, acc32_of_accOk hok, rfl⟩

theorem rampStep_of_accOk {r : Ramp} {s : State} (h : AccOk s (r.value + r.step)) : rampStep r s = .ok r.next s :=
  rampStep_ok_iff.2 ⟨h, rfl, rfl⟩

/-- The new value reaches the target, from the side the step comes from (R242). -/
def Ramp.reaches (r : Ramp) (v : Int) : Prop := (r.step ≤ 0 ∧ v ≤ r.target) ∨ (0 < r.step ∧ r.target ≤ v)

theorem Ramp.settle_of_reaches {r : Ramp} {v : Int} (h : r.reaches v) : r.settle v = ⟨r.target, r.target, 0⟩ := by
  unfold Ramp.settle
  refine if_pos ?_
  obtain ⟨hstep, hv⟩ | ⟨hstep, hv⟩ := h
  · rwa [if_pos hstep]
  · rwa [if_neg (by omega)]

theorem Ramp.settle_of_not_reaches {r : Ramp} {v : Int} (h : ¬ r.reaches v) : r.settle v = ⟨v, r.target, r.step⟩ := by
  unfold Ramp.settle
  refine if_neg fun hreach => h ?_
  by_cases hstep : r.step ≤ 0
  · rw [if_pos hstep] at hreach
    exact .inl ⟨hstep, hreach⟩
  · rw [if_neg hstep] at hreach
    exact .inr ⟨by omega, hreach⟩

/-- A ramp at its target with step 0, or moved to the new value. -/
theorem Ramp.settle_cases (r : Ramp) (v : Int) :
    (r.reaches v ∧ r.settle v = ⟨r.target, r.target, 0⟩) ∨ (¬ r.reaches v ∧ r.settle v = ⟨v, r.target, r.step⟩) := by
  by_cases h : r.reaches v
  · exact .inl ⟨h, r.settle_of_reaches h⟩
  · exact .inr ⟨h, r.settle_of_not_reaches h⟩

/-- The gain of a 32-bit value is its upper 16 bits (R242). -/
theorem Ramp.gain_bounds {r : Ramp} (h1 : -2147483648 ≤ r.value) (h2 : r.value ≤ 2147483647) :
    r.gain * 65536 ≤ r.value ∧ r.value < r.gain * 65536 + 65536 ∧ -32768 ≤ r.gain ∧ r.gain ≤ 32767 := by
  have hgain : r.gain = r.value / 65536 := rfl
  omega

/-- Settles O44: a step settles on the low 32 bits of its sum, which lie in range as the target does. -/
theorem rampStepFollowsItsRule : Obligations.RampStepFollowsItsRule := by
  intro r s v
  refine ⟨fun hbad => bind_of_error (acc32_of_not_accOk hbad), fun hok => ?_, fun hlow hhigh t u ht => ?_⟩
  · rw [rampStep_of_accOk hok, Ramp.next]
    refine ⟨fun h1 h2 => ?_, fun h1 h2 => ?_, fun h1 h2 => ?_, fun h1 h2 => ?_⟩
    · rw [Ramp.settle_of_reaches (.inl ⟨h1, h2⟩)]
    · rw [Ramp.settle_of_not_reaches (by unfold Ramp.reaches; omega)]
    · rw [Ramp.settle_of_reaches (.inr ⟨h1, h2⟩)]
    · rw [Ramp.settle_of_not_reaches (by unfold Ramp.reaches; omega)]
  · obtain ⟨-, rfl, -⟩ := rampStep_ok_iff.1 ht
    obtain ⟨hv1, hv2⟩ := wrapS32_bounds (r.value + r.step)
    have hvalue : r.next.value = r.target ∨ r.next.value = v := by
      obtain ⟨-, hs⟩ | ⟨-, hs⟩ := r.settle_cases v <;> simp [Ramp.next, v, hs]
    exact Ramp.gain_bounds (by omega) (by omega)

/-! ## Channel gains (R243) -/

/-- Only -32768 times -32768 gives a product above 32768 times 32767, and none lies below -32768 times 32767. -/
theorem gain_mul_bounds {g c : Int} (hg1 : -32768 ≤ g) (hg2 : g ≤ 32767) (hc1 : -32768 ≤ c) (hc2 : c ≤ 32767)
    (hne : g ≠ -32768 ∨ c ≠ -32768) : -1073709056 ≤ g * c ∧ g * c ≤ 1073709056 := by
  obtain hg | hc := hne
  · have : -32767 ≤ g := by omega
    constructor <;> nlinarith
  · have : -32767 ≤ c := by omega
    constructor <;> nlinarith

/-- Settles O45: the rounded product of any other pair lies in the signed 16-bit range. -/
theorem channelGainClampsInOneCase : Obligations.ChannelGainClampsInOneCase := by
  intro g c hg1 hg2 hc1 hc2
  refine ⟨fun hne => ?_, by decide⟩
  obtain ⟨hlow, hhigh⟩ := gain_mul_bounds hg1 hg2 hc1 hc2 hne
  have hround : asr (g * c + 0x4000) 15 = (g * c + 16384) / 32768 := rfl
  unfold channelGain
  rw [hround]
  exact clamp16_of_bounds (by omega) (by omega)

/-! ## One sample (R244) -/

/-- The channel buffers of a mixer, in order (R240). -/
def MixBufs.bases (b : MixBufs) : List Nat :=
  [b.dl, b.dr] ++ match b.wets with
    | none => []
    | some (wl, wr) => [wl, wr]

/-- The channels of a mixer with the two ramps' gains at each sample (R243, R244). -/
def MixBufs.channels (b : MixBufs) (dry wet : Int) (lv rv : Nat → Int) : List Channel :=
  [⟨b.dl, fun p x => contribution x (channelGain (lv p) dry)⟩,
    ⟨b.dr, fun p x => contribution x (channelGain (rv p) dry)⟩] ++
  match b.wets with
  | none => []
  | some (wl, wr) =>
    [⟨wl, fun p x => contribution x (channelGain (lv p) wet)⟩,
      ⟨wr, fun p x => contribution x (channelGain (rv p) wet)⟩]

/-- No sample access of a mixer is odd. -/
def MixBufs.Even (b : MixBufs) : Prop := b.inp % 2 = 0 ∧ ∀ c ∈ b.bases, c % 2 = 0

theorem map_base_channels (b : MixBufs) (dry wet : Int) (lv rv : Nat → Int) :
    (b.channels dry wet lv rv).map (·.base) = b.bases := by
  obtain ⟨inp, dl, dr, _ | ⟨wl, wr⟩⟩ := b <;> rfl

/-- The state after sample p of a mixer. -/
theorem mixSample_even {b : MixBufs} (h : b.Even) (dry wet : Int) (lv rv : Nat → Int) (p : Nat) (s : State) :
    mixSample b dry wet p (lv p) (rv p) s
      = .ok () (s.mixedOnce p (s.sample (b.inp + 2 * p)) (b.channels dry wet lv rv)) := by
  obtain ⟨inp, dl, dr, wets⟩ := b
  obtain ⟨hinp, hbases⟩ := h
  have hinp : (inp + 2 * p) % 2 = 0 := by simp only at hinp; omega
  unfold mixSample
  rw [bind_of_ok (d16_even hinp s), bind_of_ok (mix_even (hbases dl (by simp [MixBufs.bases])) _ _ _),
    bind_of_ok (mix_even (hbases dr (by simp [MixBufs.bases])) _ _ _)]
  obtain _ | ⟨wl, wr⟩ := wets
  · rfl
  · refine (bind_of_ok (mix_even (hbases wl (by simp [MixBufs.bases])) _ _ _)).trans ?_
    rw [mix_even (hbases wr (by simp [MixBufs.bases]))]
    rfl

theorem mixerSample_even {b : MixBufs} (h : b.Even) {dry wet : Int} {lv rv : Nat → Int} {p : Nat} {l r : Ramp} {s : State}
    (hl : AccOk s (l.value + l.step)) (hr : AccOk s (r.value + r.step)) (hlv : lv p = l.next.gain)
    (hrv : rv p = r.next.gain) :
    mixerSample b dry wet p (l, r) s
      = .ok (l.next, r.next) (s.mixedOnce p (s.sample (b.inp + 2 * p)) (b.channels dry wet lv rv)) := by
  unfold mixerSample
  rw [bind_of_ok (rampStep_of_accOk hl), bind_of_ok (rampStep_of_accOk hr), ← hlv, ← hrv,
    bind_of_ok (mixSample_even h dry wet lv rv p s)]
  rfl

/-! ## Samples q to q + n - 1 -/

theorem accOk_mixed {s : State} {inp n : Nat} {cs : List Channel} {v : Int} :
    AccOk (s.mixed inp cs n) v ↔ AccOk s v := by
  rw [mixed_smAlone]
  rfl

/-- From sample q on, n samples of two ramps, whose gains at each sample are those of the channels. -/
theorem rampLoop_mixes {b : MixBufs} {dry wet : Int} {lv rv : Nat → Int} {q n : Nat} {l r : Ramp} {s : State}
    (h : n ≠ 0 → b.Even) (hl : l.ok s n) (hr : r.ok s n) (hlv : ∀ j, j < n → lv (q + j) = (l.after (j + 1)).gain)
    (hrv : ∀ j, j < n → rv (q + j) = (r.after (j + 1)).gain) :
    loopFrom n (l, r) (fun j rs => mixerSample b dry wet (q + j) rs) (s.mixed b.inp (b.channels dry wet lv rv) q)
      = .ok (l.after n, r.after n) (s.mixed b.inp (b.channels dry wet lv rv) (q + n)) := by
  induction n with
  | zero => rfl
  | succ n ih =>
    have hinit := ih (fun _ => h (by omega)) (fun p hp => hl p (by omega)) (fun p hp => hr p (by omega))
      (fun j hj => hlv j (by omega)) (fun j hj => hrv j (by omega))
    rw [loopFrom_succ, bind_of_ok hinit]
    exact mixerSample_even (h (by omega)) (accOk_mixed.2 (hl n (by omega))) (accOk_mixed.2 (hr n (by omega)))
      (hlv n (by omega)) (hrv n (by omega))

/-! ## What the mixers leave unchanged -/

theorem exec_envmixer (init aux : Bool) (block : Word) (s : State) :
    exec (.envmixer init aux block) s = runAct (envmixer init aux block) s := rfl

theorem exec_envmixerLin (init : Bool) (block : Word) (s : State) :
    exec (.envmixerLin init block) s = runAct (envmixerLin init block) s := rfl

/-- The frame of an ENVMIXER that ends. -/
theorem exec_envmixer_within {s t : State} {init aux : Bool} {block : Word}
    (h : exec (.envmixer init aux block) s = .next t) :
    Within EngSame (mixTouched (expBufs s aux) (8 * segmentCount s.eng.count.value)) (inMain (s.resolved block) 80) s t :=
  leaves_of_ok (runAct_next_iff.1 h) ▸ envmixer_within init aux block s

/-- The frame of an ENVMIXER_LIN that ends. -/
theorem exec_envmixerLin_within {s t : State} {init : Bool} {block : Word}
    (h : exec (.envmixerLin init block) s = .next t) :
    Within EngSame (mixTouched (linBufs s) (linCount s.eng.count.value)) (inMain (s.resolved block) 80) s t :=
  leaves_of_ok (runAct_next_iff.1 h) ▸ envmixerLin_within init block s

/-- Settles O46: the frames of the two mixers' pieces, at a run that ends. -/
theorem mixersFrame : Obligations.MixersFrame := by
  refine ⟨fun s t init aux block h => ?_, fun s t init block h => ?_⟩
  · have hk := exec_envmixer_within h
    exact ⟨hk.eng, hk.control, hk.scratch, hk.main⟩
  · have hk := exec_envmixerLin_within h
    exact ⟨hk.eng, hk.control, hk.scratch, hk.main⟩

end Sys2Proof.Machine
end

section
/-! SUPPORT. The samples of a mixer look at scratch and the parameters alone and change scratch alone (42_envmixer.md R242 to
R246), and buffers that are moved on are met at earlier sample numbers (R254, R255). -/

namespace Sys2Proof.Machine

variable {α β : Type}

/-! ## Pieces that change scratch alone -/

/-- Where x ends, it changed scratch alone, and it ends the same from any state with the same scratch and parameters. -/
def ScratchOnly (x : Act α) : Prop :=
  ∀ ⦃s t a⦄, x s = .ok a t → ∀ u : State, u.sm = s.sm → u.params = s.params → x u = .ok a { u with sm := t.sm }

/-- From the state itself. -/
theorem ScratchOnly.smAlone {x : Act α} (h : ScratchOnly x) {s t : State} {a : α} (hx : x s = .ok a t) :
    t = { s with sm := t.sm } := by
  have hself := h hx s rfl rfl
  rw [hx] at hself
  injection hself

/-- A piece that changes nothing and looks at the parameters alone. -/
theorem ScratchOnly.of_params {x : Act α} (hx : Silent x)
    (h : ∀ s u a, x s = .ok a s → u.params = s.params → x u = .ok a u) : ScratchOnly x := fun s t a hs u hsm hp => by
  obtain rfl := hx.of_ok hs
  rw [h _ u a hs hp, ← hsm]

theorem ScratchOnly.pure (a : α) : ScratchOnly (pure a : Act α) :=
  .of_params (Silent.pure a) fun _ _ _ h _ => by
    obtain ⟨rfl, -⟩ := pure_ok_iff.1 h
    rfl

theorem ScratchOnly.bind {x : Act α} {f : α → Act β} (hx : ScratchOnly x) (hf : ∀ a, ScratchOnly (f a)) :
    ScratchOnly (x >>= f) := fun s t b h u hsm hp => by
  obtain ⟨a, v, h1, h2⟩ := bind_ok_iff.1 h
  have hv : v.params = s.params := by rw [hx.smAlone h1]
  rw [bind_of_ok (hx h1 u hsm hp)]
  exact hf a h2 _ rfl (hp.trans hv.symm)

theorem ScratchOnly.loopFrom {n : Nat} {b : β} {f : Nat → β → Act β} (h : ∀ i c, ScratchOnly (f i c)) :
    ScratchOnly (loopFrom n b f) := by
  induction n with
  | zero => exact .pure b
  | succ n ih => exact ih.bind fun c => h n c

theorem scratchOnly_acc32 (v : Int) : ScratchOnly (acc32 v) :=
  .of_params (Silent.acc32 v) fun _ _ _ h hp => acc32_ok_iff.2 ⟨hp ▸ (acc32_ok_iff.1 h).1, rfl⟩

theorem scratchOnly_d16 (a : Nat) : ScratchOnly (d16 a) := fun s t v h u hsm _ => by
  obtain ⟨heven, rfl, rfl⟩ := d16_ok_iff.1 h
  rw [d16_even heven, sample_of_sm hsm, ← hsm]

theorem scratchOnly_d16w (a : Nat) (v : Int) : ScratchOnly (d16w a v) := fun s t x h u hsm _ => by
  obtain ⟨heven, rfl⟩ := d16w_ok_iff.1 h
  rw [d16w_even heven]
  unfold poke16 poke8
  rw [hsm]

theorem scratchOnly_mix (b : Nat) (g : Int) (p : Nat) (x : Int) : ScratchOnly (mix b g p x) :=
  (scratchOnly_d16 _).bind fun _ => scratchOnly_d16w _ _

theorem scratchOnly_mixSample (b : MixBufs) (dry wet : Int) (p : Nat) (lv rv : Int) :
    ScratchOnly (mixSample b dry wet p lv rv) := by
  refine (scratchOnly_d16 _).bind fun x => (scratchOnly_mix _ _ _ _).bind fun _ => (scratchOnly_mix _ _ _ _).bind fun _ => ?_
  cases b.wets with
  | none => exact .pure ()
  | some w => exact (scratchOnly_mix _ _ _ _).bind fun _ => scratchOnly_mix _ _ _ _

theorem scratchOnly_mixerSample (b : MixBufs) (dry wet : Int) (p : Nat) (rs : Ramp × Ramp) :
    ScratchOnly (mixerSample b dry wet p rs) :=
  have hramp (r : Ramp) : ScratchOnly (rampStep r) := (scratchOnly_acc32 _).bind fun _ => .pure _
  (hramp _).bind fun _ => (hramp _).bind fun _ => (scratchOnly_mixSample _ _ _ _ _ _).bind fun _ => .pure _

theorem scratchOnly_segmentStart (r : ExpRamp) : ScratchOnly (segmentStart r) := by
  unfold segmentStart
  split
  · exact .pure r
  · exact (scratchOnly_acc32 _).bind fun _ => (scratchOnly_acc32 _).bind fun _ => .pure _

theorem scratchOnly_expSegment (b : MixBufs) (g : Nat) (x : ExpState) : ScratchOnly (expSegment b g x) :=
  (scratchOnly_segmentStart _).bind fun _ => (scratchOnly_segmentStart _).bind fun _ =>
    (ScratchOnly.loopFrom fun _ _ => scratchOnly_mixerSample _ _ _ _ _).bind fun _ => .pure _

/-! ## Buffers that are moved on -/

theorem d16_congr {a b : Nat} (h : a % 65536 = b % 65536) : d16 a = d16 b := by
  have heven : checkEven a = checkEven b := by
    unfold checkEven
    rw [show a % 2 = b % 2 by omega]
  have hlook : look (fun s => s.sample a) = look fun s => s.sample b := by
    congr 1
    funext s
    exact sample_congr s h
  unfold d16
  rw [heven, hlook]

theorem d8w_congr {a b : Nat} (h : a % 65536 = b % 65536) (v : Byte) : d8w a v = d8w b v := by
  have haddr : scratchAddr a = scratchAddr b := h
  unfold d8w
  rw [haddr]

theorem d16w_congr {a b : Nat} (h : a % 65536 = b % 65536) (v : Int) : d16w a v = d16w b v := by
  have heven : checkEven a = checkEven b := by
    unfold checkEven
    rw [show a % 2 = b % 2 by omega]
  unfold d16w
  rw [heven, d8w_congr h, d8w_congr (show (a + 1) % 65536 = (b + 1) % 65536 by omega)]

theorem mix_congr {b c p q : Nat} (h : (b + 2 * p) % 65536 = (c + 2 * q) % 65536) (g x : Int) :
    mix b g p x = mix c g q x := by
  unfold mix
  rw [d16_congr h]
  congr 1
  funext old
  rw [d16w_congr h]

/-- The buffers, all moved d bytes on (R71). -/
def MixBufs.moved (b : MixBufs) (d : Nat) : MixBufs where
  inp := (b.inp + d) % 65536
  dl := (b.dl + d) % 65536
  dr := (b.dr + d) % 65536
  wets := b.wets.map fun w => ((w.1 + d) % 65536, (w.2 + d) % 65536)

theorem mixSample_moved (b : MixBufs) (dry wet : Int) (q p : Nat) (lv rv : Int) :
    mixSample (b.moved (2 * q)) dry wet p lv rv = mixSample b dry wet (q + p) lv rv := by
  have haddr (c : Nat) : ((c + 2 * q) % 65536 + 2 * p) % 65536 = (c + 2 * (q + p)) % 65536 := by omega
  obtain ⟨inp, dl, dr, _ | ⟨wl, wr⟩⟩ := b
  · simp only [mixSample, MixBufs.moved, d16_congr (haddr _), mix_congr (haddr _), Option.map_none]
  · simp only [mixSample, MixBufs.moved, d16_congr (haddr _), mix_congr (haddr _), Option.map_some]

theorem mixerSample_moved (b : MixBufs) (dry wet : Int) (q : Nat) :
    mixerSample (b.moved (2 * q)) dry wet = fun p => mixerSample b dry wet (q + p) := by
  funext p rs
  unfold mixerSample
  simp only [mixSample_moved]

theorem expSegment_moved (b : MixBufs) (k : Nat) : expSegment (b.moved (16 * k)) = fun g => expSegment b (k + g) := by
  have hmoved : b.moved (16 * k) = b.moved (2 * (8 * k)) := by rw [show 16 * k = 2 * (8 * k) by omega]
  have hindex (g j : Nat) : 8 * k + (8 * g + j) = 8 * (k + g) + j := by omega
  funext g x
  unfold expSegment
  simp only [hmoved, mixerSample_moved, hindex]

/-! ## What the two ramps become -/

/-- A mixer's samples that end leave the two ramps one step on for each, and no sum ended the run. -/
theorem rampLoop_ok {b : MixBufs} {dry wet : Int} {q : Nat → Nat} {n : Nat} {l r : Ramp} {rs : Ramp × Ramp} {s t : State}
    (h : loopFrom n (l, r) (fun j rs => mixerSample b dry wet (q j) rs) s = .ok rs t) :
    rs = (l.after n, r.after n) ∧ l.ok s n ∧ r.ok s n := by
  induction n generalizing rs t with
  | zero =>
    obtain ⟨rfl, -⟩ := pure_ok_iff.1 h
    exact ⟨rfl, nofun, nofun⟩
  | succ n ih =>
    rw [loopFrom_succ] at h
    obtain ⟨c, u, hinit, hlast⟩ := bind_ok_iff.1 h
    obtain ⟨rfl, hl, hr⟩ := ih hinit
    have hu (v : Int) : AccOk u v ↔ AccOk s v := by
      rw [(ScratchOnly.loopFrom fun _ _ => scratchOnly_mixerSample _ _ _ _ _).smAlone hinit]
      rfl
    obtain ⟨l', _, hstepL, hlast⟩ := bind_ok_iff.1 hlast
    obtain ⟨r', _, hstepR, hlast⟩ := bind_ok_iff.1 hlast
    obtain ⟨_, _, -, hlast⟩ := bind_ok_iff.1 hlast
    obtain ⟨hokL, rfl, rfl⟩ := rampStep_ok_iff.1 hstepL
    obtain ⟨hokR, rfl, -⟩ := rampStep_ok_iff.1 hstepR
    obtain ⟨rfl, -⟩ := pure_ok_iff.1 hlast
    exact ⟨rfl, Nat.forall_lt_succ_right.2 ⟨hl, (hu _).1 hokL⟩, Nat.forall_lt_succ_right.2 ⟨hr, (hu _).1 hokR⟩⟩

end Sys2Proof.Machine
end

section
/-! SUPPORT. The save block of the exponential and linear mixers (42_envmixer.md R245, R248): a list of named halves and
words stored in a block that is open to stores, then the unnamed bytes. -/

namespace Sys2Proof.Machine

/-! ## Pieces that change main memory alone -/

/-- From s to t only main memory changed, and free values were drawn. -/
def MainOnly (s t : State) : Prop := t = { s with mm := t.mm, supply := t.supply, draws := t.draws }

theorem MainOnly.trans {s t u : State} (h1 : MainOnly s t) (h2 : MainOnly t u) : MainOnly s u := by
  unfold MainOnly at *
  rw [h2, h1]

theorem MainOnly.control {s t : State} (h : MainOnly s t) : SameControl s t := by
  rw [MainOnly] at h
  rw [h]
  exact ⟨rfl, rfl, rfl, rfl, rfl, rfl⟩

theorem MainOnly.sm {s t : State} (h : MainOnly s t) : t.sm = s.sm := by
  rw [MainOnly] at h
  rw [h]

theorem MainOnly.eng {s t : State} (h : MainOnly s t) : t.eng = s.eng := by
  rw [MainOnly] at h
  rw [h]

theorem MainOnly.openToStores {a n : Nat} {s t : State} (h : MainOnly s t) (ho : OpenToStores a n s) :
    OpenToStores a n t := (OpenToStores.congr h.control).2 ho

/-- One byte of a block that is open to stores. -/
theorem memWrite8_of_openToStores {a n o : Nat} {s : State} (h : OpenToStores a n s) (ho : o < n) (v : Byte) :
    memWrite8 (a + o) v s = .ok () (mmPoke s (a + o) v) := by
  obtain ⟨hrange, hunread⟩ := h (a + o) ⟨by omega, by omega⟩
  exact memWrite8_ok_iff.2 ⟨⟨hrange, by unfold Unlisted; omega⟩, rfl⟩

/-- Four bytes of a block that is open to stores. -/
theorem memWrite32_of_openToStores {a n b : Nat} {s : State} (h : OpenToStores a n s) (h1 : a ≤ b) (h2 : b + 4 ≤ a + n)
    (v : Word) : memWrite32 b v s = .ok () (mmPoke32 s b v) := by
  have hlast := (h (b + 3) ⟨by omega, by omega⟩).1
  have hopen : Unlisted s b 4 := (unlisted_iff (by decide)).2 fun c hc1 hc2 => (h c ⟨by omega, by omega⟩).2
  exact memWrite32_ok_iff.2 ⟨⟨by omega, hopen⟩, rfl⟩

/-! ## The unnamed bytes -/

/-- From s to t main memory changed at most at some offsets from a. -/
structure WroteAt (a : Nat) (offsets : Nat → Prop) (s t : State) : Prop where
  mainOnly : MainOnly s t
  outside : ∀ o, ¬ offsets o → t.mm.read (a + o) = s.mm.read (a + o)

theorem saveUnnamed_runs {a n : Nat} {us : List Nat} {s : State} (h : OpenToStores a n s) (hus : ∀ o ∈ us, o < n) :
    Runs (saveUnnamed a us) s fun _ t => WroteAt a (· ∈ us) s t := by
  induction us generalizing s with
  | nil => exact .pure ⟨rfl, fun _ _ => rfl⟩
  | cons o us ih =>
    obtain ⟨v, su, dr, hdraw⟩ := drawByte_runs s
    have hdrawn : MainOnly s { s with supply := su, draws := dr } := rfl
    have hmain : MainOnly s (mmPoke { s with supply := su, draws := dr } (a + o) v) := rfl
    refine .bind (.of_eq hdraw (.bind (.of_eq
      (memWrite8_of_openToStores (hdrawn.openToStores h) (hus o (by simp)) v) ?_)))
    refine (ih (hmain.openToStores h) fun o ho => hus o (by simp [ho])).mono fun _ t ht => ⟨hmain.trans ht.mainOnly, ?_⟩
    intro p hp
    obtain ⟨hpo, hpus⟩ := not_or.1 (mt List.mem_cons.2 hp)
    rw [ht.outside p hpus, mm_read_mmPoke, if_neg (by omega)]

/-! ## The named fields -/

/-- Bit vectors of the same widths, one after the other. -/
theorem bitVec_append_inj {w v : Nat} {x x' : BitVec w} {y y' : BitVec v} (h : x ++ y = x' ++ y') : x = x' ∧ y = y' := by
  constructor
  · rw [← BitVec.extractLsb'_append_eq_left (a := x) (b := y), h, BitVec.extractLsb'_append_eq_left]
  · rw [← BitVec.extractLsb'_append_eq_right (a := x) (b := y), h, BitVec.extractLsb'_append_eq_right]

/-- Equal halves have equal bytes. -/
theorem read_of_mmHalf_eq {s t : State} {a : Nat} (h : t.mmHalf a = s.mmHalf a) (i : Nat) (hi : i < 2) :
    t.mm.read (a + i) = s.mm.read (a + i) := by
  obtain ⟨h0, h1⟩ := bitVec_append_inj h
  interval_cases i
  · exact h0
  · exact h1

/-- Equal words have equal bytes. -/
theorem read_of_mmWord_eq {s t : State} {a : Nat} (h : t.mmWord a = s.mmWord a) (i : Nat) (hi : i < 4) :
    t.mm.read (a + i) = s.mm.read (a + i) := by
  obtain ⟨h012, h3⟩ := bitVec_append_inj h
  obtain ⟨h01, h2⟩ := bitVec_append_inj h012
  obtain ⟨h0, h1⟩ := bitVec_append_inj h01
  interval_cases i
  · exact h0
  · exact h1
  · exact h2
  · exact h3

/-- A named field of a save block: a half or a word at an offset. -/
inductive BlockField where
  | half (offset : Nat) (v : Half)
  | word (offset : Nat) (v : Word)

/-- The store of a field in the block at a. -/
def BlockField.write (a : Nat) : BlockField → Act Unit
  | .half o v => memWrite16 (a + o) v
  | .word o v => memWrite32 (a + o) v

/-- The offset of a field's first byte. -/
def BlockField.first : BlockField → Nat
  | .half o _ | .word o _ => o

/-- One past the offset of a field's last byte. -/
def BlockField.stop : BlockField → Nat
  | .half o _ => o + 2
  | .word o _ => o + 4

/-- An offset is one of a field's bytes. -/
def BlockField.Covers (f : BlockField) (o : Nat) : Prop := f.first ≤ o ∧ o < f.stop

/-- The block at a holds a field. -/
def BlockField.HeldBy (f : BlockField) (s : State) (a : Nat) : Prop :=
  match f with
  | .half o v => s.mmHalf (a + o) = v
  | .word o v => s.mmWord (a + o) = v

/-- The field's bytes decide whether the block holds it. -/
theorem BlockField.HeldBy.congr {f : BlockField} {a : Nat} {s t : State} (h : f.HeldBy s a)
    (heq : ∀ o, f.Covers o → t.mm.read (a + o) = s.mm.read (a + o)) : f.HeldBy t a := by
  cases f with
  | half o v =>
    exact (mmHalf_congr (heq o ⟨Nat.le_refl o, by simp [stop]⟩) (heq (o + 1) ⟨by simp [first], by simp [stop]⟩)).trans h
  | word o v =>
    refine (mmWord_congr fun i hi => ?_).trans h
    rw [Nat.add_assoc]
    exact heq (o + i) ⟨by simp [first], by simp [stop, hi]⟩

/-- Two blocks that hold a field have the same bytes there. -/
theorem BlockField.HeldBy.read_eq {f : BlockField} {a o : Nat} {s t : State} (hs : f.HeldBy s a) (ht : f.HeldBy t a)
    (ho : f.Covers o) : t.mm.read (a + o) = s.mm.read (a + o) := by
  obtain ⟨i, rfl⟩ := Nat.exists_eq_add_of_le ho.1
  have hi : f.first + i < f.stop := ho.2
  rw [← Nat.add_assoc]
  cases f with
  | half p v => exact read_of_mmHalf_eq (ht.trans hs.symm) i (by simpa [first, stop] using hi)
  | word p v => exact read_of_mmWord_eq (ht.trans hs.symm) i (by simpa [first, stop] using hi)

/-- A field stored in a block that is open to stores is held, and no other byte changes. -/
theorem BlockField.write_runs {f : BlockField} {a n : Nat} {s : State} (h : OpenToStores a n s) (hf : f.stop ≤ n) :
    Runs (f.write a) s fun _ t => f.HeldBy t a ∧ WroteAt a f.Covers s t := by
  cases f with
  | half o v =>
    simp only [stop] at hf
    have hrun := memWrite16_of_openToStores (b := a + o) h (by omega) (by omega) v
    refine .of_eq hrun ⟨mmHalf_mmPoke16_self _ _ _, rfl, fun p hp => ?_⟩
    simp only [Covers, first, stop] at hp
    exact mm_read_mmPoke16 _ _ (by omega)
  | word o v =>
    simp only [stop] at hf
    have hrun := memWrite32_of_openToStores (b := a + o) h (by omega) (by omega) v
    refine .of_eq hrun ⟨mmWord_mmPoke32_self _ _ _, rfl, fun p hp => ?_⟩
    simp only [Covers, first, stop] at hp
    exact mm_read_mmPoke32 _ _ (by omega)

/-! ## The whole block -/

/-- The stores of some fields in order, then a last part. -/
def saveFields (a : Nat) (rest : Act Unit) : List BlockField → Act Unit
  | [] => rest
  | f :: fs => do
    f.write a
    saveFields a rest fs

/-- Fields one after the other, below offset n, and unnamed offsets that no field covers. -/
structure BlockLayout (n : Nat) (us : List Nat) (fs : List BlockField) : Prop where
  ordered : fs.Pairwise fun f g => f.stop ≤ g.first
  inBlock : ∀ f ∈ fs, f.stop ≤ n
  unnamedInBlock : ∀ o ∈ us, o < n
  unnamed : ∀ f ∈ fs, ∀ o ∈ us, ¬ f.Covers o

/-- Every offset below n is unnamed or in a field. -/
def CoversBlock (n : Nat) (us : List Nat) (fs : List BlockField) : Prop :=
  ∀ o, o < n → o ∉ us → ∃ f ∈ fs, f.Covers o

/-- Blocks that hold the same fields have the same named bytes. -/
theorem CoversBlock.read_eq {n a : Nat} {us : List Nat} {fs : List BlockField} {s t : State} (h : CoversBlock n us fs)
    (hs : ∀ f ∈ fs, f.HeldBy s a) (ht : ∀ f ∈ fs, f.HeldBy t a) (o : Nat) (ho : o < n) (hu : o ∉ us) :
    t.mm.read (a + o) = s.mm.read (a + o) := by
  obtain ⟨f, hf, hcov⟩ := h o ho hu
  exact (hs f hf).read_eq (ht f hf) hcov

/-- A save ends where its block is open to stores: the block holds every field, and main memory alone changed. -/
theorem saveFields_runs {a n : Nat} {us : List Nat} {fs : List BlockField} {s : State} (h : OpenToStores a n s)
    (hl : BlockLayout n us fs) :
    Runs (saveFields a (saveUnnamed a us) fs) s fun _ t =>
      (∀ f ∈ fs, f.HeldBy t a) ∧ WroteAt a (fun o => o ∈ us ∨ ∃ f ∈ fs, f.Covers o) s t := by
  induction fs generalizing s with
  | nil =>
    refine (saveUnnamed_runs h hl.unnamedInBlock).mono fun _ t ht => ⟨nofun, ht.mainOnly, fun o ho => ?_⟩
    exact ht.outside o fun hmem => ho (.inl hmem)
  | cons f fs ih =>
    obtain ⟨hbefore, hordered⟩ := List.pairwise_cons.1 hl.ordered
    have hrest : BlockLayout n us fs :=
      ⟨hordered, fun g hg => hl.inBlock g (by simp [hg]), hl.unnamedInBlock, fun g hg => hl.unnamed g (by simp [hg])⟩
    refine .bind ((BlockField.write_runs h (hl.inBlock f (by simp))).mono fun _ u ⟨hheld, hu⟩ => ?_)
    refine (ih (hu.mainOnly.openToStores h) hrest).mono fun _ t ⟨hfields, ht⟩ => ⟨fun g hg => ?_, ?_, fun o ho => ?_⟩
    · rcases List.mem_cons.1 hg with rfl | hg
      · refine hheld.congr fun o ho => ht.outside o ?_
        rintro (hmem | ⟨e, he, hcov⟩)
        · exact hl.unnamed g (by simp) o hmem ho
        · exact absurd (Nat.lt_of_lt_of_le ho.2 (hbefore e he)) (Nat.not_lt.2 hcov.1)
      · exact hfields g hg
    · exact hu.mainOnly.trans ht.mainOnly
    · rw [ht.outside o fun hor => ho (hor.imp_right fun ⟨e, he, hcov⟩ => ⟨e, by simp [he], hcov⟩),
        hu.outside o fun hcov => ho (.inr ⟨f, by simp, hcov⟩)]

/-- The 80 bytes are checked before the fields are stored (R246). -/
theorem saveBlock_runs {a : Nat} {us : List Nat} {fs : List BlockField} {s : State} (h : OpenToStores a 80 s)
    (hl : BlockLayout 80 us fs) :
    Runs (checkSaveBlock a >>= fun _ => saveFields a (saveUnnamed a us) fs) s fun _ t =>
      (∀ f ∈ fs, f.HeldBy t a) ∧ MainOnly s t := by
  have hlast := (h (a + 79) ⟨by omega, by omega⟩).1
  have hunread : Unlisted s a 80 := (unlisted_iff (by decide)).2 fun b h1 h2 => (h b ⟨h1, h2⟩).2
  have hcheck : checkSaveBlock a s = .ok () s := checkStore_ok_iff.2 ⟨show a + 80 ≤ _ by omega, hunread, rfl⟩
  exact .bind (.of_eq hcheck ((saveFields_runs h hl).mono fun _ _ ⟨hfields, ht⟩ => ⟨hfields, ht.mainOnly⟩))

end Sys2Proof.Machine
end

section
/-! SUPPORT. ENVMIXER_LIN (42_envmixer.md R248, R249): it reads its setup, mixes by its two ramps and saves them. -/

namespace Sys2Proof.Machine

variable {β : Type}

/-! ## Setup that is there -/

/-- A command that ends found its setup registers written (R33, R374). -/
theorem ready_of_next {i : Instr} {s t : State} (h : exec i s = .next t) : Ready i s := by
  intro r hr
  obtain hnil | ⟨x, hx, hfirst⟩ := exec_readsFirst fun w hw => (endingMeansItsBlockWasStorable i s t w hw h).1
  · simp [hnil] at hr
  · by_contra hu
    obtain ⟨q, hq⟩ := Option.isSome_iff_exists.1
      (List.find?_isSome (p := fun r => !s.eng.isWritten r).2 ⟨r, hr, by simpa using hu⟩)
    rw [hx, runAct_next_iff, hfirst q hq] at h
    cases h

/-- The registers that INIT reads are written. -/
def InitWritten (s : State) : Prop := ∀ r ∈ initRegs, s.eng.isWritten r = true

/-- The reads of INIT, in the order of R246, and what goes on with their values. -/
theorem initReads_bind {s : State} (h : InitWritten s)
    (f : Half → Half → Half → Half → Half → Half → Word → Word → Act β) :
    (do
      let dry ← readDry
      let wet ← readWet
      let volL ← readVol .left
      let volR ← readVol .right
      let tgL ← readTarget .left
      let tgR ← readTarget .right
      let rateL ← readRate .left
      let rateR ← readRate .right
      f dry wet volL volR tgL tgR rateL rateR) s
      = f s.eng.dry.value s.eng.wet.value s.eng.volLeft.value s.eng.volRight.value s.eng.targetLeft.value
          s.eng.targetRight.value s.eng.rateLeft.value s.eng.rateRight.value s := by
  have hdry := h .dry (by simp [initRegs])
  have hwet := h .wet (by simp [initRegs])
  have hvol (c : Side) := h (.vol c) (by cases c <;> simp [initRegs])
  have htarget (c : Side) := h (.target c) (by cases c <;> simp [initRegs])
  have hrate (c : Side) := h (.rate c) (by cases c <;> simp [initRegs])
  refine (bind_of_ok (readReg_written hdry)).trans ((bind_of_ok (readReg_written hwet)).trans ?_)
  refine (bind_of_ok (readReg_written (hvol .left))).trans ((bind_of_ok (readReg_written (hvol .right))).trans ?_)
  refine (bind_of_ok (readReg_written (htarget .left))).trans ((bind_of_ok (readReg_written (htarget .right))).trans ?_)
  exact (bind_of_ok (readReg_written (hrate .left))).trans (bind_of_ok (readReg_written (hrate .right)))

/-- The registers that both mixers read are written. -/
def BuffersWritten (s : State) : Prop := ∀ r ∈ [RegName.inp, .out, .count, .dryRight], s.eng.isWritten r = true

/-- The reads both mixers start with, and what goes on with their values (R246, R249). -/
theorem bufferReads_bind {s : State} {block : Word} (ha : s.resolved block % 8 = 0) (h : BuffersWritten s)
    (f : Nat → Half → Half → Half → Half → Act β) :
    (do
      let a ← blockBase block
      let inp ← readInp
      let dl ← readOut
      let count ← readCount
      let dr ← readDryRight
      f a inp dl count dr) s
      = f (s.resolved block) s.eng.inp.value s.eng.out.value s.eng.count.value s.eng.dryRight.value s := by
  have hinp := h .inp (by simp)
  have hout := h .out (by simp)
  have hcount := h .count (by simp)
  have hdr := h .dryRight (by simp)
  refine (bind_of_ok (blockBase_ok_iff.2 ⟨rfl, ha, rfl⟩)).trans ?_
  refine (bind_of_ok (readReg_written hinp)).trans ((bind_of_ok (readReg_written hout)).trans ?_)
  exact (bind_of_ok (readReg_written hcount)).trans (bind_of_ok (readReg_written hdr))

/-! ## Load and save (R248, R249) -/

theorem linLoad_of_ready {init : Bool} {a : Nat} {s : State} (hinit : init = true → InitWritten s)
    (hrange : a + 80 ≤ s.params.mmSize) : linLoad init a s = .ok (linStart s init a) s := by
  cases init with
  | true => exact initReads_bind (hinit rfl) _
  | false =>
    change linFromBlock a s = _
    unfold linFromBlock
    rw [bind_of_ok (memRead16_of_le (by omega)), bind_of_ok (memRead16_of_le (by omega)),
      bind_of_ok (memRead16_of_le (by omega)), bind_of_ok (memRead16_of_le (by omega)),
      bind_of_ok (memRead32_of_le (by omega)), bind_of_ok (memRead32_of_le (by omega)),
      bind_of_ok (memRead32_of_le (by omega)), bind_of_ok (memRead32_of_le (by omega))]
    rfl

/-- The named fields of the linear save block (R248). -/
def linFields (x : LinState) : List BlockField :=
  [.half 2 (lo16 x.wet), .half 6 (lo16 x.dry), .half 10 (targetHalf x.ramps.1.target),
    .half 14 (targetHalf x.ramps.2.target), .word 16 (lo32 x.ramps.1.step), .word 20 (lo32 x.ramps.2.step),
    .word 32 (lo32 x.ramps.1.value), .word 36 (lo32 x.ramps.2.value)]

theorem linSave_eq (a : Nat) (x : LinState) :
    linSave a x = (checkSaveBlock a >>= fun _ => saveFields a (saveUnnamed a linUnnamed) (linFields x)) := rfl

theorem mem_linUnnamed {o : Nat} :
    o ∈ linUnnamed ↔ o ∈ [0, 1, 4, 5, 8, 9, 12, 13] ∨ (24 ≤ o ∧ o < 32) ∨ (40 ≤ o ∧ o < 80) := by
  simp only [linUnnamed, List.mem_append, List.mem_range'_1, or_assoc]

theorem blockLayout_lin (x : LinState) : BlockLayout 80 linUnnamed (linFields x) where
  ordered := by simp [linFields, BlockField.first, BlockField.stop]
  inBlock := by simp [linFields, BlockField.stop]
  unnamedInBlock := by decide
  unnamed f hf o ho := by
    have ho := mem_linUnnamed.1 ho
    simp only [List.mem_cons, List.not_mem_nil, or_false] at ho
    unfold BlockField.Covers
    simp only [linFields, List.mem_cons, List.not_mem_nil, or_false] at hf
    rcases hf with rfl | rfl | rfl | rfl | rfl | rfl | rfl | rfl <;>
      simp only [BlockField.first, BlockField.stop] <;> omega

theorem coversBlock_lin (x : LinState) : CoversBlock 80 linUnnamed (linFields x) := fun o ho hu => by
  have hu := mt mem_linUnnamed.2 hu
  simp only [List.mem_cons, List.not_mem_nil, or_false] at hu
  simp only [linFields, List.exists_mem_cons_iff, List.not_mem_nil, BlockField.Covers, BlockField.first, BlockField.stop]
  omega

theorem linSave_runs {a : Nat} {s : State} (h : OpenToStores a 80 s) (x : LinState) :
    Runs (linSave a x) s fun _ t => (∀ f ∈ linFields x, f.HeldBy t a) ∧ MainOnly s t := by
  rw [linSave_eq]
  exact saveBlock_runs h (blockLayout_lin x)

/-! ## The whole command (R249) -/

/-- The samples of ENVMIXER_LIN. -/
def linLoop (s : State) (x : LinState) : Act (Ramp × Ramp) :=
  loopFrom (linCount s.eng.count.value) x.ramps (mixerSample (linBufs s) x.dry x.wet)

theorem scratchOnly_linLoop (s : State) (x : LinState) : ScratchOnly (linLoop s x) :=
  .loopFrom fun _ _ => scratchOnly_mixerSample _ _ _ _ _

/-- Where the setup is there, ENVMIXER_LIN reads it, mixes its samples and saves. -/
theorem envmixerLin_apply {s : State} {init : Bool} {block : Word} (hready : Ready (.envmixerLin init block) s)
    (hstore : storable s (s.resolved block) 80) :
    envmixerLin init block s = (linLoop s (linStart s init (s.resolved block)) >>= fun rs =>
      linSave (s.resolved block) { linStart s init (s.resolved block) with ramps := rs }) s := by
  have hwritten (r : RegName) (hr : r ∈ setupOf (.envmixerLin init block)) := hready r hr
  have hbufs : BuffersWritten s := fun r hr =>
    hwritten r (List.mem_append_left _ (List.mem_append_left [RegName.wetLeft, RegName.wetRight] hr))
  have hwl := hwritten .wetLeft (by simp [setupOf])
  have hwr := hwritten .wetRight (by simp [setupOf])
  have hinit (h : init = true) : InitWritten s := fun r hr => hwritten r (by simp [setupOf, h, hr])
  refine (bufferReads_bind hstore.1 hbufs _).trans ?_
  refine (bind_of_ok (readReg_written hwl)).trans ((bind_of_ok (readReg_written hwr)).trans ?_)
  exact bind_of_ok (linLoad_of_ready hinit hstore.2.1)

/-- From s by ENVMIXER_LIN to t: the samples end in u with the ramps rs, and then main memory alone changes, so that the
block holds them. -/
structure LinRun (s : State) (init : Bool) (block : Word) (rs : Ramp × Ramp) (u t : State) : Prop where
  loop : linLoop s (linStart s init (s.resolved block)) s = .ok rs u
  mainOnly : MainOnly u t
  fields : ∀ f ∈ linFields { linStart s init (s.resolved block) with ramps := rs }, f.HeldBy t (s.resolved block)

section
variable {s u : State} {init : Bool} {block : Word} {rs : Ramp × Ramp}

/-- Where the setup is there and the samples end, ENVMIXER_LIN ends. -/
theorem exec_envmixerLin_of_loop (hready : Ready (.envmixerLin init block) s) (hstore : storable s (s.resolved block) 80)
    (hloop : linLoop s (linStart s init (s.resolved block)) s = .ok rs u) :
    ∃ t, exec (.envmixerLin init block) s = .next t ∧ LinRun s init block rs u t := by
  have hopen : OpenToStores (s.resolved block) 80 u := by
    rw [(scratchOnly_linLoop _ _).smAlone hloop]
    exact openToStores_of_storable hstore
  obtain ⟨⟨⟩, t, hsave, hfields, hmain⟩ := linSave_runs hopen { linStart s init (s.resolved block) with ramps := rs }
  refine ⟨t, ?_, hloop, hmain, hfields⟩
  rw [exec_envmixerLin, runAct_next_iff, envmixerLin_apply hready hstore, bind_of_ok hloop]
  exact hsave

/-- A run of ENVMIXER_LIN that ends is one of its samples and a save. -/
theorem exec_envmixerLin_run {t : State} (h : exec (.envmixerLin init block) s = .next t) :
    ∃ rs u, LinRun s init block rs u t := by
  have hready := ready_of_next h
  have hstore : storable s (s.resolved block) 80 := endingMeansItsBlockWasStorable _ s t block rfl h
  have hrun := runAct_next_iff.1 h
  rw [envmixerLin_apply hready hstore] at hrun
  obtain ⟨rs, u, hloop, -⟩ := bind_ok_iff.1 hrun
  obtain ⟨t', ht', hrun'⟩ := exec_envmixerLin_of_loop hready hstore hloop
  obtain rfl : t = t' := by
    rw [h] at ht'
    injection ht'
  exact ⟨rs, u, hrun'⟩

end

/-! ## What it computes -/

/-- The channels of ENVMIXER_LIN: each ramp's gain at sample p is that of p + 1 steps. -/
def linChannels (s : State) (x : LinState) : List Channel :=
  (linBufs s).channels x.dry x.wet (fun p => (x.ramps.1.after (p + 1)).gain) fun p => (x.ramps.2.after (p + 1)).gain

/-- The state ENVMIXER_LIN saves after n samples. -/
def LinState.after (x : LinState) (n : Nat) : LinState := { x with ramps := (x.ramps.1.after n, x.ramps.2.after n) }

@[simp] theorem Ramp.next_target (r : Ramp) : r.next.target = r.target := by
  obtain ⟨-, h⟩ | ⟨-, h⟩ := r.settle_cases (wrapS32 (r.value + r.step)) <;> rw [Ramp.next, h]

@[simp] theorem Ramp.after_target (r : Ramp) (n : Nat) : (r.after n).target = r.target := by
  induction n with
  | zero => rfl
  | succ n ih => rw [Ramp.after_succ, Ramp.next_target, ih]

theorem linLoop_mixes {s : State} {x : LinState} (heven : linCount s.eng.count.value ≠ 0 → (linBufs s).Even)
    (hl : x.ramps.1.ok s (linCount s.eng.count.value)) (hr : x.ramps.2.ok s (linCount s.eng.count.value)) :
    linLoop s x s = .ok (x.after (linCount s.eng.count.value)).ramps
      (s.mixed s.inpAddr (linChannels s x) (linCount s.eng.count.value)) := by
  have hloop := rampLoop_mixes (q := 0) (dry := x.dry) (wet := x.wet) (lv := fun p => (x.ramps.1.after (p + 1)).gain)
    (rv := fun p => (x.ramps.2.after (p + 1)).gain) heven hl hr (fun j _ => by rw [Nat.zero_add])
    fun j _ => by rw [Nat.zero_add]
  simp only [Nat.zero_add] at hloop
  exact hloop

section
variable {s : State} {init : Bool} {block : Word} (hready : Ready (.envmixerLin init block) s)
  (hstore : storable s (s.resolved block) 80)
  (heven : linCount s.eng.count.value ≠ 0 → s.inpAddr % 2 = 0 ∧ s.outAddr % 2 = 0 ∧ s.dryRightAddr % 2 = 0 ∧
    s.wetLeftAddr % 2 = 0 ∧ s.wetRightAddr % 2 = 0)
  (hl : (linStart s init (s.resolved block)).ramps.1.ok s (linCount s.eng.count.value))
  (hr : (linStart s init (s.resolved block)).ramps.2.ok s (linCount s.eng.count.value))
include hready hstore heven hl hr

/-- ENVMIXER_LIN ends: scratch holds the mixed samples, and the block the state after them. -/
theorem exec_envmixerLin_ends :
    ∃ t, exec (.envmixerLin init block) s = .next t ∧
      t.sm = (s.mixed s.inpAddr (linChannels s (linStart s init (s.resolved block))) (linCount s.eng.count.value)).sm ∧
      ∀ f ∈ linFields ((linStart s init (s.resolved block)).after (linCount s.eng.count.value)),
        f.HeldBy t (s.resolved block) := by
  have hbufs (h : linCount s.eng.count.value ≠ 0) : (linBufs s).Even := by
    obtain ⟨hinp, hdl, hdr, hwl, hwr⟩ := heven h
    exact ⟨hinp, by simp [MixBufs.bases, linBufs, expBufs, hdl, hdr, hwl, hwr]⟩
  obtain ⟨t, ht, hrun⟩ := exec_envmixerLin_of_loop hready hstore (linLoop_mixes hbufs hl hr)
  exact ⟨t, ht, hrun.mainOnly.sm, hrun.fields⟩

end

/-- Settles O50: the fields of the saved block, whose targets no step has moved. -/
theorem linearMixerCompletes : Obligations.LinearMixerCompletes := by
  intro s init block a n x hready hstore heven hl hr
  obtain ⟨t, ht, -, hfields⟩ := exec_envmixerLin_ends hready hstore heven hl hr
  refine ⟨t, ht, ?_⟩
  simpa [linFields, BlockField.HeldBy, LinState.after, targetHalf, asr] using hfields

theorem linCount_le (count : Half) : linCount count ≤ 32768 := by
  have hcount : linCount count = (count.toNat + 1) / 2 * 2 / 2 := rfl
  omega

/-- Settles O51: with the buffers apart, the mixed samples are the old ones plus what the channels add. -/
theorem linearMixerMixesByItsRamps : Obligations.LinearMixerMixesByItsRamps := by
  intro s init block a n x bytes hready hstore heven hl hr hapart
  obtain ⟨t, ht, hsm, -⟩ := exec_envmixerLin_ends hready hstore heven hl hr
  refine ⟨t, ht, fun p hp => ?_⟩
  obtain ⟨hinp, hdl, hdr, hwl, hwr⟩ := heven (by omega)
  have hmixed := mixed_mixed (cs := linChannels s x) (linCount_le _) hinp
    (by simp [linChannels, MixBufs.channels, linBufs, expBufs, hdl, hdr, hwl, hwr]) hapart s (Nat.le_refl n)
  have hsample (c : Channel) (hc : c ∈ linChannels s x) := (sample_of_sm hsm _).trans (hmixed.done c hc p hp)
  simpa [linChannels, MixBufs.channels, linBufs, expBufs] using hsample

end Sys2Proof.Machine
end

section
/-! SUPPORT. ENVMIXER (42_envmixer.md R245, R246): it reads its setup, mixes segment by segment by its two ramps and saves
them. -/

namespace Sys2Proof.Machine

/-! ## Load and save (R245, R246) -/

theorem startStep_ok_iff {value target rate seq : Int} {x : ExpRamp} {s t : State} :
    startStep value target rate seq s = .ok x t ↔
      AccOk s (target - value) ∧ x = expRampStart value target rate seq ∧ t = s := by
  unfold startStep
  rw [bind_ok_iff]
  constructor
  · rintro ⟨step, u, hacc, hpure⟩
    obtain ⟨hok, rfl, rfl⟩ := acc32_ok_iff_accOk.1 hacc
    obtain ⟨rfl, rfl⟩ := pure_ok_iff.1 hpure
    exact ⟨hok, rfl, rfl⟩
  · rintro ⟨hok, rfl, rfl⟩
    exact ⟨_, t, acc32_of_accOk hok, rfl⟩

/-- Where its setup is there, ENVMIXER's load ends exactly where its sums do, with the state it starts from. -/
theorem expLoad_ok_iff {init : Bool} {a : Nat} {x : ExpState} {s t : State} (hinit : init = true → InitWritten s)
    (hrange : a + 80 ≤ s.params.mmSize) :
    expLoad init a s = .ok x t ↔ expStartOk s init a ∧ x = expStart s init a ∧ t = s := by
  cases init with
  | true =>
    change expFromRegs s = _ ↔ _
    unfold expFromRegs
    rw [initReads_bind (hinit rfl)]
    simp only [bind_ok_iff, acc32_ok_iff_accOk, startStep_ok_iff, pure_ok_iff]
    constructor
    · rintro ⟨_, _, ⟨hseqL, rfl, rfl⟩, _, _, ⟨hseqR, rfl, rfl⟩, _, _, ⟨hl, rfl, rfl⟩, _, _, ⟨hr, rfl, rfl⟩, rfl, rfl⟩
      exact ⟨⟨fun _ => ⟨hseqL, hseqR⟩, hl, hr⟩, rfl, rfl⟩
    · rintro ⟨⟨hseq, hl, hr⟩, rfl, rfl⟩
      obtain ⟨hseqL, hseqR⟩ := hseq rfl
      exact ⟨_, t, ⟨hseqL, rfl, rfl⟩, _, t, ⟨hseqR, rfl, rfl⟩, _, t, ⟨hl, rfl, rfl⟩, _, t, ⟨hr, rfl, rfl⟩, rfl, rfl⟩
  | false =>
    change expFromBlock a s = _ ↔ _
    unfold expFromBlock
    rw [bind_of_ok (memRead16_of_le (by omega)), bind_of_ok (memRead16_of_le (by omega)),
      bind_of_ok (memRead32_of_le (by omega)), bind_of_ok (memRead32_of_le (by omega)),
      bind_of_ok (memRead32_of_le (by omega)), bind_of_ok (memRead32_of_le (by omega)),
      bind_of_ok (memRead32_of_le (by omega)), bind_of_ok (memRead32_of_le (by omega)),
      bind_of_ok (memRead32_of_le (by omega)), bind_of_ok (memRead32_of_le (by omega))]
    simp only [bind_ok_iff, startStep_ok_iff, pure_ok_iff]
    constructor
    · rintro ⟨_, _, ⟨hl, rfl, rfl⟩, _, _, ⟨hr, rfl, rfl⟩, rfl, rfl⟩
      exact ⟨⟨nofun, hl, hr⟩, rfl, rfl⟩
    · rintro ⟨⟨-, hl, hr⟩, rfl, rfl⟩
      exact ⟨_, t, ⟨hl, rfl, rfl⟩, _, t, ⟨hr, rfl, rfl⟩, rfl, rfl⟩

/-- The named fields of the exponential save block (R245). -/
def expFields (x : ExpState) : List BlockField :=
  [.half 2 (lo16 x.wet), .half 6 (lo16 x.dry), .word 8 (lo32 x.left.ramp.target), .word 12 (lo32 x.right.ramp.target),
    .word 16 (lo32 x.left.rate), .word 20 (lo32 x.right.rate), .word 24 (lo32 x.left.seq), .word 28 (lo32 x.right.seq),
    .word 32 (lo32 x.left.ramp.value), .word 36 (lo32 x.right.ramp.value)]

theorem expSave_eq (a : Nat) (x : ExpState) :
    expSave a x = (checkSaveBlock a >>= fun _ => saveFields a (saveUnnamed a expUnnamed) (expFields x)) := rfl

theorem mem_expUnnamed {o : Nat} : o ∈ expUnnamed ↔ o ∈ [0, 1, 4, 5] ∨ (40 ≤ o ∧ o < 80) := by
  simp only [expUnnamed, List.mem_append, List.mem_range'_1]

theorem blockLayout_exp (x : ExpState) : BlockLayout 80 expUnnamed (expFields x) where
  ordered := by simp [expFields, BlockField.first, BlockField.stop]
  inBlock := by simp [expFields, BlockField.stop]
  unnamedInBlock := by decide
  unnamed f hf o ho := by
    have ho := mem_expUnnamed.1 ho
    simp only [List.mem_cons, List.not_mem_nil, or_false] at ho
    simp only [expFields, List.mem_cons, List.not_mem_nil, or_false] at hf
    unfold BlockField.Covers
    rcases hf with rfl | rfl | rfl | rfl | rfl | rfl | rfl | rfl | rfl | rfl <;>
      simp only [BlockField.first, BlockField.stop] <;> omega

theorem coversBlock_exp (x : ExpState) : CoversBlock 80 expUnnamed (expFields x) := fun o ho hu => by
  have hu := mt mem_expUnnamed.2 hu
  simp only [List.mem_cons, List.not_mem_nil, or_false] at hu
  simp only [expFields, List.exists_mem_cons_iff, List.not_mem_nil, BlockField.Covers, BlockField.first, BlockField.stop]
  omega

theorem expSave_runs {a : Nat} {s : State} (h : OpenToStores a 80 s) (x : ExpState) :
    Runs (expSave a x) s fun _ t => (∀ f ∈ expFields x, f.HeldBy t a) ∧ MainOnly s t := by
  rw [expSave_eq]
  exact saveBlock_runs h (blockLayout_exp x)

/-! ## Segments (R246) -/

theorem segmentStart_ok_iff {r r' : ExpRamp} {s t : State} :
    segmentStart r s = .ok r' t ↔
      (r.ramp.step ≠ 0 → AccOk s (asr (r.seq * r.rate) 16) ∧ AccOk s (wrapS32 (asr (r.seq * r.rate) 16) - r.ramp.value)) ∧
        r' = r.recompute ∧ t = s := by
  unfold segmentStart ExpRamp.recompute
  by_cases hstep : r.ramp.step = 0
  · simp [hstep, eq_comm]
  · rw [if_neg hstep, if_neg hstep]
    simp only [bind_ok_iff, acc32_ok_iff_accOk, pure_ok_iff]
    constructor
    · rintro ⟨_, _, ⟨hseq, rfl, rfl⟩, _, _, ⟨hd, rfl, rfl⟩, rfl, rfl⟩
      exact ⟨fun _ => ⟨hseq, hd⟩, rfl, rfl⟩
    · rintro ⟨hsums, rfl, rfl⟩
      obtain ⟨hseq, hd⟩ := hsums hstep
      exact ⟨_, t, ⟨hseq, rfl, rfl⟩, _, t, ⟨hd, rfl, rfl⟩, rfl, rfl⟩

/-! ## The whole command (R246) -/

/-- The segments of ENVMIXER. -/
def expLoop (s : State) (aux : Bool) (x : ExpState) : Act ExpState :=
  loopFrom (segmentCount s.eng.count.value) x (expSegment (expBufs s aux))

theorem scratchOnly_expLoop (s : State) (aux : Bool) (x : ExpState) : ScratchOnly (expLoop s aux x) :=
  .loopFrom fun _ _ => scratchOnly_expSegment _ _ _

theorem readWets_of_ready {aux : Bool} {s : State}
    (h : aux = true → s.eng.wetLeft.written = true ∧ s.eng.wetRight.written = true) :
    readWets aux s = .ok (expBufs s aux).wets s := by
  cases aux with
  | false => rfl
  | true =>
    obtain ⟨hwl, hwr⟩ := h rfl
    exact (bind_of_ok (readReg_written hwl)).trans (bind_of_ok (readReg_written hwr))

/-- The registers that INIT reads are written where the command asks for them. -/
theorem initWritten_of_ready {s : State} {aux : Bool} {block : Word} (hready : Ready (.envmixer true aux block) s) :
    InitWritten s := fun r hr => hready r (by simp [setupOf, hr])

/-- Where the setup is there, ENVMIXER reads it and changes nothing before its load. -/
theorem envmixer_apply {s : State} {init aux : Bool} {block : Word} (hready : Ready (.envmixer init aux block) s)
    (hstore : storable s (s.resolved block) 80) :
    envmixer init aux block s = (expLoad init (s.resolved block) >>= fun x => expLoop s aux x >>=
      expSave (s.resolved block)) s := by
  have hwritten (r : RegName) (hr : r ∈ setupOf (.envmixer init aux block)) := hready r hr
  have hbufs : BuffersWritten s := fun r hr => hwritten r (List.mem_append_left _ (List.mem_append_left _ hr))
  have hwets := readWets_of_ready (s := s) (aux := aux) fun haux =>
    ⟨hwritten .wetLeft (by simp [setupOf, haux]), hwritten .wetRight (by simp [setupOf, haux])⟩
  exact (bufferReads_bind hstore.1 hbufs _).trans (bind_of_ok hwets)

/-- From s by ENVMIXER to t: the sums of the start do not end the run, the segments end in u with y, and then main memory
alone changes, so that the block holds y. -/
structure ExpRun (s : State) (init aux : Bool) (block : Word) (y : ExpState) (u t : State) : Prop where
  start : expStartOk s init (s.resolved block)
  loop : expLoop s aux (expStart s init (s.resolved block)) s = .ok y u
  mainOnly : MainOnly u t
  fields : ∀ f ∈ expFields y, f.HeldBy t (s.resolved block)

section
variable {s u : State} {init aux : Bool} {block : Word} {y : ExpState}

theorem expLoad_ok_iff_of_ready (hready : Ready (.envmixer init aux block) s) (hstore : storable s (s.resolved block) 80)
    {x : ExpState} :
    expLoad init (s.resolved block) s = .ok x u ↔
      expStartOk s init (s.resolved block) ∧ x = expStart s init (s.resolved block) ∧ u = s :=
  expLoad_ok_iff (fun hinit => initWritten_of_ready (aux := aux) (block := block) (hinit ▸ hready)) hstore.2.1

/-- Where the setup is there and the start's sums and the segments do not end the run, ENVMIXER ends. -/
theorem exec_envmixer_of_loop (hready : Ready (.envmixer init aux block) s) (hstore : storable s (s.resolved block) 80)
    (hstart : expStartOk s init (s.resolved block))
    (hloop : expLoop s aux (expStart s init (s.resolved block)) s = .ok y u) :
    ∃ t, exec (.envmixer init aux block) s = .next t ∧ ExpRun s init aux block y u t := by
  have hopen : OpenToStores (s.resolved block) 80 u := by
    rw [(scratchOnly_expLoop _ _ _).smAlone hloop]
    exact openToStores_of_storable hstore
  obtain ⟨⟨⟩, t, hsave, hfields, hmain⟩ := expSave_runs hopen y
  refine ⟨t, ?_, hstart, hloop, hmain, hfields⟩
  rw [exec_envmixer, runAct_next_iff, envmixer_apply hready hstore,
    bind_of_ok ((expLoad_ok_iff_of_ready hready hstore).2 ⟨hstart, rfl, rfl⟩), bind_of_ok hloop]
  exact hsave

/-- A run of ENVMIXER that ends is one of its segments and a save. -/
theorem exec_envmixer_run {t : State} (h : exec (.envmixer init aux block) s = .next t) :
    ∃ y u, ExpRun s init aux block y u t := by
  have hready := ready_of_next h
  have hstore : storable s (s.resolved block) 80 := endingMeansItsBlockWasStorable _ s t block rfl h
  have hrun := runAct_next_iff.1 h
  rw [envmixer_apply hready hstore] at hrun
  obtain ⟨x, v, hload, hrun⟩ := bind_ok_iff.1 hrun
  obtain ⟨hstart, rfl, rfl⟩ := (expLoad_ok_iff_of_ready hready hstore).1 hload
  obtain ⟨y, u, hloop, -⟩ := bind_ok_iff.1 hrun
  obtain ⟨t', ht', hrun'⟩ := exec_envmixer_of_loop hready hstore hstart hloop
  obtain rfl : t = t' := by
    rw [h] at ht'
    injection ht'
  exact ⟨y, u, hrun'⟩

end

/-! ## What it computes -/

/-- The state of ENVMIXER after n segments. -/
def ExpState.after (x : ExpState) (n : Nat) : ExpState := { x with left := x.left.after n, right := x.right.after n }

/-- The channels of ENVMIXER, with each ramp's gain at sample p (R246). -/
def expChannels (b : MixBufs) (x : ExpState) : List Channel := b.channels x.dry x.wet x.left.gainAt x.right.gainAt

theorem ExpRamp.gainAt_segment (r : ExpRamp) (g : Nat) {j : Nat} (hj : j < 8) :
    r.gainAt (8 * g + j) = ((r.after g).recompute.ramp.after (j + 1)).gain := by
  unfold ExpRamp.gainAt
  rw [show (8 * g + j) / 8 = g by omega, show (8 * g + j) % 8 = j by omega]

theorem expSegments_mix {b : MixBufs} {x : ExpState} {n : Nat} {s : State} (h : n ≠ 0 → b.Even) (hl : x.left.ok s n)
    (hr : x.right.ok s n) :
    loopFrom n x (expSegment b) s = .ok (x.after n) (s.mixed b.inp (expChannels b x) (8 * n)) := by
  induction n with
  | zero => rfl
  | succ n ih =>
    have hinit := ih (fun _ => h (by omega)) (fun k hk => hl k (by omega)) (fun k hk => hr k (by omega))
    obtain ⟨hstartL, hstepsL⟩ := hl n (by omega)
    obtain ⟨hstartR, hstepsR⟩ := hr n (by omega)
    have hsegL : segmentStart (x.left.after n) (s.mixed b.inp (expChannels b x) (8 * n))
        = .ok (x.left.after n).recompute _ :=
      segmentStart_ok_iff.2 ⟨fun hstep => (hstartL hstep).imp accOk_mixed.2 accOk_mixed.2, rfl, rfl⟩
    have hsegR : segmentStart (x.right.after n) (s.mixed b.inp (expChannels b x) (8 * n))
        = .ok (x.right.after n).recompute _ :=
      segmentStart_ok_iff.2 ⟨fun hstep => (hstartR hstep).imp accOk_mixed.2 accOk_mixed.2, rfl, rfl⟩
    have hloop := rampLoop_mixes (q := 8 * n) (n := 8) (dry := x.dry) (wet := x.wet) (lv := x.left.gainAt)
      (rv := x.right.gainAt) (fun _ => h (by omega)) hstepsL hstepsR (fun j hj => x.left.gainAt_segment n hj)
      fun j hj => x.right.gainAt_segment n hj
    rw [loopFrom_succ, bind_of_ok hinit]
    exact (bind_of_ok hsegL).trans ((bind_of_ok hsegR).trans (bind_of_ok hloop))

section
variable {s : State} {init aux : Bool} {block : Word} (hready : Ready (.envmixer init aux block) s)
  (hstore : storable s (s.resolved block) 80)
  (heven : segmentCount s.eng.count.value ≠ 0 → s.inpAddr % 2 = 0 ∧ s.outAddr % 2 = 0 ∧ s.dryRightAddr % 2 = 0 ∧
    (aux = true → s.wetLeftAddr % 2 = 0 ∧ s.wetRightAddr % 2 = 0))
  (hstart : expStartOk s init (s.resolved block))
  (hl : (expStart s init (s.resolved block)).left.ok s (segmentCount s.eng.count.value))
  (hr : (expStart s init (s.resolved block)).right.ok s (segmentCount s.eng.count.value))
include hready hstore heven hstart hl hr

/-- ENVMIXER ends: scratch holds the mixed samples, and the block the state after them. -/
theorem exec_envmixer_ends :
    ∃ t, exec (.envmixer init aux block) s = .next t ∧
      t.sm = (s.mixed s.inpAddr (expChannels (expBufs s aux) (expStart s init (s.resolved block)))
        (8 * segmentCount s.eng.count.value)).sm ∧
      ∀ f ∈ expFields ((expStart s init (s.resolved block)).after (segmentCount s.eng.count.value)),
        f.HeldBy t (s.resolved block) := by
  have hbufs (h : segmentCount s.eng.count.value ≠ 0) : (expBufs s aux).Even := by
    obtain ⟨hinp, hdl, hdr, hwets⟩ := heven h
    refine ⟨hinp, ?_⟩
    cases aux with
    | false => simp [MixBufs.bases, expBufs, hdl, hdr]
    | true => simp [MixBufs.bases, expBufs, hdl, hdr, hwets]
  obtain ⟨t, ht, hrun⟩ := exec_envmixer_of_loop hready hstore hstart (expSegments_mix hbufs hl hr)
  exact ⟨t, ht, hrun.mainOnly.sm, hrun.fields⟩

end

@[simp] theorem ExpRamp.recompute_target (r : ExpRamp) : r.recompute.ramp.target = r.ramp.target := by
  unfold recompute
  split <;> rfl

@[simp] theorem ExpRamp.recompute_rate (r : ExpRamp) : r.recompute.rate = r.rate := by
  unfold recompute
  split <;> rfl

@[simp] theorem ExpRamp.after_target (r : ExpRamp) (n : Nat) : (r.after n).ramp.target = r.ramp.target := by
  induction n with
  | zero => rfl
  | succ n ih => simp [ExpRamp.after, ih]

@[simp] theorem ExpRamp.after_rate (r : ExpRamp) (n : Nat) : (r.after n).rate = r.rate := by
  induction n with
  | zero => rfl
  | succ n ih => simp [ExpRamp.after, ih]

/-- Settles O47: the fields of the saved block, whose targets and rates no segment has moved. -/
theorem envmixerCompletes : Obligations.EnvmixerCompletes := by
  intro s init aux block a n hready hstore heven hstart hl hr
  obtain ⟨t, ht, -, hfields⟩ := exec_envmixer_ends hready hstore heven hstart hl hr
  refine ⟨t, ht, ?_⟩
  simpa [expFields, BlockField.HeldBy, ExpState.after] using hfields

theorem segmentCount_le (count : Half) : 8 * segmentCount count ≤ 32768 := by
  have hcount : segmentCount count = (count.toNat + 15) / 16 * 16 / 16 := rfl
  omega

/-- Settles O48: with the buffers apart, the mixed samples are the old ones plus what the channels add. -/
theorem envmixerMixesByItsRamps : Obligations.EnvmixerMixesByItsRamps := by
  intro s init aux block a n x bytes hready hstore heven hstart hl hr hinpOut hinpDr houtDr hwetsApart
  obtain ⟨t, ht, hsm, -⟩ := exec_envmixer_ends hready hstore heven hstart hl hr
  refine ⟨t, ht, fun p hp => ?_⟩
  obtain ⟨hinp, hdl, hdr, hwets⟩ := heven (by omega)
  have hbytes : bytes = 2 * (8 * n) := by omega
  have hevens : ∀ c ∈ expChannels (expBufs s aux) x, c.base % 2 = 0 := by
    cases aux with
    | false => simp [expChannels, MixBufs.channels, expBufs, hdl, hdr]
    | true => simp [expChannels, MixBufs.channels, expBufs, hdl, hdr, hwets]
  have hapart : (s.inpAddr :: (expChannels (expBufs s aux) x).map (·.base)).Pairwise
      fun b c => apart b (2 * (8 * n)) c (2 * (8 * n)) := by
    rw [← hbytes, expChannels, map_base_channels]
    cases aux with
    | false => simp [MixBufs.bases, expBufs, hinpOut, hinpDr, houtDr]
    | true => simp [MixBufs.bases, expBufs, hinpOut, hinpDr, houtDr, hwetsApart]
  have hmixed := mixed_mixed (segmentCount_le _) hinp hevens hapart s (Nat.le_refl (8 * n))
  have hsample (c : Channel) (hc : c ∈ expChannels (expBufs s aux) x) :=
    (sample_of_sm hsm _).trans (hmixed.done c hc p hp)
  cases aux with
  | false => simpa [expChannels, MixBufs.channels, expBufs] using hsample
  | true => simpa [expChannels, MixBufs.channels, expBufs] using hsample

end Sys2Proof.Machine
end

section
/-! SUPPORT. ENVMIXER_NEAD (42_envmixer.md R250 to R252, R256): the state after each group of 8 samples, what its samples are
and how a second command goes on. -/

namespace Sys2Proof.Machine

/-! ## One sample (R251) -/

/-- The channels of the nead mixer, with the envelope values of each group (R251, R252). -/
def neadChannels (b : NeadBufs) (m : NeadMasks) (evs : Nat → Envs) : List Channel :=
  [⟨b.dl, fun p x => (neadSample m (evs (p / 8)) x).l⟩, ⟨b.dr, fun p x => (neadSample m (evs (p / 8)) x).r⟩,
    ⟨b.wl, fun p x => (neadSample m (evs (p / 8)) x).lw⟩, ⟨b.wr, fun p x => (neadSample m (evs (p / 8)) x).rw⟩]

/-- No sample access of the nead mixer is odd. -/
structure NeadBufs.Even (b : NeadBufs) : Prop where
  inp : b.inp % 2 = 0
  dl : b.dl % 2 = 0
  dr : b.dr % 2 = 0
  wl : b.wl % 2 = 0
  wr : b.wr % 2 = 0

theorem even_neadBufs (inp : Byte) (swap : Bool) (dl dr wl wr : Byte) : (neadBufs inp swap dl dr wl wr).Even := by
  constructor <;> simp only [neadBufs, neadAddr] <;> omega

theorem neadMix_even {b : NeadBufs} (h : b.Even) (m : NeadMasks) (evs : Nat → Envs) (p : Nat) (s : State) :
    neadMix b m (evs (p / 8)) p s
      = .ok () (s.mixedOnce p (s.sample (b.inp + 2 * p)) (neadChannels b m evs)) := by
  obtain ⟨hinp, hdl, hdr, hwl, hwr⟩ := h
  unfold neadMix
  rw [bind_of_ok (d16_even (by omega) s)]
  refine (bind_of_ok (accumulate_even (by omega) _ _)).trans ((bind_of_ok (accumulate_even (by omega) _ _)).trans ?_)
  exact (bind_of_ok (accumulate_even (by omega) _ _)).trans (accumulate_even (by omega) _ _)

/-! ## Groups (R252) -/

/-- A register file with the three envelope values just written. -/
def Engine.withEnvs (e : Engine) (ev : Envs) : Engine :=
  { e with envValue0 := .of ev.e0, envValue1 := .of ev.e1, envValue2 := .of ev.e2 }

/-- Envelope values written over earlier ones. -/
theorem storeEnvs_withEnvs (s : State) (e : Engine) (old new : Envs) :
    storeEnvs new { s with eng := e.withEnvs old } = .ok () { s with eng := e.withEnvs new } := rfl

/-- The steps of the three envelopes. -/
def State.envSteps (s : State) : Envs := ⟨s.eng.envStep0.value, s.eng.envStep1.value, s.eng.envStep2.value⟩

theorem mixedOnce_set_eng (s : State) (e : Engine) (p : Nat) (x : Int) (cs : List Channel) :
    State.mixedOnce { s with eng := e } p x cs = { s.mixedOnce p x cs with eng := e } := by
  induction cs generalizing s with
  | nil => rfl
  | cons c cs ih => exact ih (s.added (c.base + 2 * p) (c.adds p x))

theorem envsAt_zero (s : State) : s.envsAt 0 = ⟨s.eng.envValue0.value, s.eng.envValue1.value, s.eng.envValue2.value⟩ := by
  simp [State.envsAt]

theorem advance_envsAt (s : State) (g : Nat) : (s.envsAt g).advance s.envSteps = s.envsAt (g + 1) := by
  simp only [State.envsAt, Envs.advance, State.envSteps, BitVec.ofNat_add, add_mul, add_assoc]
  simp

/-- The state after g groups: samples mixed, and the envelope values of group g written back. -/
def State.neadAfter (s : State) (b : NeadBufs) (m : NeadMasks) (g : Nat) : State :=
  { s.mixed b.inp (neadChannels b m s.envsAt) (8 * g) with eng := s.eng.withEnvs (s.envsAt g) }

theorem neadAfter_zero {s : State} {b : NeadBufs} {m : NeadMasks} (hs : s.eng.withEnvs (s.envsAt 0) = s.eng) :
    s.neadAfter b m 0 = s := by
  unfold State.neadAfter
  rw [hs, Nat.mul_zero, State.mixed]

section
variable {b : NeadBufs} {m : NeadMasks} {s : State} (h : b.Even)
include h

/-- The first n samples of group g, in a state whose registers may be any. -/
theorem neadSamples_mix (g : Nat) {n : Nat} (hn : n ≤ 8) (e : Engine) :
    loop n (fun i => neadMix b m (s.envsAt g) (8 * g + i))
        { s.mixed b.inp (neadChannels b m s.envsAt) (8 * g) with eng := e }
      = .ok () { s.mixed b.inp (neadChannels b m s.envsAt) (8 * g + n) with eng := e } := by
  induction n with
  | zero => rfl
  | succ n ih =>
    have hgroup : s.envsAt g = s.envsAt ((8 * g + n) / 8) := by rw [show (8 * g + n) / 8 = g by omega]
    rw [loop_succ, bind_of_ok (ih (by omega)), hgroup, neadMix_even h, mixedOnce_set_eng]
    rfl

theorem neadGroups_mix (hs : s.eng.withEnvs (s.envsAt 0) = s.eng) (n : Nat) :
    loopFrom n (s.envsAt 0) (neadGroup b m s.envSteps) s = .ok (s.envsAt n) (s.neadAfter b m n) := by
  induction n with
  | zero => rw [neadAfter_zero hs, loopFrom_zero]
  | succ n ih =>
    rw [loopFrom_succ, bind_of_ok ih]
    unfold neadGroup State.neadAfter
    rw [bind_of_ok (neadSamples_mix h n (Nat.le_refl 8) _), advance_envsAt, Nat.mul_succ]
    exact bind_of_ok (storeEnvs_withEnvs _ _ _ _)

end

/-! ## The whole command (R252) -/

/-- The masks of the command's flags (R250). -/
def neadMasks (xorWl xorWr xorDl xorDr : Bool) : NeadMasks := ⟨xorMask xorDl, xorMask xorDr, xorMask xorWl, xorMask xorWr⟩

theorem groupCount_eq (count : Byte) : groupCount count = (count.toNat + 7) / 8 := Nat.mul_div_cancel _ (by decide)

/-- The six envelope registers are written. -/
structure EnvsWritten (s : State) : Prop where
  value : ∀ c, (s.eng.envValue c).written = true
  step : ∀ c, (s.eng.envStep c).written = true

theorem EnvsWritten.of_ready {s : State} {inp count : Byte} {swap xorWl xorWr xorDl xorDr : Bool} {dl dr wl wr : Byte}
    (h : Ready (.envmixerNead inp count swap xorWl xorWr xorDl xorDr dl dr wl wr) s) : EnvsWritten s :=
  ⟨fun c => h (.envValue c) (by cases c <;> simp [setupOf]), fun c => h (.envStep c) (by cases c <;> simp [setupOf])⟩

theorem Reg.of_value_of_written {w : Nat} {r : Reg w} (h : r.written = true) : Reg.of r.value = r := by
  cases r
  cases h
  rfl

theorem EnvsWritten.withEnvs {s : State} (h : EnvsWritten s) : s.eng.withEnvs (s.envsAt 0) = s.eng := by
  have h0 : Reg.of s.eng.envValue0.value = s.eng.envValue0 := Reg.of_value_of_written (h.value .c0)
  have h1 : Reg.of s.eng.envValue1.value = s.eng.envValue1 := Reg.of_value_of_written (h.value .c1)
  have h2 : Reg.of s.eng.envValue2.value = s.eng.envValue2 := Reg.of_value_of_written (h.value .c2)
  simp only [envsAt_zero, Engine.withEnvs, h0, h1, h2]

/-- Where the registers are written, the command reads them and runs its groups. -/
theorem envmixerNead_apply {s : State} (h : EnvsWritten s) (inp count : Byte) (swap xorWl xorWr xorDl xorDr : Bool)
    (dl dr wl wr : Byte) :
    envmixerNead inp count swap xorWl xorWr xorDl xorDr dl dr wl wr s
      = (loopFrom (groupCount count) (s.envsAt 0)
          (neadGroup (neadBufs inp swap dl dr wl wr) (neadMasks xorWl xorWr xorDl xorDr) s.envSteps)
          >>= fun _ => pure ()) s := by
  obtain ⟨hvalue, hstep⟩ := h
  rw [envsAt_zero]
  refine (bind_of_ok (readReg_written (hvalue .c0))).trans ((bind_of_ok (readReg_written (hvalue .c1))).trans ?_)
  refine (bind_of_ok (readReg_written (hvalue .c2))).trans ((bind_of_ok (readReg_written (hstep .c0))).trans ?_)
  exact (bind_of_ok (readReg_written (hstep .c1))).trans (bind_of_ok (readReg_written (hstep .c2)))

theorem exec_envmixerNead (inp count : Byte) (swap xorWl xorWr xorDl xorDr : Bool) (dl dr wl wr : Byte) (s : State) :
    exec (.envmixerNead inp count swap xorWl xorWr xorDl xorDr dl dr wl wr) s
      = runAct (envmixerNead inp count swap xorWl xorWr xorDl xorDr dl dr wl wr) s := rfl

theorem exec_envmixerNead_ends {s : State} (h : EnvsWritten s) (inp count : Byte) (swap xorWl xorWr xorDl xorDr : Bool)
    (dl dr wl wr : Byte) :
    exec (.envmixerNead inp count swap xorWl xorWr xorDl xorDr dl dr wl wr) s
      = .next (s.neadAfter (neadBufs inp swap dl dr wl wr) (neadMasks xorWl xorWr xorDl xorDr)
          ((count.toNat + 7) / 8)) := by
  rw [exec_envmixerNead, runAct_next_iff, envmixerNead_apply h,
    bind_of_ok (neadGroups_mix (even_neadBufs inp swap dl dr wl wr) h.withEnvs _), groupCount_eq]
  rfl

theorem neadAfter_smAndEnvs (s : State) (b : NeadBufs) (m : NeadMasks) (g : Nat) :
    s.neadAfter b m g = { s with sm := (s.neadAfter b m g).sm, eng := s.eng.withEnvs (s.envsAt g) } := by
  unfold State.neadAfter
  rw [mixed_smAlone]

/-- Settles O53: the state after the groups, and the frame of the command's piece. -/
theorem neadCompletesInItsFrame : Obligations.NeadCompletesInItsFrame := by
  intro s inp count swap xorWl xorWr xorDl xorDr dl dr wl wr hready
  have hnext := exec_envmixerNead_ends (.of_ready hready) inp count swap xorWl xorWr xorDl xorDr dl dr wl wr
  refine ⟨_, hnext, neadAfter_smAndEnvs _ _ _ _, ?_⟩
  have hk := envmixerNead_within inp count swap xorWl xorWr xorDl xorDr dl dr wl wr s
  rw [KeepsAt, leaves_of_ok (runAct_next_iff.1 hnext), groupCount_eq] at hk
  exact hk.scratch

/-! ## What the samples are (R251) -/

/-- One's complement where the flag is set, as R251's XOR with 0xFFFF gives it. -/
def flipped (flag : Bool) (v : Int) : Int := if flag then -v - 1 else v

theorem toInt_xor_xorMask (flag : Bool) (v : Half) : (v ^^^ xorMask flag).toInt = flipped flag v.toInt := by
  cases flag with
  | false => simp [xorMask, flipped]
  | true =>
    have hnot : v ^^^ xorMask true = ~~~v := BitVec.xor_allOnes
    have hlt := v.isLt
    rw [hnot, BitVec.toInt_eq_toNat_cond, BitVec.toInt_eq_toNat_cond, BitVec.toNat_not, flipped]
    simp only [if_true]
    omega

/-- A 16-bit sample scaled by a 16-bit fraction stays a 16-bit sample. -/
theorem neadScale_eq {x : Int} (h1 : -32768 ≤ x) (h2 : x ≤ 32767) (ev : Half) (flag : Bool) :
    neadScale x ev (xorMask flag) = flipped flag (x * ev.toNat / 65536) := by
  have hev0 : (0 : Int) ≤ ev.toNat := Int.natCast_nonneg _
  have hev : (ev.toNat : Int) ≤ 65535 := by omega
  have hlow : -32768 ≤ x * ev.toNat / 65536 := by
    have : -32768 * 65535 ≤ x * (ev.toNat : Int) := by nlinarith
    omega
  have hhigh : x * ev.toNat / 65536 ≤ 32767 := by
    have : x * (ev.toNat : Int) ≤ 32767 * 65535 := by nlinarith
    omega
  have hscaled : (lo16 (asr (x * ev.toNat) 16)).toInt = x * ev.toNat / 65536 := toS16_of_bounds hlow hhigh
  rw [neadScale, toInt_xor_xorMask, hscaled]

theorem neadScale_bounds (x : Int) (ev mask : Half) : -32768 ≤ neadScale x ev mask ∧ neadScale x ev mask ≤ 32767 :=
  half_toInt_bounds _

/-- What the nead mixer adds for a 16-bit input sample (R251). -/
theorem neadSample_eq {x : Int} (h1 : -32768 ≤ x) (h2 : x ≤ 32767) (ev : Envs) (xorWl xorWr xorDl xorDr : Bool) :
    neadSample (neadMasks xorWl xorWr xorDl xorDr) ev x =
      { l := flipped xorDl (x * ev.e0.toNat / 65536)
        r := flipped xorDr (x * ev.e1.toNat / 65536)
        lw := flipped xorWl (flipped xorDl (x * ev.e0.toNat / 65536) * ev.e2.toNat / 65536)
        rw := flipped xorWr (flipped xorDr (x * ev.e1.toNat / 65536) * ev.e2.toNat / 65536) } := by
  have hl := neadScale_eq h1 h2 ev.e0 xorDl
  have hr := neadScale_eq h1 h2 ev.e1 xorDr
  obtain ⟨hl1, hl2⟩ := hl ▸ neadScale_bounds x ev.e0 (xorMask xorDl)
  obtain ⟨hr1, hr2⟩ := hr ▸ neadScale_bounds x ev.e1 (xorMask xorDr)
  simp only [neadSample, neadMasks, hl, hr, neadScale_eq hl1 hl2, neadScale_eq hr1 hr2]

/-- Settles O54: with the buffers apart, the mixed samples are the old ones plus what the channels add. -/
theorem neadMixesByItsEnvelopes : Obligations.NeadMixesByItsEnvelopes := by
  intro s inp count swap xorWl xorWr xorDl xorDr dl dr wl wr n wlDest wrDest hready hapart
  refine ⟨_, exec_envmixerNead_ends (.of_ready hready) inp count swap xorWl xorWr xorDl xorDr dl dr wl wr, ?_⟩
  intro p hp ev flip x l r
  obtain ⟨hinp, hdl, hdr, hwl, hwr⟩ := even_neadBufs inp swap dl dr wl wr
  have hmixed := mixed_mixed (n := n) (inp := (neadBufs inp swap dl dr wl wr).inp)
    (cs := neadChannels (neadBufs inp swap dl dr wl wr) (neadMasks xorWl xorWr xorDl xorDr) s.envsAt)
    (by omega) hinp (by simp [neadChannels, hdl, hdr, hwl, hwr]) hapart s (Nat.le_refl n)
  obtain ⟨hx1, hx2⟩ := sample_bounds s ((neadBufs inp swap dl dr wl wr).inp + 2 * p)
  have hsample := fun c hc => hmixed.done c hc p hp
  simp only [neadChannels, List.mem_cons, List.not_mem_nil, or_false, forall_eq_or_imp, forall_eq,
    neadSample_eq hx1 hx2] at hsample
  exact hsample

/-! ## Going on (R256) -/

/-- The buffers, all moved d bytes on. -/
def NeadBufs.moved (b : NeadBufs) (d : Nat) : NeadBufs := ⟨b.inp + d, b.dl + d, b.dr + d, b.wl + d, b.wr + d⟩

theorem neadGroup_moved (b : NeadBufs) (m : NeadMasks) (es : Envs) (g1 : Nat) :
    neadGroup (b.moved (16 * g1)) m es = fun g => neadGroup b m es (g1 + g) := by
  funext g ev
  have haddr (c i : Nat) : c + 16 * g1 + 2 * (8 * g + i) = c + 2 * (8 * (g1 + g) + i) := by omega
  simp only [neadGroup, neadMix, NeadBufs.moved, haddr]

theorem neadAddr_add {field : Byte} {g : Nat} (h : field.toNat + g ≤ 255) :
    neadAddr (field + BitVec.ofNat 8 g) = neadAddr field + 16 * g := by
  simp only [neadAddr, BitVec.toNat_add, BitVec.toNat_ofNat]
  omega

theorem neadBufs_add {inp dl dr wl wr : Byte} {g : Nat} (swap : Bool) (hinp : inp.toNat + g ≤ 255)
    (hdl : dl.toNat + g ≤ 255) (hdr : dr.toNat + g ≤ 255) (hwl : wl.toNat + g ≤ 255) (hwr : wr.toNat + g ≤ 255) :
    neadBufs (inp + BitVec.ofNat 8 g) swap (dl + BitVec.ofNat 8 g) (dr + BitVec.ofNat 8 g) (wl + BitVec.ofNat 8 g)
      (wr + BitVec.ofNat 8 g) = (neadBufs inp swap dl dr wl wr).moved (16 * g) := by
  cases swap <;> simp [neadBufs, NeadBufs.moved, neadAddr_add, *]

theorem envSteps_neadAfter (s : State) (b : NeadBufs) (m : NeadMasks) (g : Nat) :
    (s.neadAfter b m g).envSteps = s.envSteps := rfl

theorem envsAt_zero_neadAfter (s : State) (b : NeadBufs) (m : NeadMasks) (g : Nat) :
    (s.neadAfter b m g).envsAt 0 = s.envsAt g := envsAt_zero _

theorem EnvsWritten.neadAfter {s : State} (h : EnvsWritten s) (b : NeadBufs) (m : NeadMasks) (g : Nat) :
    EnvsWritten (s.neadAfter b m g) where
  value c := by cases c <;> rfl
  step c := by cases c <;> [exact h.step .c0; exact h.step .c1; exact h.step .c2]

theorem groupCount_ofNat {g : Nat} (h : g ≤ 31) : groupCount (BitVec.ofNat 8 (8 * g)) = g := by
  rw [groupCount_eq, BitVec.toNat_ofNat]
  omega

/-- Settles O55: the groups of the whole command are those of the first and, with every buffer moved on, of the second. -/
theorem neadEnvelopesPersist : Obligations.NeadEnvelopesPersist := by
  intro s t g1 g2 inp swap xorWl xorWr xorDl xorDr dl dr wl wr hg hinp hdl hdr hwl hwr hwhole
  have hw : EnvsWritten s := .of_ready (ready_of_next hwhole)
  have hloop := neadGroups_mix (m := neadMasks xorWl xorWr xorDl xorDr) (even_neadBufs inp swap dl dr wl wr)
    hw.withEnvs g1
  have hfirst := exec_envmixerNead_ends hw inp (BitVec.ofNat 8 (8 * g1)) swap xorWl xorWr xorDl xorDr dl dr wl wr
  rw [← groupCount_eq, groupCount_ofNat (by omega)] at hfirst
  refine ⟨_, hfirst, ?_⟩
  rw [exec_envmixerNead, runAct_next_iff, envmixerNead_apply hw, groupCount_ofNat hg, loopFrom_add, act_bind_assoc,
    bind_of_ok hloop] at hwhole
  rw [exec_envmixerNead, runAct_next_iff, envmixerNead_apply (hw.neadAfter _ _ _), groupCount_ofNat (by omega),
    envsAt_zero_neadAfter, envSteps_neadAfter, neadBufs_add swap hinp hdl hdr hwl hwr, neadGroup_moved]
  exact hwhole

end Sys2Proof.Machine
end

section
/-! SUPPORT. Persistence of the linear mixer (42_envmixer.md R254): its save block loads back what was saved, and a second
command with every buffer moved on runs the samples that are left. -/

namespace Sys2Proof.Machine

/-! ## Commands with other buffer registers -/

theorem isWritten_setCount (s : State) (c d : Half) (r : RegName) :
    (s.setCount c).eng.isWritten r = (s.setCount d).eng.isWritten r := by
  cases r <;> rfl

/-- The count's own register is always written anew. -/
theorem ready_setCount {s : State} {i : Instr} {c : Half} (h : Ready i (s.setCount c)) (d : Half) :
    Ready i (s.setCount d) := fun r hr => (isWritten_setCount s d c r).trans (h r hr)

/-- The state after SETBUFF has set the count to n bytes. -/
abbrev State.withCount (s : State) (n : Nat) : State := s.setCount (BitVec.ofNat 16 n)

/-- The state after SETBUFF and SETBUFF.AUX have moved every buffer d bytes on and set the count to n bytes. -/
abbrev State.movedOn (s : State) (d n : Nat) : State := s.shiftBuffers (BitVec.ofNat 16 d) (BitVec.ofNat 16 n)

theorem sameControl_setCount (s : State) (c : Half) (m : Mem) : SameControl s { s.setCount c with sm := m } :=
  ⟨rfl, rfl, rfl, rfl, rfl, rfl⟩

theorem sameControl_shiftBuffers (s : State) (d n : Half) : SameControl s (s.shiftBuffers d n) :=
  ⟨rfl, rfl, rfl, rfl, rfl, rfl⟩

/-- SETBUFF and SETBUFF.AUX write every register that a mixer with INIT clear reads. -/
theorem buffers_written_shiftBuffers (s : State) (d n : Half) {r : RegName}
    (hr : r ∈ [RegName.inp, .out, .count, .dryRight, .wetLeft, .wetRight]) :
    (s.shiftBuffers d n).eng.isWritten r = true := by
  simp only [List.mem_cons, List.not_mem_nil, or_false] at hr
  rcases hr with rfl | rfl | rfl | rfl | rfl | rfl <;> rfl

theorem storable_congr {s t : State} {a n : Nat} (h : SameControl s t) : storable t a n ↔ storable s a n := by
  unfold storable
  rw [h.params, h.cp, h.cend]

theorem resolved_congr {s t : State} (h : SameControl s t) (w : Word) : t.resolved w = s.resolved w := by
  unfold State.resolved
  rw [h.params]

theorem expBufs_movedOn (s : State) (aux : Bool) {d : Nat} (hd : d < 65536) (n : Nat) :
    expBufs (s.movedOn d n) aux = (expBufs s aux).moved d := by
  have hadd (v : Half) : (v + BitVec.ofNat 16 d).toNat = (v.toNat + d) % 65536 := by
    rw [BitVec.toNat_add, BitVec.toNat_ofNat, Nat.mod_eq_of_lt hd]
  cases aux <;>
    simp [expBufs, MixBufs.moved, State.shiftBuffers, State.inpAddr, State.outAddr, State.dryRightAddr,
      State.wetLeftAddr, State.wetRightAddr, hadd]

/-- A command that ran on s with another count and then saved its block: what a second command finds. -/
structure SavedAfter (s first : State) (sm : Mem) : Prop where
  control : SameControl s first
  sm : first.sm = sm
  bufs : ∀ aux, expBufs first aux = expBufs s aux

theorem SavedAfter.of_mainOnly {s first : State} {c : Half} {sm : Mem}
    (h : MainOnly { s.setCount c with sm := sm } first) : SavedAfter s first sm where
  control := (sameControl_setCount s c sm).trans h.control
  sm := h.sm
  bufs aux := by
    unfold expBufs State.inpAddr State.outAddr State.dryRightAddr State.wetLeftAddr State.wetRightAddr
    rw [h.eng]
    rfl

theorem scratch_of_sm {s t : State} (h : t.sm = s.sm) : SameScratch s t := fun a => by
  unfold State.scratch
  rw [h]

/-- A whole run, and a first and a second one, that all change main memory in one block alone and leave the same scratch
and the same fields there. -/
theorem SavedAfter.agrees {s first second whole : State} {sm : Mem} {a d n : Nat} {us : List Nat} {fs : List BlockField}
    {block : Word} (h : SavedAfter s first sm) (ha : s.resolved block = a) (hcovers : CoversBlock 80 us fs)
    (hwhole : SameMainOutside (inMain a 80) s whole) (hfirst : SameMainOutside (inMain a 80) s first)
    (hsecond : SameMainOutside (inMain ((first.movedOn d n).resolved block) 80) (first.movedOn d n) second)
    (hsm : second.sm = whole.sm) (hwf : ∀ f ∈ fs, f.HeldBy whole a) (hsf : ∀ f ∈ fs, f.HeldBy second a) :
    SameScratch whole second ∧ (∀ o, o < 80 → o ∉ us → second.mm.read (a + o) = whole.mm.read (a + o)) ∧
      SameMainOutside (inMain a 80) whole second := by
  refine ⟨scratch_of_sm hsm, hcovers.read_eq hwf hsf, fun b hb => ?_⟩
  rw [resolved_congr (h.control.trans (sameControl_shiftBuffers first _ _)), ha] at hsecond
  calc second.mm.read b = first.mm.read b := hsecond b hb
    _ = s.mm.read b := hfirst b hb
    _ = whole.mm.read b := (hwhole b hb).symm

/-! ## Loading back what was saved -/

theorem fitsS32_iff {v : Int} : fitsS32 v = true ↔ -2147483648 ≤ v ∧ v ≤ 2147483647 := by simp [fitsS32]

theorem lo32_toInt_of_fits {v : Int} (h : fitsS32 v = true) : (lo32 v).toInt = v := wrapS32_of_fits h

theorem fitsS32_word (v : Word) : fitsS32 v.toInt = true := fitsS32_iff.2 (word_toInt_bounds v)

theorem fitsS32_wrapS32 (v : Int) : fitsS32 (wrapS32 v) = true := fitsS32_word _

theorem fitsS32_shl (v : Half) : fitsS32 (shl v.toInt 16) = true := by
  obtain ⟨h1, h2⟩ := half_toInt_bounds v
  have hshl : shl v.toInt 16 = v.toInt * 65536 := rfl
  exact fitsS32_iff.2 (by omega)

/-- The registers of a linear ramp that its save block holds whole: 32-bit value and step, and a target with zero low 16
bits (R248). -/
structure Ramp.Saves (r : Ramp) : Prop where
  value : fitsS32 r.value = true
  step : fitsS32 r.step = true
  target : ∃ h : Half, r.target = shl h.toInt 16

theorem Ramp.Saves.next {r : Ramp} (h : r.Saves) : r.next.Saves := by
  obtain ⟨hvalue, hstep, w, hw⟩ := h
  obtain ⟨-, hs⟩ | ⟨-, hs⟩ := r.settle_cases (wrapS32 (r.value + r.step)) <;> rw [Ramp.next, hs]
  · exact ⟨hw ▸ fitsS32_shl w, rfl, w, hw⟩
  · exact ⟨fitsS32_wrapS32 _, hstep, w, hw⟩

theorem Ramp.Saves.after {r : Ramp} (h : r.Saves) (n : Nat) : (r.after n).Saves := by
  induction n with
  | zero => exact h
  | succ n ih => exact ih.next

theorem targetHalf_toInt {r : Ramp} (h : r.Saves) : shl (targetHalf r.target).toInt 16 = r.target := by
  obtain ⟨-, -, w, hw⟩ := h
  have hasr : asr (shl w.toInt 16) 16 = w.toInt := Int.mul_ediv_cancel _ (by decide)
  rw [hw, targetHalf, hasr, lo16_toInt]

/-- What the linear save block holds whole. -/
structure LinState.Saves (x : LinState) : Prop where
  wet : -32768 ≤ x.wet ∧ x.wet ≤ 32767
  dry : -32768 ≤ x.dry ∧ x.dry ≤ 32767
  left : x.ramps.1.Saves
  right : x.ramps.2.Saves

theorem linRamp_saves (vol target : Half) (rate : Word) : (linRamp vol target rate).Saves where
  value := fitsS32_shl vol
  step := by
    obtain ⟨h1, h2⟩ := word_toInt_bounds rate
    have hstep : (linRamp vol target rate).step.natAbs = rate.toInt.natAbs / 8 := Int.natAbs_tdiv _ _
    exact fitsS32_iff.2 (by omega)
  target := ⟨target, rfl⟩

theorem linStart_saves (s : State) (init : Bool) (a : Nat) : (linStart s init a).Saves := by
  unfold linStart
  cases init with
  | true => exact ⟨half_toInt_bounds _, half_toInt_bounds _, linRamp_saves _ _ _, linRamp_saves _ _ _⟩
  | false =>
    exact ⟨half_toInt_bounds _, half_toInt_bounds _, ⟨fitsS32_word _, fitsS32_word _, _, rfl⟩,
      ⟨fitsS32_word _, fitsS32_word _, _, rfl⟩⟩

/-- A block that holds a state's fields is loaded as that state. -/
theorem linStart_of_fields {s : State} {a : Nat} {x : LinState} (hx : x.Saves)
    (h : ∀ f ∈ linFields x, f.HeldBy s a) : linStart s false a = x := by
  obtain ⟨wet, dry, ⟨vl, tl, sl⟩, ⟨vr, tr, sr⟩⟩ := x
  obtain ⟨⟨hw1, hw2⟩, ⟨hd1, hd2⟩, hl, hr⟩ := hx
  have hwet : (lo16 wet).toInt = wet := toS16_of_bounds hw1 hw2
  have hdry : (lo16 dry).toInt = dry := toS16_of_bounds hd1 hd2
  have htl := targetHalf_toInt hl
  have htr := targetHalf_toInt hr
  simp only [linFields, List.forall_mem_cons, BlockField.HeldBy] at h
  obtain ⟨h2, h6, h10, h14, h16, h20, h32, h36, -⟩ := h
  simp only [linStart, h2, h6, h10, h14, h16, h20, h32, h36, hwet, hdry, htl, htr, lo32_toInt_of_fits hl.value,
    lo32_toInt_of_fits hl.step, lo32_toInt_of_fits hr.value, lo32_toInt_of_fits hr.step]
  rfl

/-! ## The split (R254) -/

theorem linCount_ofNat {n : Nat} (h : 2 * n < 65536) : linCount (BitVec.ofNat 16 (2 * n)) = n := by
  unfold linCount
  rw [BitVec.toNat_ofNat, alignUp_eq _ 2 n (by decide) (by omega) (by omega)]
  omega

theorem linStart_setCount (s : State) (c : Half) (init : Bool) (a : Nat) :
    linStart (s.setCount c) init a = linStart s init a := by
  cases init <;> rfl

/-- The samples of a second command with every buffer 2n bytes on are those from n on (R254). -/
theorem linLoop_movedOn {s t : State} (hbufs : linBufs t = linBufs s) {n m : Nat} (hn : 2 * n < 65536)
    (hm : 2 * m < 65536) (y : LinState) :
    linLoop (t.movedOn (2 * n) (2 * m)) y
      = loopFrom m y.ramps fun p => mixerSample (linBufs s) y.dry y.wet (n + p) := by
  have hmoved : linBufs (t.movedOn (2 * n) (2 * m)) = (linBufs s).moved (2 * n) :=
    (expBufs_movedOn t true hn _).trans (congrArg (MixBufs.moved · _) hbufs)
  unfold linLoop
  rw [hmoved, mixerSample_moved]
  congr 1
  exact linCount_ofNat hm

theorem linLoop_withCount (s : State) {n : Nat} (hn : 2 * n < 65536) (x : LinState) :
    linLoop (s.withCount (2 * n)) x
      = loopFrom n x.ramps (mixerSample (linBufs s) x.dry x.wet) := by
  unfold linLoop
  congr 1
  exact linCount_ofNat hn

section
variable {s : State} {block : Word} (hstore : storable s (s.resolved block) 80)
include hstore

/-- The first command: samples that end from another count's state end from its own, and the block holds what they
leave. -/
theorem linFirst_ends {init : Bool} {c d : Half} {rs : Ramp × Ramp} {u : State}
    (hready : Ready (.envmixerLin init block) (s.setCount c))
    (hloop : linLoop (s.setCount d) (linStart s init (s.resolved block)) (s.setCount c) = .ok rs u) :
    ∃ first, exec (.envmixerLin init block) (s.setCount d) = .next first ∧ SavedAfter s first u.sm ∧
      ∀ f ∈ linFields { linStart s init (s.resolved block) with ramps := rs }, f.HeldBy first (s.resolved block) := by
  have hown := scratchOnly_linLoop _ _ hloop (s.setCount d) rfl rfl
  rw [← linStart_setCount s d] at hown
  obtain ⟨first, hfirst, hrun⟩ := exec_envmixerLin_of_loop (ready_setCount hready d) hstore hown
  refine ⟨first, hfirst, .of_mainOnly hrun.mainOnly, ?_⟩
  rw [← linStart_setCount s d]
  exact hrun.fields

/-- The second command: m samples from n on that end after the first command's own end after its save. -/
theorem linSecond_ends {n m : Nat} {y : LinState} {rs : Ramp × Ramp} {first t u : State} (hn : 2 * n < 65536)
    (hm : 2 * m < 65536) (hsaved : SavedAfter s first t.sm) (hy : y.Saves)
    (hfields : ∀ f ∈ linFields y, f.HeldBy first (s.resolved block)) (ht : t.params = s.params)
    (hloop : loopFrom m y.ramps (fun p => mixerSample (linBufs s) y.dry y.wet (n + p)) t = .ok rs u) :
    ∃ second, exec (.envmixerLin false block) (first.movedOn (2 * n) (2 * m))
        = .next second ∧ second.sm = u.sm ∧
      ∀ f ∈ linFields { y with ramps := rs }, f.HeldBy second (s.resolved block) := by
  have hcontrol := hsaved.control.trans
    (sameControl_shiftBuffers first (BitVec.ofNat 16 (2 * n)) (BitVec.ofNat 16 (2 * m)))
  have hblock := resolved_congr hcontrol block
  have hstart : linStart (first.movedOn (2 * n) (2 * m)) false (s.resolved block) = y :=
    linStart_of_fields hy fun f hf => (hfields f hf).congr fun _ _ => rfl
  have hloop : linLoop (first.movedOn (2 * n) (2 * m)) y t = .ok rs u := by
    rw [linLoop_movedOn (hsaved.bufs true) hn hm]
    exact hloop
  have hown := scratchOnly_linLoop _ _ hloop
    (first.movedOn (2 * n) (2 * m)) hsaved.sm (hsaved.control.params.trans ht.symm)
  obtain ⟨second, hsecond, hrun⟩ := exec_envmixerLin_of_loop (init := false) (block := block)
    (fun r hr => buffers_written_shiftBuffers _ _ _ (by simpa [setupOf] using hr))
    (hblock ▸ (storable_congr hcontrol).2 hstore) (by rw [hblock, hstart]; exact hown)
  have hfields := hrun.fields
  rw [hblock, hstart] at hfields
  exact ⟨second, hsecond, hrun.mainOnly.sm, hfields⟩

end

/-- Settles O52: the whole run's samples are the first n and then m more; the first command saves the state between them,
and the second loads it back. -/
theorem linearRampsPersist : Obligations.LinearRampsPersist := by
  intro s whole init block n m a hlt hwhole
  have hready := ready_of_next hwhole
  have hstore : storable s a 80 := endingMeansItsBlockWasStorable _ _ _ block rfl hwhole
  obtain ⟨rs, u, hloop, hwmain, hwfields⟩ := exec_envmixerLin_run hwhole
  rw [linStart_setCount] at hloop hwfields
  rw [linLoop_withCount s hlt, loopFrom_add] at hloop
  obtain ⟨rs1, t, hloop1, hloop2⟩ := bind_ok_iff.1 hloop
  rw [← linLoop_withCount s (show 2 * n < 65536 by omega)] at hloop1
  have ht : t.params = s.params := by rw [(scratchOnly_linLoop _ _).smAlone hloop1]; rfl
  have hy : LinState.Saves { linStart s init a with ramps := rs1 } := by
    obtain ⟨hwet, hdry, hl, hr⟩ := linStart_saves s init a
    obtain ⟨rfl, -, -⟩ := rampLoop_ok (q := id) hloop1
    exact ⟨hwet, hdry, hl.after _, hr.after _⟩
  obtain ⟨first, hfirst, hsaved, hfields1⟩ := linFirst_ends hstore hready hloop1
  obtain ⟨second, hsecond, hsm, hfields2⟩ := linSecond_ends hstore (by omega) (by omega) hsaved hy hfields1 ht hloop2
  exact ⟨first, second, hfirst, hsecond, hsaved.agrees rfl (coversBlock_lin _) (exec_envmixerLin_within hwhole).main
    (exec_envmixerLin_within hfirst).main (exec_envmixerLin_within hsecond).main (hsm.trans hwmain.sm.symm)
    hwfields hfields2⟩

end Sys2Proof.Machine
end

section
/-! SUPPORT. Persistence of the exponential mixer (42_envmixer.md R255): its save block loses only the ramps' steps, which a
segment's start recomputes, unless a ramp is stalled. -/

namespace Sys2Proof.Machine

/-! ## A ramp that its save block holds -/

/-- A ramp is at its target only with step 0, and with step 0 it is not below its target. -/
structure Ramp.Settled (r : Ramp) : Prop where
  step_of_at_target : r.value = r.target → r.step = 0
  target_le_of_still : r.step = 0 → r.target ≤ r.value

theorem Ramp.settled_settle (r : Ramp) (v : Int) : (r.settle v).Settled := by
  obtain ⟨-, h⟩ | ⟨hv, h⟩ := r.settle_cases v <;> rw [h]
  · exact ⟨fun _ => rfl, fun _ => Int.le_refl _⟩
  · unfold Ramp.reaches at hv
    constructor <;> simp only <;> omega

/-- Value and target are 32-bit, and the step from one to the other does not end the run. -/
structure Ramp.Reloads (s : State) (r : Ramp) : Prop where
  value : fitsS32 r.value = true
  target : fitsS32 r.target = true
  distance : AccOk s (r.target - r.value)

/-- A sum that does not end the run and does not wrap is itself. -/
theorem wrapS32_of_accOk {s : State} {v : Int} (h : AccOk s v) (hmode : s.params.accOverflow ≠ .wrap32) : wrapS32 v = v :=
  wrapS32_of_fits (h.resolve_left hmode)

/-- A step brings a ramp no further from its target than it was, or the sums wrap. -/
theorem Ramp.Reloads.next {s : State} {r : Ramp} (h : r.Reloads s) (hok : AccOk s (r.value + r.step)) :
    r.next.Reloads s := by
  obtain ⟨hvalue, htarget, hdist⟩ := h
  obtain ⟨-, hs⟩ | ⟨hv, hs⟩ := r.settle_cases (wrapS32 (r.value + r.step)) <;> rw [Ramp.next, hs]
  · exact ⟨htarget, htarget, .inr (by simp [fitsS32])⟩
  · refine ⟨fitsS32_wrapS32 _, htarget, ?_⟩
    by_cases hmode : s.params.accOverflow = .wrap32
    · exact .inl hmode
    · have hd := fitsS32_iff.1 (hdist.resolve_left hmode)
      rw [wrapS32_of_accOk hok hmode] at hv ⊢
      unfold Ramp.reaches at hv
      exact .inr (fitsS32_iff.2 (by simp only; omega))

theorem Ramp.Reloads.after {s : State} {r : Ramp} (h : r.Reloads s) {n : Nat} (hok : r.ok s n) : (r.after n).Reloads s := by
  induction n with
  | zero => exact h
  | succ n ih => exact (ih fun p hp => hok p (by omega)).next (hok n (by omega))

/-- An exponential ramp between two segments: its save block holds all of it but the step (R245). -/
structure ExpRamp.Reloads (s : State) (r : ExpRamp) : Prop where
  ramp : r.ramp.Reloads s
  settled : r.ramp.Settled
  rate : fitsS32 r.rate = true
  seq : fitsS32 r.seq = true

theorem ExpRamp.Reloads.after {s : State} {r : ExpRamp} (h : r.Reloads s) {n : Nat} (hok : r.ok s n) :
    (r.after n).Reloads s := by
  induction n with
  | zero => exact h
  | succ n ih =>
    obtain ⟨hramp, -, hrate, hseq⟩ := ih fun k hk => hok k (by omega)
    obtain ⟨-, hsteps⟩ := hok n (by omega)
    have hstart : (r.after n).recompute.ramp.Reloads s ∧ fitsS32 (r.after n).recompute.seq = true := by
      unfold recompute
      split
      · exact ⟨hramp, hseq⟩
      · exact ⟨⟨hramp.value, hramp.target, hramp.distance⟩, fitsS32_wrapS32 _⟩
    exact ⟨hstart.1.after hsteps, Ramp.settled_settle _ _, by simpa [ExpRamp.after] using hrate, hstart.2⟩

/-- The low 32 bits of the difference of two 32-bit numbers are 0 only where they are equal. -/
theorem wrapS32_sub_eq_zero {v w : Int} (hv : fitsS32 v = true) (hw : fitsS32 w = true) : wrapS32 (v - w) = 0 ↔ v = w := by
  have hv := fitsS32_iff.1 hv
  have hw := fitsS32_iff.1 hw
  unfold wrapS32
  rw [BitVec.toInt_ofInt]
  refine ⟨fun h => ?_, fun h => by rw [h, Int.sub_self]; rfl⟩
  obtain ⟨k, hk⟩ := Int.dvd_of_bmod_eq_zero h
  omega

theorem expRampStart_reloads {s : State} {value target rate seq : Int} (hvalue : fitsS32 value = true)
    (htarget : fitsS32 target = true) (hrate : fitsS32 rate = true) (hseq : fitsS32 seq = true)
    (hok : AccOk s (target - value)) : (expRampStart value target rate seq).Reloads s where
  ramp := ⟨hvalue, htarget, hok⟩
  settled := by
    have hzero := wrapS32_sub_eq_zero htarget hvalue
    exact ⟨fun h => hzero.2 h.symm, fun h => (hzero.1 h).le⟩
  rate := hrate
  seq := hseq

/-- What ENVMIXER's save block holds of its state. -/
structure ExpState.Reloads (s : State) (x : ExpState) : Prop where
  wet : -32768 ≤ x.wet ∧ x.wet ≤ 32767
  dry : -32768 ≤ x.dry ∧ x.dry ≤ 32767
  left : x.left.Reloads s
  right : x.right.Reloads s

theorem expStart_reloads {s : State} {init : Bool} {a : Nat} (h : expStartOk s init a) : (expStart s init a).Reloads s := by
  obtain ⟨-, hl, hr⟩ := h
  cases init with
  | true =>
    exact ⟨half_toInt_bounds _, half_toInt_bounds _,
      expRampStart_reloads (fitsS32_shl _) (fitsS32_shl _) (fitsS32_word _) (fitsS32_wrapS32 _) hl,
      expRampStart_reloads (fitsS32_shl _) (fitsS32_shl _) (fitsS32_word _) (fitsS32_wrapS32 _) hr⟩
  | false =>
    exact ⟨half_toInt_bounds _, half_toInt_bounds _,
      expRampStart_reloads (fitsS32_word _) (fitsS32_word _) (fitsS32_word _) (fitsS32_word _) hl,
      expRampStart_reloads (fitsS32_word _) (fitsS32_word _) (fitsS32_word _) (fitsS32_word _) hr⟩

/-! ## A ramp that is loaded back -/

/-- The ramp its save block gives back: the step anew from the distance to the target (R246). -/
def ExpRamp.reloaded (r : ExpRamp) : ExpRamp := expRampStart r.ramp.value r.ramp.target r.rate r.seq

/-- The state its save block gives back. -/
def ExpState.reloaded (x : ExpState) : ExpState := { x with left := x.left.reloaded, right := x.right.reloaded }

/-- A segment's start makes no difference between a ramp and its reload, unless the ramp is stalled (R255). -/
theorem segmentStart_reloaded {s : State} {r : ExpRamp} (h : r.Reloads s) (hs : ¬ r.ramp.stalled) :
    segmentStart r.reloaded = segmentStart r := by
  obtain ⟨⟨hvalue, htarget, -⟩, ⟨hat, hle⟩, -, -⟩ := h
  have hzero : r.reloaded.ramp.step = 0 ↔ r.ramp.target = r.ramp.value := wrapS32_sub_eq_zero htarget hvalue
  by_cases hstep : r.ramp.step = 0
  · have heq : r.ramp.target = r.ramp.value := by
      have := hle hstep
      unfold Ramp.stalled at hs
      omega
    have hsame : r.reloaded = r := by
      obtain ⟨⟨value, target, step⟩, rate, seq⟩ := r
      simp only at hstep
      rw [hstep, ← hzero.2 heq]
      rfl
    rw [hsame]
  · unfold segmentStart
    rw [if_neg hstep, if_neg fun h0 => hstep (hat (hzero.1 h0).symm)]
    rfl

theorem expSegment_reloaded {s : State} {x : ExpState} (h : x.Reloads s) (hl : ¬ x.left.ramp.stalled)
    (hr : ¬ x.right.ramp.stalled) (b : MixBufs) (g : Nat) : expSegment b g x.reloaded = expSegment b g x := by
  unfold expSegment
  rw [show segmentStart x.reloaded.left = _ from segmentStart_reloaded h.left hl,
    show segmentStart x.reloaded.right = _ from segmentStart_reloaded h.right hr]
  rfl

/-- A loop that runs at all looks at its start through its first round alone. -/
theorem loopFrom_succ_congr {β : Type} {f : Nat → β → Act β} {b c : β} (h : f 0 b = f 0 c) (n : Nat) :
    loopFrom (n + 1) b f = loopFrom (n + 1) c f := by
  induction n with
  | zero => exact h
  | succ n ih => rw [loopFrom_succ (n + 1), ih, ← loopFrom_succ]

/-- Segments from a reload end where those from the state itself do, with the same fields to save. -/
theorem expSegments_reloaded {s : State} {x y : ExpState} (h : x.Reloads s) (hl : ¬ x.left.ramp.stalled)
    (hr : ¬ x.right.ramp.stalled) {b : MixBufs} {k n : Nat} {t u : State}
    (hloop : loopFrom n x (fun g => expSegment b (k + g)) t = .ok y u) :
    ∃ z, loopFrom n x.reloaded (fun g => expSegment b (k + g)) t = .ok z u ∧ expFields z = expFields y := by
  cases n with
  | zero =>
    obtain ⟨rfl, rfl⟩ := pure_ok_iff.1 hloop
    exact ⟨x.reloaded, rfl, rfl⟩
  | succ n =>
    rw [← loopFrom_succ_congr (expSegment_reloaded h hl hr b (k + 0))] at hloop
    exact ⟨y, hloop, rfl⟩

/-- A block that holds a state's fields is loaded as its reload, and the sums of that do not end the run. -/
theorem expStart_of_fields {s t : State} {a : Nat} {x : ExpState} (hx : x.Reloads s)
    (h : ∀ f ∈ expFields x, f.HeldBy t a) : expStart t false a = x.reloaded := by
  obtain ⟨wet, dry, ⟨⟨vl, tl, sl⟩, rl, ql⟩, ⟨⟨vr, tr, sr⟩, rr, qr⟩⟩ := x
  obtain ⟨⟨hw1, hw2⟩, ⟨hd1, hd2⟩, hl, hr⟩ := hx
  have hwet : (lo16 wet).toInt = wet := toS16_of_bounds hw1 hw2
  have hdry : (lo16 dry).toInt = dry := toS16_of_bounds hd1 hd2
  simp only [expFields, List.forall_mem_cons, BlockField.HeldBy] at h
  obtain ⟨h2, h6, h8, h12, h16, h20, h24, h28, h32, h36, -⟩ := h
  simp only [expStart, h2, h6, h8, h12, h16, h20, h24, h28, h32, h36, hwet, hdry, lo32_toInt_of_fits hl.ramp.value,
    lo32_toInt_of_fits hl.ramp.target, lo32_toInt_of_fits hl.rate, lo32_toInt_of_fits hl.seq,
    lo32_toInt_of_fits hr.ramp.value, lo32_toInt_of_fits hr.ramp.target, lo32_toInt_of_fits hr.rate,
    lo32_toInt_of_fits hr.seq]
  rfl

theorem expStartOk_of_fields {s t : State} {a : Nat} {x : ExpState} (hx : x.Reloads s) (hp : t.params = s.params)
    (h : ∀ f ∈ expFields x, f.HeldBy t a) : expStartOk t false a := by
  have hl := hx.left.ramp.distance
  have hr := hx.right.ramp.distance
  unfold expStartOk AccOk
  rw [expStart_of_fields hx h, hp]
  exact ⟨nofun, hl, hr⟩

/-! ## The split (R255) -/

theorem segmentCount_ofNat {n : Nat} (h : 16 * n < 65536) : segmentCount (BitVec.ofNat 16 (16 * n)) = n := by
  unfold segmentCount
  rw [BitVec.toNat_ofNat, alignUp_eq _ 16 n (by decide) (by omega) (by omega)]
  omega

theorem expStart_setCount (s : State) (c : Half) (init : Bool) (a : Nat) :
    expStart (s.setCount c) init a = expStart s init a := by
  cases init <;> rfl

theorem expLoop_withCount (s : State) (aux : Bool) {n : Nat} (hn : 16 * n < 65536) (x : ExpState) :
    expLoop (s.withCount (16 * n)) aux x = loopFrom n x (expSegment (expBufs s aux)) := by
  unfold expLoop
  congr 1
  exact segmentCount_ofNat hn

/-- The segments of a second command with every buffer 16k bytes on are those from k on (R255). -/
theorem expLoop_movedOn {s t : State} {aux : Bool} (hbufs : expBufs t aux = expBufs s aux) {k m : Nat}
    (hk : 16 * k < 65536) (hm : 16 * m < 65536) (y : ExpState) :
    expLoop (t.movedOn (16 * k) (16 * m)) aux y
      = loopFrom m y fun g => expSegment (expBufs s aux) (k + g) := by
  unfold expLoop
  rw [expBufs_movedOn t aux hk, hbufs, expSegment_moved]
  congr 1
  exact segmentCount_ofNat hm

/-- Segments that end leave both ramps one segment on for each, and no sum ended the run. -/
theorem expSegments_ok {b : MixBufs} {x y : ExpState} {n : Nat} {s t : State}
    (h : loopFrom n x (expSegment b) s = .ok y t) : y = x.after n ∧ x.left.ok s n ∧ x.right.ok s n := by
  induction n generalizing y t with
  | zero =>
    obtain ⟨rfl, -⟩ := pure_ok_iff.1 h
    exact ⟨rfl, nofun, nofun⟩
  | succ n ih =>
    rw [loopFrom_succ] at h
    obtain ⟨c, u, hinit, hlast⟩ := bind_ok_iff.1 h
    obtain ⟨rfl, hl, hr⟩ := ih hinit
    have hu (v : Int) : AccOk u v ↔ AccOk s v := by
      rw [(ScratchOnly.loopFrom fun _ _ => scratchOnly_expSegment _ _ _).smAlone hinit]
      rfl
    obtain ⟨l', _, hstartL, hlast⟩ := bind_ok_iff.1 hlast
    obtain ⟨r', _, hstartR, hlast⟩ := bind_ok_iff.1 hlast
    obtain ⟨rs, _, hsteps, hlast⟩ := bind_ok_iff.1 hlast
    obtain ⟨hsumsL, rfl, rfl⟩ := segmentStart_ok_iff.1 hstartL
    obtain ⟨hsumsR, rfl, rfl⟩ := segmentStart_ok_iff.1 hstartR
    obtain ⟨rfl, hstepsL, hstepsR⟩ := rampLoop_ok hsteps
    obtain ⟨rfl, -⟩ := pure_ok_iff.1 hlast
    exact ⟨rfl,
      Nat.forall_lt_succ_right.2 ⟨hl, fun hstep => (hsumsL hstep).imp (hu _).1 (hu _).1,
        fun p hp => (hu _).1 (hstepsL p hp)⟩,
      Nat.forall_lt_succ_right.2 ⟨hr, fun hstep => (hsumsR hstep).imp (hu _).1 (hu _).1,
        fun p hp => (hu _).1 (hstepsR p hp)⟩⟩

section
variable {s : State} {aux : Bool} {block : Word} (hstore : storable s (s.resolved block) 80)
include hstore

/-- The first command: segments that end from another count's state end from its own, and the block holds what they
leave. -/
theorem expFirst_ends {init : Bool} {c d : Half} {y : ExpState} {u : State}
    (hready : Ready (.envmixer init aux block) (s.setCount c)) (hstart : expStartOk (s.setCount c) init (s.resolved block))
    (hloop : expLoop (s.setCount d) aux (expStart s init (s.resolved block)) (s.setCount c) = .ok y u) :
    ∃ first, exec (.envmixer init aux block) (s.setCount d) = .next first ∧ SavedAfter s first u.sm ∧
      ∀ f ∈ expFields y, f.HeldBy first (s.resolved block) := by
  have hown := scratchOnly_expLoop _ _ _ hloop (s.setCount d) rfl rfl
  rw [← expStart_setCount s d] at hown
  unfold expStartOk at hstart
  rw [expStart_setCount, ← expStart_setCount s d] at hstart
  obtain ⟨first, hfirst, hrun⟩ := exec_envmixer_of_loop (ready_setCount hready d) hstore hstart hown
  exact ⟨first, hfirst, .of_mainOnly hrun.mainOnly, hrun.fields⟩

/-- The second command: m segments from k on that end after the first command's own end after its save. -/
theorem expSecond_ends {k m : Nat} {x y : ExpState} {first t u : State} (hk : 16 * k < 65536) (hm : 16 * m < 65536)
    (hsaved : SavedAfter s first t.sm) (hx : x.Reloads s) (hl : ¬ x.left.ramp.stalled) (hr : ¬ x.right.ramp.stalled)
    (hfields : ∀ f ∈ expFields x, f.HeldBy first (s.resolved block)) (ht : t.params = s.params)
    (hloop : loopFrom m x (fun g => expSegment (expBufs s aux) (k + g)) t = .ok y u) :
    ∃ second, exec (.envmixer false aux block) (first.movedOn (16 * k) (16 * m))
        = .next second ∧ second.sm = u.sm ∧ ∀ f ∈ expFields y, f.HeldBy second (s.resolved block) := by
  have hcontrol := hsaved.control.trans
    (sameControl_shiftBuffers first (BitVec.ofNat 16 (16 * k)) (BitVec.ofNat 16 (16 * m)))
  have hblock := resolved_congr hcontrol block
  have hheld : ∀ f ∈ expFields x,
      f.HeldBy (first.movedOn (16 * k) (16 * m)) (s.resolved block) :=
    fun f hf => (hfields f hf).congr fun _ _ => rfl
  obtain ⟨z, hloop, hz⟩ := expSegments_reloaded hx hl hr hloop
  rw [← expLoop_movedOn (hsaved.bufs aux) hk hm, ← expStart_of_fields hx hheld] at hloop
  have hown := scratchOnly_expLoop _ _ _ hloop
    (first.movedOn (16 * k) (16 * m)) hsaved.sm (hsaved.control.params.trans ht.symm)
  obtain ⟨second, hsecond, hrun⟩ := exec_envmixer_of_loop (init := false) (aux := aux) (block := block)
    (fun r hr => buffers_written_shiftBuffers _ _ _ (by cases aux <;> simp [setupOf] at hr ⊢ <;> tauto))
    (hblock ▸ (storable_congr hcontrol).2 hstore) (hblock ▸ expStartOk_of_fields hx hcontrol.params hheld)
    (by rw [hblock]; exact hown)
  have hfields := hrun.fields
  rw [hblock, hz] at hfields
  exact ⟨second, hsecond, hrun.mainOnly.sm, hfields⟩

end

/-- Settles O49: the whole run's segments are the first k and then m more; the first command saves the state between them,
and the second loads back all of it but the steps, which its first segment recomputes. -/
theorem exponentialRampsPersist : Obligations.ExponentialRampsPersist := by
  intro s whole init aux block k m a hlt hwhole hl hr
  have hready := ready_of_next hwhole
  have hstore : storable s a 80 := endingMeansItsBlockWasStorable _ _ _ block rfl hwhole
  obtain ⟨y, u, hstart, hloop, hwmain, hwfields⟩ := exec_envmixer_run hwhole
  rw [expStart_setCount, expLoop_withCount s aux hlt, loopFrom_add] at hloop
  obtain ⟨x, t, hloop1, hloop2⟩ := bind_ok_iff.1 hloop
  obtain ⟨rfl, hokL, hokR⟩ := expSegments_ok hloop1
  rw [← expLoop_withCount s aux (show 16 * k < 65536 by omega)] at hloop1
  have ht : t.params = s.params := by rw [(scratchOnly_expLoop _ _ _).smAlone hloop1]; rfl
  have hx : ((expStart s init a).after k).Reloads s := by
    have hown : expStartOk s init a := by cases init <;> exact hstart
    obtain ⟨hwet, hdry, hstartL, hstartR⟩ := expStart_reloads hown
    exact ⟨hwet, hdry, hstartL.after hokL, hstartR.after hokR⟩
  obtain ⟨first, hfirst, hsaved, hfields1⟩ := expFirst_ends hstore hready hstart hloop1
  obtain ⟨second, hsecond, hsm, hfields2⟩ :=
    expSecond_ends hstore (by omega) (by omega) hsaved hx hl hr hfields1 ht hloop2
  exact ⟨first, second, hfirst, hsecond, hsaved.agrees rfl (coversBlock_exp _) (exec_envmixer_within hwhole).main
    (exec_envmixer_within hfirst).main (exec_envmixer_within hsecond).main (hsm.trans hwmain.sm.symm) hwfields hfields2⟩

end Sys2Proof.Machine
end

section
/-! SUPPORT. RESAMPLE, its pieces (43_resample.md R302 to R306): what the command leaves unchanged, the window after each
output, one output, the history at the start and the state block at the end. -/

namespace Sys2Proof.Machine

/-! ## What RESAMPLE leaves unchanged -/

/-- From s to t only the two memories changed. -/
def MemoriesOnly (s t : State) : Prop := t = { s with sm := t.sm, mm := t.mm }

theorem memoriesOnly_framing : Framing MemoriesOnly where
  refl _ := rfl
  trans s t u h1 h2 := by
    unfold MemoriesOnly at *
    rw [h2, h1]

theorem MemoriesOnly.control {s t : State} (h : MemoriesOnly s t) : SameControl s t := by
  rw [MemoriesOnly] at h
  rw [h]
  exact ⟨rfl, rfl, rfl, rfl, rfl, rfl⟩

theorem MemoriesOnly.draws {s t : State} (h : MemoriesOnly s t) : SameDraws s t := by
  rw [MemoriesOnly] at h
  rw [h]
  exact ⟨rfl, rfl⟩

theorem keeps_d16w_memories (a : Nat) (v : Int) : Keeps MemoriesOnly (d16w a v) :=
  .bind memoriesOnly_framing ((Silent.checkEven a).keeps memoriesOnly_framing) fun _ _ => rfl

theorem keeps_memWrite16_memories (a : Nat) (v : Half) : Keeps MemoriesOnly (memWrite16 a v) :=
  .bind memoriesOnly_framing ((Silent.checkStore a 2).keeps memoriesOnly_framing) fun _ _ => rfl

theorem silent_resampleOne (pitch : Nat) (w : Window) : Silent (resampleOne pitch w) := by
  refine .bind .getParams fun p => ?_
  iterate 4 refine .bind (.d16 _) fun _ => ?_
  exact .bind (.acc32 _) fun _ => .pure _

theorem keeps_startWindow_memories (init : Bool) (sa : Nat) (ip : Half) :
    Keeps MemoriesOnly (startWindow init sa ip) := by
  have F := memoriesOnly_framing
  cases init with
  | true => exact .bind F (.loop F fun t _ => keeps_d16w_memories _ 0) fun _ => .pure F _
  | false =>
    have hround (t : Nat) : Keeps MemoriesOnly (memRead16 (sa + 2 * t) >>= fun v => d16w (ip.toNat + 2 * t) v.toInt) :=
      .bind F ((Silent.memRead16 _).keeps F) fun v => keeps_d16w_memories _ _
    exact .bind F (.loop F fun t _ => hround t) fun _ => .bind F ((Silent.memRead16 _).keeps F) fun _ => .pure F _

theorem keeps_resampleStep_memories (pitch out j : Nat) (w : Window) :
    Keeps MemoriesOnly (resampleStep pitch out j w) :=
  have F := memoriesOnly_framing
  .bind F ((silent_resampleOne pitch w).keeps F) fun _ => .bind F (keeps_d16w_memories _ _) fun _ => .pure F _

theorem keeps_saveWindow_memories (sa : Nat) (w : Window) : Keeps MemoriesOnly (saveWindow sa w) :=
  have F := memoriesOnly_framing
  .bind F ((Silent.checkStore sa 10).keeps F) fun _ =>
    .bind F (.loop F fun _ _ => .bind F ((Silent.d16 _).keeps F) fun _ => keeps_memWrite16_memories _ _) fun _ =>
      keeps_memWrite16_memories _ _

theorem keeps_resample_memories (init : Bool) (pitch : Half) (block : Word) :
    Keeps MemoriesOnly (resample init pitch block) := by
  have F := memoriesOnly_framing
  refine .bind F ((Silent.blockBase block).keeps F) fun sa => ?_
  iterate 3 refine .bind F ((Silent.readReg _ _).keeps F) fun _ => ?_
  exact .bind F (keeps_startWindow_memories _ _ _) fun _ =>
    .bind F (.loopFrom F fun j w _ => keeps_resampleStep_memories _ _ j w) fun _ => keeps_saveWindow_memories _ _

theorem exec_resample (init : Bool) (pitch : Half) (block : Word) (s : State) :
    exec (.resample init pitch block) s = runAct (resample init pitch block) s := rfl

/-- The window starts 8 bytes below `E[in]`, mod 65536 (R303). -/
theorem toNat_windowBase (inp : Half) : (inp - 8).toNat = (inp.toNat + 65528) % 65536 := by
  rw [BitVec.toNat_sub, Nat.add_comm]
  rfl

theorem inScratch_mod (base n a : Nat) : inScratch (base % 65536) n a ↔ inScratch base n a := by
  unfold inScratch
  rw [Nat.mod_mod]

/-- The frame of a RESAMPLE that ends. -/
theorem exec_resample_within {s t : State} {init : Bool} {pitch : Half} {block : Word}
    (h : exec (.resample init pitch block) s = .next t) :
    Within EngSame (fun a => inScratch (s.inpAddr + 65528) 8 a ∨ inScratch s.outAddr (2 * outputCount s.eng.count.value) a)
      (inMain (s.resolved block) 10) s t := by
  have hw := resample_within init pitch block s
  rw [KeepsAt, leaves_of_ok (runAct_next_iff.1 h), toNat_windowBase] at hw
  exact hw.mono (fun a => .imp_left (inScratch_mod _ _ _).1) fun _ => id

/-- Settles O56: the frame of RESAMPLE's piece, at a run that ends. -/
theorem resampleFrame : Obligations.ResampleFrame := by
  intro s t init pitch block h
  have hw := exec_resample_within h
  have hm := (keeps_resample_memories init pitch block).of_ok (runAct_next_iff.1 h)
  exact ⟨hw.eng, hw.control, hm.draws, hw.scratch, hw.main⟩

/-- Settles O31: a RESAMPLE with flag bit 1 set is one refusal. -/
theorem resampleFlag2IsRefused : Obligations.ResampleFlag2IsRefused := exec_resampleFlag2

/-! ## The window after each output (R302, R304) -/

/-- The window after j outputs from a read position and a fraction. -/
def windowAt (ip acc pitch : Half) (j : Nat) : Window :=
  ⟨ip + BitVec.ofNat 16 (2 * windowMoved acc pitch j), accAfter acc pitch j⟩

@[simp] theorem windowMoved_zero (acc pitch : Half) : windowMoved acc pitch 0 = 0 := by
  unfold windowMoved
  omega

@[simp] theorem accAfter_zero (acc pitch : Half) : accAfter acc pitch 0 = acc := by
  simp [accAfter]

theorem windowAt_zero (ip acc pitch : Half) : windowAt ip acc pitch 0 = ⟨ip, acc⟩ := by
  simp [windowAt]

theorem windowMoved_mono (acc pitch : Half) {i j : Nat} (h : i ≤ j) : windowMoved acc pitch i ≤ windowMoved acc pitch j :=
  Nat.div_le_div_right (Nat.add_le_add_left (Nat.mul_le_mul_right _ h) _)

/-- One ratio more: what the fraction carries is what the read position moves. -/
theorem windowMoved_succ (acc pitch : Half) (j : Nat) :
    windowMoved acc pitch (j + 1)
      = windowMoved acc pitch j + ((accAfter acc pitch j).toNat + pitchRatio pitch) / 65536 := by
  unfold windowMoved accAfter
  rw [BitVec.toNat_ofNat, Nat.succ_mul]
  omega

theorem accAfter_succ (acc pitch : Half) (j : Nat) :
    accAfter acc pitch (j + 1) = BitVec.ofNat 16 ((accAfter acc pitch j).toNat + pitchRatio pitch) := by
  unfold accAfter
  rw [BitVec.toNat_ofNat, Nat.succ_mul]
  apply BitVec.eq_of_toNat_eq
  rw [BitVec.toNat_ofNat, BitVec.toNat_ofNat]
  omega

theorem advance_windowAt (ip acc pitch : Half) (j : Nat) :
    (windowAt ip acc pitch j).advance (pitchRatio pitch) = windowAt ip acc pitch (j + 1) := by
  unfold windowAt Window.advance
  rw [windowMoved_succ, ← accAfter_succ, Nat.mul_add, BitVec.ofNat_add, BitVec.ofNat_add, BitVec.ofNat_toNat,
    BitVec.setWidth_eq, BitVec.add_assoc]

theorem windowAt_ip_mod (ip acc pitch : Half) (j t : Nat) :
    ((windowAt ip acc pitch j).ip.toNat + t) % 65536 = (ip.toNat + 2 * windowMoved acc pitch j + t) % 65536 := by
  unfold windowAt
  rw [BitVec.toNat_add, BitVec.toNat_ofNat]
  omega

theorem windowAt_ip_even {ip : Half} (h : ip.toNat % 2 = 0) (acc pitch : Half) (j : Nat) :
    (windowAt ip acc pitch j).ip.toNat % 2 = 0 := by
  have := windowAt_ip_mod ip acc pitch j 0
  omega

/-! ## One output (R304) -/

/-- The dot product at a window of a state. -/
def State.windowDot (s : State) (w : Window) : Int :=
  dotTaps (kernelOf s.params.lut w.acc) (s.sample w.ip.toNat) (s.sample (w.ip.toNat + 2)) (s.sample (w.ip.toNat + 4))
    (s.sample (w.ip.toNat + 6))

/-- The output at a window of a state. -/
def State.windowOutput (s : State) (w : Window) : Int := clamp16 (asr (wrapS32 (s.windowDot w)) 15)

theorem resampleOne_even {w : Window} (h : w.ip.toNat % 2 = 0) (pitch : Nat) (s : State) :
    resampleOne pitch w s
      = (acc32 (s.windowDot w) >>= fun v => pure (clamp16 (asr v 15), w.advance pitch)) s := by
  unfold resampleOne
  rw [bind_of_ok (getParams_apply s), bind_of_ok (d16_even h s), bind_of_ok (d16_even (by omega) s),
    bind_of_ok (d16_even (by omega) s), bind_of_ok (d16_even (by omega) s)]
  rfl

/-- One output ends exactly where its addresses are even and its sum does not end the run. -/
theorem resampleStep_ok_iff {pitch out j : Nat} {w w' : Window} {s t : State} (hw : w.ip.toNat % 2 = 0) :
    resampleStep pitch out j w s = .ok w' t ↔ AccOk s (s.windowDot w) ∧ out % 2 = 0 ∧ w' = w.advance pitch ∧
      t = poke16 s (out + 2 * j) (s.windowOutput w) := by
  have heven : (out + 2 * j) % 2 = 0 ↔ out % 2 = 0 := by omega
  unfold resampleStep
  rw [bind_apply, resampleOne_even hw, bind_apply]
  by_cases hacc : AccOk s (s.windowDot w)
  · rw [acc32_of_accOk hacc]
    refine (bind_ok_iff (x := d16w (out + 2 * j) (s.windowOutput w))).trans ⟨?_, ?_⟩
    · rintro ⟨_, _, hstore, hpure⟩
      obtain ⟨ho, rfl⟩ := d16w_ok_iff.1 hstore
      obtain ⟨rfl, rfl⟩ := pure_ok_iff.1 hpure
      exact ⟨hacc, heven.1 ho, rfl, rfl⟩
    · rintro ⟨-, ho, rfl, rfl⟩
      exact ⟨(), _, d16w_even (heven.2 ho) _ _, rfl⟩
  · rw [acc32_of_not_accOk hacc]
    simp [hacc]

end Sys2Proof.Machine
end

section
/-! SUPPORT. RESAMPLE, the whole command (43_resample.md R302 to R306): the history in, the outputs in order, the window and
the accumulator back to main memory. -/

namespace Sys2Proof.Machine

/-! ## The history at the start (R303) -/

/-- The 4 history samples. -/
def State.resampleHistory (s : State) (init : Bool) (sa : Nat) : List Int := (List.range 4).map (streamSample s init sa)

theorem streamSample_bounds (s : State) (init : Bool) (sa k : Nat) :
    -32768 ≤ streamSample s init sa k ∧ streamSample s init sa k ≤ 32767 := by
  unfold streamSample
  split_ifs
  · decide
  · exact half_toInt_bounds _
  · exact sample_bounds _ _

theorem resampleHistory_samples16 (s : State) (init : Bool) (sa : Nat) : Samples16 (s.resampleHistory init sa) :=
  .map fun _ => streamSample_bounds _ _ _ _

theorem nth_resampleHistory (s : State) (init : Bool) (sa : Nat) {k : Nat} (h : k < 4) :
    nth (s.resampleHistory init sa) k = streamSample s init sa k := nth_map_range _ h

/-- With INIT clear, history sample k is the block's (R305). -/
theorem streamSample_of_block (s : State) (sa : Nat) {k : Nat} (h : k < 4) :
    streamSample s false sa k = (s.mmHalf (sa + 2 * k)).toInt := if_pos h

/-- The 4 history samples stand below the input. -/
structure HistoryIn (s : State) (init : Bool) (sa : Nat) (v : State) : Prop where
  stored : Stored (s.eng.inp.value - 8).toNat 4 (s.resampleHistory init sa) s v
  params : v.params = s.params

/-- The window RESAMPLE starts its outputs with. -/
def startOf (s : State) (init : Bool) (sa : Nat) : Window := ⟨s.eng.inp.value - 8, accStart s init sa⟩

theorem even_windowBase {s : State} : (s.eng.inp.value - 8).toNat % 2 = 0 ↔ s.inpAddr % 2 = 0 := by
  rw [toNat_windowBase, State.inpAddr]
  omega

/-- A half depends on main memory alone. -/
theorem mmHalf_of_mm {s u : State} (h : u.mm = s.mm) (a : Nat) : u.mmHalf a = s.mmHalf a := by
  unfold State.mmHalf
  rw [h]

theorem startWindow_runs {s : State} {sa : Nat} (init : Bool) (hinp : s.inpAddr % 2 = 0)
    (hrange : sa + 10 ≤ s.params.mmSize) :
    Runs (startWindow init sa (s.eng.inp.value - 8)) s fun w v => w = startOf s init sa ∧ HistoryIn s init sa v := by
  have hip := even_windowBase.2 hinp
  have hrounds (f : Nat → Act Unit)
      (hf : ∀ i u, i < 4 → u.mm = s.mm → u.params = s.params →
        f i u = .ok () (poke16 u ((s.eng.inp.value - 8).toNat + 2 * i) (streamSample s init sa i))) :
      Runs (loop 4 f) s fun _ u => HistoryIn s init sa u ∧ u.mm = s.mm := by
    refine (Runs.loop (fun i u => Stored (s.eng.inp.value - 8).toNat i (s.resampleHistory init sa) s u ∧ u.mm = s.mm ∧
      u.params = s.params) ⟨.zero _ _ _, rfl, rfl⟩ fun i u hi ⟨hu, hmm, hp⟩ => ?_).mono
        fun _ u ⟨hu, hmm, hp⟩ => ⟨⟨hu, hp⟩, hmm⟩
    refine .of_eq (hf i u hi hmm hp) ?_
    rw [← nth_resampleHistory s init sa hi]
    exact ⟨hu.succ hip (by omega) (resampleHistory_samples16 _ _ _), hmm, hp⟩
  cases init with
  | true =>
    refine .bind ((hrounds _ fun i u hi _ _ => ?_).mono fun _ u ⟨hu, _⟩ => .pure ⟨rfl, hu⟩)
    rw [streamSample, if_pos hi]
    exact d16w_even (by omega) _ _
  | false =>
    refine .bind ((hrounds _ fun i u hi hmm hp => ?_).mono fun _ u ⟨hu, hmm⟩ => .bind ?_)
    · rw [streamSample_of_block _ _ hi, bind_of_ok (memRead16_of_le (by rw [hp]; omega)), mmHalf_of_mm hmm]
      exact d16w_even (by omega) _ _
    · refine .of_eq (memRead16_of_le (by rw [hu.params]; omega)) (.pure ⟨?_, hu⟩)
      rw [mmHalf_of_mm hmm]
      rfl

/-- A loop that ends has a first round that ends. -/
theorem first_ends_of_loop {n : Nat} {f : Nat → Act Unit} {s t : State} (h : loop (n + 1) f s = .ok () t) :
    ∃ u, f 0 s = .ok () u := by
  cases hf : f 0 s with
  | ok _ u => exact ⟨u, rfl⟩
  | error e u =>
    rw [loop_error (Nat.succ_pos n) rfl hf] at h
    cases h

/-- The first history store refuses an odd window. -/
theorem even_of_startWindow {s t : State} {init : Bool} {sa : Nat} {ip : Half} {w : Window}
    (h : startWindow init sa ip s = .ok w t) : ip.toNat % 2 = 0 := by
  cases init with
  | true =>
    obtain ⟨_, _, hloop, -⟩ := bind_ok_iff.1 h
    obtain ⟨_, hstore⟩ := first_ends_of_loop hloop
    exact (d16w_ok_iff.1 hstore).1
  | false =>
    obtain ⟨_, _, hloop, -⟩ := bind_ok_iff.1 h
    obtain ⟨_, hround⟩ := first_ends_of_loop hloop
    obtain ⟨_, _, -, hstore⟩ := bind_ok_iff.1 hround
    exact (d16w_ok_iff.1 hstore).1

/-! ## The outputs in order (R304) -/

/-- The outputs end wherever each of them keeps an invariant under which its sum does not end the run. -/
theorem resampleSteps_runs {ip acc pitch : Half} {out n : Nat} {v : State} (I : Nat → State → Prop) (h0 : I 0 v)
    (hip : ip.toNat % 2 = 0) (hout : n ≠ 0 → out % 2 = 0)
    (hstep : ∀ j u, j < n → I j u → AccOk u (u.windowDot (windowAt ip acc pitch j)) ∧
      I (j + 1) (poke16 u (out + 2 * j) (u.windowOutput (windowAt ip acc pitch j)))) :
    Runs (loopFrom n ⟨ip, acc⟩ (resampleStep (pitchRatio pitch) out)) v fun w t =>
      w = windowAt ip acc pitch n ∧ I n t := by
  refine .loopFrom (fun j w u => w = windowAt ip acc pitch j ∧ I j u) ⟨(windowAt_zero ip acc pitch).symm, h0⟩ ?_
  rintro j w u hj ⟨rfl, hu⟩
  obtain ⟨hacc, hnext⟩ := hstep j u hj hu
  exact .of_eq ((resampleStep_ok_iff (windowAt_ip_even hip acc pitch j)).2 ⟨hacc, hout (by omega), rfl, rfl⟩)
    ⟨advance_windowAt ip acc pitch j, hnext⟩

/-- Outputs that end leave the window that belongs to their number. -/
theorem resampleSteps_window {ip acc pitch : Half} {out n : Nat} {w : Window} {v u : State} (hip : ip.toNat % 2 = 0)
    (h : loopFrom n ⟨ip, acc⟩ (resampleStep (pitchRatio pitch) out) v = .ok w u) : w = windowAt ip acc pitch n := by
  induction n generalizing w u with
  | zero =>
    obtain ⟨rfl, -⟩ := pure_ok_iff.1 h
    exact (windowAt_zero ip acc pitch).symm
  | succ n ih =>
    rw [loopFrom_succ] at h
    obtain ⟨_, _, hinit, hlast⟩ := bind_ok_iff.1 h
    obtain rfl := ih hinit
    obtain ⟨-, -, rfl, -⟩ := (resampleStep_ok_iff (windowAt_ip_even hip acc pitch n)).1 hlast
    exact advance_windowAt ip acc pitch n

/-! ## The state block at the end (R305) -/

/-- Half i of the state block. -/
def State.windowHalf (s : State) (w : Window) (i : Nat) : Half :=
  if i < 4 then lo16 (s.sample (w.ip.toNat + 2 * i)) else w.acc

theorem saveWindow_runs {sa : Nat} {w : Window} {u : State} (hw : w.ip.toNat % 2 = 0) (h : OpenToStores sa 10 u) :
    Runs (saveWindow sa w) u fun _ t => WroteHalves sa (u.windowHalf w) 5 u t := by
  have hcheck : checkStore sa 10 u = .ok () u := by
    have hlast := (h (sa + 9) ⟨by omega, by omega⟩).1
    have hunread : Unlisted u sa 10 := (unlisted_iff (by decide)).2 fun b h1 h2 => (h b ⟨h1, h2⟩).2
    exact checkStore_ok_iff.2 ⟨by omega, hunread, rfl⟩
  have hwrite {i : Nat} {t : State} (hi : i < 5) (ht : WroteHalves sa (u.windowHalf w) i u t) {v : Half}
      (hv : v = u.windowHalf w i) :
      Runs (memWrite16 (sa + 2 * i) v) t fun _ t' => WroteHalves sa (u.windowHalf w) (i + 1) u t' :=
    hv ▸ .of_eq (memWrite16_of_openToStores ((OpenToStores.congr ht.control).2 h) (by omega) (by omega) _) ht.succ
  have hsamples : Runs (loop 4 fun i => d16 (w.ip.toNat + 2 * i) >>= fun v => memWrite16 (sa + 2 * i) (lo16 v)) u
      fun _ t => WroteHalves sa (u.windowHalf w) 4 u t :=
    .loop (fun i t => WroteHalves sa (u.windowHalf w) i u t) ⟨.refl u, rfl, nofun⟩ fun i t hi ht => by
      refine .bind (.of_eq (d16_even (by omega) t) (hwrite (by omega) ht ?_))
      rw [sample_of_sm ht.sm, State.windowHalf, if_pos hi]
  exact .bind (.of_eq hcheck (.bind (hsamples.mono fun _ _ ht => hwrite (i := 4) (by omega) ht rfl)))

/-! ## The whole command (R306) -/

/-- Where the setup is there, RESAMPLE reads it, takes in the history, makes its outputs and saves. -/
theorem resample_apply {s : State} {init : Bool} {pitch : Half} {block : Word} (hready : Ready (.resample init pitch block) s)
    (halign : s.resolved block % 8 = 0) :
    resample init pitch block s = (startWindow init (s.resolved block) (s.eng.inp.value - 8) >>= fun w =>
      loopFrom (outputCount s.eng.count.value) w (resampleStep (pitchRatio pitch) s.outAddr) >>=
        saveWindow (s.resolved block)) s := by
  have hinp := hready .inp (by simp [setupOf])
  have hout := hready .out (by simp [setupOf])
  have hcount := hready .count (by simp [setupOf])
  refine (bind_of_ok (blockBase_ok_iff.2 ⟨rfl, halign, rfl⟩)).trans ((bind_of_ok (readReg_written hinp)).trans ?_)
  exact (bind_of_ok (readReg_written hout)).trans (bind_of_ok (readReg_written hcount))

/-- The outputs of RESAMPLE. -/
def resampleLoop (s : State) (init : Bool) (pitch : Half) (sa : Nat) : Act Window :=
  loopFrom (outputCount s.eng.count.value) (startOf s init sa) (resampleStep (pitchRatio pitch) s.outAddr)

/-- The window after j outputs of RESAMPLE. -/
def State.windowOf (s : State) (init : Bool) (pitch : Half) (sa j : Nat) : Window :=
  windowAt (s.eng.inp.value - 8) (accStart s init sa) pitch j

section
variable {s : State} {init : Bool} {pitch : Half} {block : Word}

/-- Where the setup is there and the outputs end, RESAMPLE ends with the window after them in its block. -/
theorem exec_resample_of_loop {Q : Window → State → Prop} (hready : Ready (.resample init pitch block) s)
    (hstore : storable s (s.resolved block) 10) (hinp : s.inpAddr % 2 = 0)
    (hloop : ∀ v, startWindow init (s.resolved block) (s.eng.inp.value - 8) s = .ok (startOf s init (s.resolved block)) v →
      HistoryIn s init (s.resolved block) v → Runs (resampleLoop s init pitch (s.resolved block)) v Q) :
    ∃ t, exec (.resample init pitch block) s = .next t ∧ ∃ w u, Q w u ∧
      WroteHalves (s.resolved block) (u.windowHalf w) 5 u t := by
  have hip := even_windowBase.2 hinp
  obtain ⟨_, v, hstart, rfl, hv⟩ := startWindow_runs init hinp hstore.2.1
  obtain ⟨w, u, hrun, hQ⟩ := hloop v hstart hv
  obtain rfl := resampleSteps_window hip hrun
  have hvu : MemoriesOnly v u :=
    (Keeps.loopFrom memoriesOnly_framing fun j w _ => keeps_resampleStep_memories _ _ j w).of_ok hrun
  have hcontrol := ((keeps_startWindow_memories _ _ _).of_ok hstart).control.trans hvu.control
  obtain ⟨⟨⟩, t, hsave, ht⟩ := saveWindow_runs (windowAt_ip_even hip (accStart s init (s.resolved block)) pitch _)
    ((OpenToStores.congr hcontrol).2 (openToStores_of_storable hstore))
  refine ⟨t, ?_, _, u, hQ, ht⟩
  rw [exec_resample, runAct_next_iff, resample_apply hready hstore.1, bind_of_ok hstart]
  exact (bind_of_ok hrun).trans hsave

/-- A run of RESAMPLE that ends had an even input, and is its history, its outputs and a save. -/
theorem exec_resample_run {t : State} (h : exec (.resample init pitch block) s = .next t) :
    s.inpAddr % 2 = 0 ∧ ∃ w v u, HistoryIn s init (s.resolved block) v ∧
      resampleLoop s init pitch (s.resolved block) v = .ok w u ∧
      WroteHalves (s.resolved block) (u.windowHalf w) 5 u t := by
  have hready := ready_of_next h
  have hstore : storable s (s.resolved block) 10 := endingMeansItsBlockWasStorable _ s t block rfl h
  have hrun := runAct_next_iff.1 h
  rw [resample_apply hready hstore.1] at hrun
  obtain ⟨w', v', hstart', hrun⟩ := bind_ok_iff.1 hrun
  obtain ⟨w, u, hloop, -⟩ := bind_ok_iff.1 hrun
  have hinp := even_windowBase.1 (even_of_startWindow hstart')
  have hruns := exec_resample_of_loop (Q := fun w u => ∃ v, HistoryIn s init (s.resolved block) v ∧
    resampleLoop s init pitch (s.resolved block) v = .ok w u) hready hstore hinp fun v hstart hv => by
      obtain ⟨rfl, rfl⟩ := EStateM.Result.ok.inj (hstart'.symm.trans hstart)
      exact .of_eq hloop ⟨_, hv, hloop⟩
  obtain ⟨t', ht', w, u, ⟨v, hv, hloop⟩, hsaved⟩ := hruns
  obtain rfl : t = t' := by
    rw [h] at ht'
    injection ht'
  exact ⟨hinp, w, v, u, hv, hloop, hsaved⟩

end

end Sys2Proof.Machine
end

section
/-! SUPPORT. RESAMPLE, what it computes (43_resample.md R302 to R307): the accumulator whatever the buffers overlap, and the
outputs where the output is apart from the input that is read. -/

namespace Sys2Proof.Machine

/-- Half k of the window in the block, and the fraction after it. -/
theorem mmHalf_window {sa k : Nat} {u t : State} {w : Window} (h : WroteHalves sa (u.windowHalf w) 5 u t) (hk : k < 4) :
    t.mmHalf (sa + 2 * k) = lo16 (u.sample (w.ip.toNat + 2 * k)) :=
  (h.halves k (by omega)).trans (if_pos hk)

theorem mmHalf_acc {sa : Nat} {u t : State} {w : Window} (h : WroteHalves sa (u.windowHalf w) 5 u t) :
    t.mmHalf (sa + 8) = w.acc := h.halves 4 (by omega)

/-! ## Sums that fit (R304) -/

/-- A 16-bit sample times a tap. -/
theorem natAbs_mul_tap_le {x : Int} (hx : -32768 ≤ x ∧ x ≤ 32767) (tap : Int) :
    (x * tap).natAbs ≤ 32768 * tap.natAbs := by
  rw [Int.natAbs_mul]
  exact Nat.mul_le_mul_right _ (by omega)

/-- A kernel whose taps sum to at most 65535 in size takes no window out of 32 bits. -/
theorem fitsS32_windowDot {s : State} {w : Window}
    (h : (kernelOf s.params.lut w.acc).t0.toInt.natAbs + (kernelOf s.params.lut w.acc).t1.toInt.natAbs +
      (kernelOf s.params.lut w.acc).t2.toInt.natAbs + (kernelOf s.params.lut w.acc).t3.toInt.natAbs ≤ 65535) :
    fitsS32 (s.windowDot w) = true := by
  have h0 := natAbs_mul_tap_le (sample_bounds s w.ip.toNat) (kernelOf s.params.lut w.acc).t0.toInt
  have h1 := natAbs_mul_tap_le (sample_bounds s (w.ip.toNat + 2)) (kernelOf s.params.lut w.acc).t1.toInt
  have h2 := natAbs_mul_tap_le (sample_bounds s (w.ip.toNat + 4)) (kernelOf s.params.lut w.acc).t2.toInt
  have h3 := natAbs_mul_tap_le (sample_bounds s (w.ip.toNat + 6)) (kernelOf s.params.lut w.acc).t3.toInt
  unfold State.windowDot dotTaps
  exact fitsS32_iff.2 (by omega)

/-- Settles O57: an output changes neither the parameters nor the next window, so every sum fits or wraps. -/
theorem resampleCompletes : Obligations.ResampleCompletes := by
  intro s init pitch block sa n hready hstore hinp hout hsums
  have haccOk (u : State) (hu : u.params = s.params) (w : Window) : AccOk u (u.windowDot w) := by
    rw [← hu] at hsums
    exact hsums.imp_right fun htaps => fitsS32_windowDot (htaps _)
  obtain ⟨t, ht, w, u, ⟨rfl, -⟩, hsaved⟩ := exec_resample_of_loop hready hstore hinp fun v _ hv =>
    resampleSteps_runs (pitch := pitch) (fun _ u => u.params = s.params) hv.params (even_windowBase.2 hinp) hout
      fun j u _ hu => ⟨haccOk u hu _, hu⟩
  exact ⟨t, ht, mmHalf_acc hsaved⟩

/-! ## The stream (R303) -/

section
variable {s v u : State} {init : Bool} {pitch : Half} {sa n j : Nat} {ys : List Int}
  (ha : apart (s.inpAddr + 65528) (8 + 2 * windowMoved (accStart s init sa) pitch n) s.outAddr (2 * n))
  (hv : HistoryIn s init sa v) (hu : Stored s.outAddr j ys v u) (hj : j ≤ n)
include ha

theorem stream_fits : 8 + 2 * windowMoved (accStart s init sa) pitch n ≤ 65536 := by
  obtain rfl | hn := Nat.eq_zero_or_pos n
  · simp
  · have := output_le_of_apart (apart_symm ha) (by omega)
    omega

include hv hu hj

/-- The stream stands where the windows read it, as the outputs so far do not meet it. -/
theorem sample_stream (hinp : s.inpAddr % 2 = 0) {k : Nat} (hk : k < 4 + windowMoved (accStart s init sa) pitch n) :
    u.sample (s.inpAddr + 65528 + 2 * k) = streamSample s init sa k := by
  have hfits := stream_fits ha
  have hbase : (s.eng.inp.value - 8).toNat = (s.inpAddr + 65528) % 65536 := toNat_windowBase _
  have houtside : u.sample (s.inpAddr + 65528 + 2 * k) = v.sample (s.inpAddr + 65528 + 2 * k) := by
    refine hu.outside _ (by omega) fun i hi heq => ?_
    have hin : inScratch (s.inpAddr + 65528) (8 + 2 * windowMoved (accStart s init sa) pitch n)
        ((s.inpAddr + 65528 + 2 * k) % 65536) := inScratch_offset (by omega)
    have hmet : inScratch s.outAddr (2 * n) ((s.inpAddr + 65528 + 2 * k) % 65536) :=
      heq ▸ inScratch_offset (by omega)
    exact ha _ (Nat.mod_lt _ (Nat.succ_pos _)) ⟨hin, hmet⟩
  rw [houtside]
  by_cases hlt : k < 4
  · rw [← nth_resampleHistory s init sa hlt, ← hv.stored.inside k hlt]
    exact sample_congr v (by omega)
  · rw [hv.stored.outside _ (by omega) fun i hi => by omega, streamSample, if_neg hlt]

/-- Sample t of the window after i outputs. -/
theorem sample_window (hinp : s.inpAddr % 2 = 0) {i t : Nat} (hi : i ≤ n) (ht : t < 4) :
    u.sample ((s.windowOf init pitch sa i).ip.toNat + 2 * t)
      = streamSample s init sa (windowMoved (accStart s init sa) pitch i + t) := by
  have hmoved := windowMoved_mono (accStart s init sa) pitch hi
  rw [← sample_stream ha hv hu hj hinp (by omega)]
  refine sample_congr u ?_
  have hbase : (s.eng.inp.value - 8).toNat = (s.inpAddr + 65528) % 65536 := toNat_windowBase _
  rw [State.windowOf, windowAt_ip_mod]
  omega

theorem windowDot_window (hp : u.params = s.params) (hinp : s.inpAddr % 2 = 0) {i : Nat} (hi : i ≤ n) :
    u.windowDot (s.windowOf init pitch sa i) = outputDot s init pitch sa i := by
  have hsample {t : Nat} (ht : t < 4) := sample_window ha hv hu hj hinp hi ht
  have h0 := hsample (t := 0) (by omega)
  have h1 := hsample (t := 1) (by omega)
  have h2 := hsample (t := 2) (by omega)
  have h3 := hsample (t := 3) (by omega)
  unfold State.windowDot outputDot
  rw [hp]
  simp only [Nat.mul_zero, Nat.add_zero, Nat.mul_one, Nat.reduceMul] at h0 h1 h2 h3
  rw [h0, h1, h2, h3]
  rfl

end

/-! ## The outputs (R304) -/

/-- The outputs of RESAMPLE. -/
def resampleOutputs (s : State) (init : Bool) (pitch : Half) (sa n : Nat) : List Int :=
  (List.range n).map fun j => clamp16 (asr (wrapS32 (outputDot s init pitch sa j)) 15)

/-- Since v, which holds the history, the first j of n outputs were stored, and no other sample changed. -/
structure OutputsStored (s : State) (init : Bool) (pitch : Half) (sa n : Nat) (v : State) (j : Nat) (u : State) : Prop where
  params : u.params = s.params
  stored : Stored s.outAddr j (resampleOutputs s init pitch sa n) v u

/-- Output j is the stream's, and is stored after those before it. -/
theorem OutputsStored.succ {s v u : State} {init : Bool} {pitch : Half} {sa n j : Nat}
    (h : OutputsStored s init pitch sa n v j u) (hv : HistoryIn s init sa v)
    (ha : apart (s.inpAddr + 65528) (8 + 2 * windowMoved (accStart s init sa) pitch n) s.outAddr (2 * n)) (hj : j < n)
    (hinp : s.inpAddr % 2 = 0) (hout : s.outAddr % 2 = 0) (hacc : AccOk s (outputDot s init pitch sa j)) :
    AccOk u (u.windowDot (s.windowOf init pitch sa j)) ∧ OutputsStored s init pitch sa n v (j + 1)
      (poke16 u (s.outAddr + 2 * j) (u.windowOutput (s.windowOf init pitch sa j))) := by
  have hdot := windowDot_window ha hv h.stored hj.le h.params hinp hj.le
  have houtput : u.windowOutput (s.windowOf init pitch sa j) = nth (resampleOutputs s init pitch sa n) j := by
    rw [State.windowOutput, hdot, resampleOutputs, nth_map_range _ hj]
  have hn := output_le_of_apart ha (by omega)
  refine ⟨?_, h.params, ?_⟩
  · rw [hdot, AccOk, h.params]
    exact hacc
  · rw [houtput]
    exact h.stored.succ hout (by omega) (.map fun _ => clamp16_bounds _)

/-- Settles O58: the outputs so far leave the stream as it was, so each sum is the stream's, by induction over the outputs. -/
theorem resampleConvolvesItsInput : Obligations.ResampleConvolvesItsInput := by
  intro s init pitch block sa n acc hready hstore hinp hout ha hacc
  obtain ⟨t, ht, w, u, ⟨rfl, ⟨v, hv, hu⟩⟩, hsaved⟩ := exec_resample_of_loop
    (Q := fun w u => w = s.windowOf init pitch sa n ∧ ∃ v, HistoryIn s init sa v ∧ OutputsStored s init pitch sa n v n u)
    hready hstore hinp fun v _ hv =>
      (resampleSteps_runs (OutputsStored s init pitch sa n v) ⟨hv.params, .zero _ _ _⟩ (even_windowBase.2 hinp) hout
        fun j u hj hu => hu.succ hv ha hj hinp (hout (by omega)) (hacc j hj)).mono fun _ _ ⟨hw, hu⟩ => ⟨hw, v, hv, hu⟩
  refine ⟨t, ht, fun j hj => ?_, fun k hk => ?_, mmHalf_acc hsaved⟩
  · rw [sample_of_sm hsaved.sm, hu.stored.inside j hj]
    exact nth_map_range _ hj
  · rw [mmHalf_window hsaved hk, sample_window ha hv hu.stored (Nat.le_refl n) hinp (Nat.le_refl n) hk]

/-! ## Ratio 1.0 (R307) -/

theorem windowMoved_ratioOne (acc : Half) (j : Nat) : windowMoved acc 0x8000 j = j := by
  have hratio : pitchRatio 0x8000 = 65536 := rfl
  rw [windowMoved, hratio]
  omega

theorem accAfter_ratioOne (acc : Half) (j : Nat) : accAfter acc 0x8000 j = acc := by
  have hratio : pitchRatio 0x8000 = 65536 := rfl
  apply BitVec.eq_of_toNat_eq
  rw [accAfter, BitVec.toNat_ofNat, hratio]
  omega

/-- Settles O59: at ratio 1.0, O58's window moves by one sample an output and its kernel stays. -/
theorem ratioOneIsOneFixedFilter : Obligations.RatioOneIsOneFixedFilter := by
  intro s init block sa n k0 dot hready hstore hinp hout ha hfits
  have hdot (j : Nat) : outputDot s init 0x8000 sa j = dot j := by
    unfold outputDot
    rw [windowMoved_ratioOne, accAfter_ratioOne]
    rfl
  obtain ⟨t, ht, houtputs, -, hacc⟩ := resampleConvolvesItsInput s init 0x8000 block hready hstore hinp hout
    (by rw [windowMoved_ratioOne]; exact ha) fun j hj => .inr (hdot j ▸ hfits j hj)
  refine ⟨t, ht, fun j hj => ?_, hacc.trans (accAfter_ratioOne _ _)⟩
  rw [houtputs j hj, hdot, wrapS32_of_fits (hfits j hj)]

end Sys2Proof.Machine
end

section
/-! SUPPORT. RESAMPLE's state round trip (43_resample.md R309): outputs look at scratch through samples at even addresses
alone, so two states that agree there go on alike, and a second command puts back the window that already stands there. -/

namespace Sys2Proof.Machine

/-! ## States that agree on every sample -/

/-- The same parameters, and the same sample at every even address. -/
structure Alike (s u : State) : Prop where
  params : u.params = s.params
  samples : ∀ b, b % 2 = 0 → u.sample b = s.sample b

theorem Alike.trans {s t u : State} (h1 : Alike s t) (h2 : Alike t u) : Alike s u where
  params := h2.params.trans h1.params
  samples b hb := (h2.samples b hb).trans (h1.samples b hb)

/-- The samples hold every byte. -/
theorem Alike.scratch {s u : State} (h : Alike s u) : SameScratch s u := fun a => by
  have hpair (b : Nat) (hb : b % 2 = 0) : u.scratch b = s.scratch b ∧ u.scratch (b + 1) = s.scratch (b + 1) :=
    bitVec_append_inj (BitVec.eq_of_toInt_eq (h.samples b hb))
  obtain heven | hodd := Nat.mod_two_eq_zero_or_one a
  · exact (hpair a heven).1
  · obtain ⟨b, rfl⟩ : ∃ b, a = b + 1 := ⟨a - 1, by omega⟩
    exact (hpair b (by omega)).2

theorem Alike.poke16 {s u : State} (h : Alike s u) {a : Nat} (ha : a % 2 = 0) (v : Int) :
    Alike (poke16 s a v) (poke16 u a v) where
  params := h.params
  samples b hb := by rw [sample_poke16 s ha hb, sample_poke16 u ha hb, h.samples b hb]

/-- The same samples stored over either state. -/
theorem Stored.alike {o n : Nat} {xs : List Int} {s t u v : State} (hst : Stored o n xs s t) (huv : Stored o n xs u v)
    (h : Alike s u) (ht : t.params = s.params) (hv : v.params = u.params) : Alike t v where
  params := hv.trans (h.params.trans ht.symm)
  samples b hb := by
    by_cases hin : ∃ i, i < n ∧ b % 65536 = (o + 2 * i) % 65536
    · obtain ⟨i, hi, heq⟩ := hin
      rw [sample_congr v heq, sample_congr t heq, huv.inside i hi, hst.inside i hi]
    · have hne (i : Nat) (hi : i < n) : b % 65536 ≠ (o + 2 * i) % 65536 := fun heq => hin ⟨i, hi, heq⟩
      rw [huv.outside b hb hne, hst.outside b hb hne, h.samples b hb]

/-- Samples stored where they stand already. -/
theorem Stored.alike_self {o n : Nat} {xs : List Int} {s t : State} (h : Stored o n xs s t)
    (hxs : ∀ i, i < n → nth xs i = s.sample (o + 2 * i)) (ht : t.params = s.params) : Alike s t where
  params := ht
  samples b hb := by
    by_cases hin : ∃ i, i < n ∧ b % 65536 = (o + 2 * i) % 65536
    · obtain ⟨i, hi, heq⟩ := hin
      rw [sample_congr t heq, sample_congr s heq, h.inside i hi, hxs i hi]
    · exact h.outside b hb fun i hi heq => hin ⟨i, hi, heq⟩

/-! ## Outputs of states that agree -/

theorem Alike.windowDot {s u : State} (h : Alike s u) {w : Window} (hw : w.ip.toNat % 2 = 0) :
    u.windowDot w = s.windowDot w := by
  unfold State.windowDot
  rw [h.params, h.samples _ hw, h.samples _ (by omega), h.samples _ (by omega), h.samples _ (by omega)]

theorem even_advance {w : Window} (hw : w.ip.toNat % 2 = 0) (pitch : Nat) : (w.advance pitch).ip.toNat % 2 = 0 := by
  unfold Window.advance
  rw [BitVec.toNat_ofNat]
  omega

/-- Outputs that end from one state end alike from a state that agrees with it. -/
theorem resampleSteps_alike {pitch out k n : Nat} {w w' : Window} {s t u : State} (hw : w.ip.toNat % 2 = 0)
    (h : Alike s u) (hrun : loopFrom n w (fun j => resampleStep pitch out (k + j)) s = .ok w' t) :
    Runs (loopFrom n w fun j => resampleStep pitch out (k + j)) u fun x v => x = w' ∧ w'.ip.toNat % 2 = 0 ∧ Alike t v := by
  induction n generalizing w' t with
  | zero =>
    obtain ⟨rfl, rfl⟩ := pure_ok_iff.1 hrun
    exact .pure ⟨rfl, hw, h⟩
  | succ n ih =>
    rw [loopFrom_succ] at hrun
    obtain ⟨x, v, hinit, hlast⟩ := bind_ok_iff.1 hrun
    refine .bind ((ih hinit).mono fun _ v' ⟨hx, hxeven, hv⟩ => ?_)
    obtain rfl := hx
    obtain ⟨hacc, ho, rfl, rfl⟩ := (resampleStep_ok_iff hxeven).1 hlast
    have hdot := hv.windowDot hxeven
    have hout : v'.windowOutput _ = v.windowOutput _ := congrArg (fun d => clamp16 (asr (wrapS32 d) 15)) hdot
    refine .of_eq ((resampleStep_ok_iff hxeven).2 ⟨?_, ho, rfl, rfl⟩) ⟨rfl, even_advance hxeven pitch, ?_⟩
    · rw [hdot, AccOk, hv.params]
      exact hacc
    · rw [hout]
      exact hv.poke16 (by omega) _

theorem resampleStep_congr {pitch o o' j j' : Nat} (h : (o + 2 * j) % 65536 = (o' + 2 * j') % 65536) :
    resampleStep pitch o j = resampleStep pitch o' j' := by
  funext w
  unfold resampleStep
  simp only [d16w_congr h]

/-! ## The split (R309) -/

theorem outputCount_ofNat {n : Nat} (h : 16 * n < 65536) : outputCount (BitVec.ofNat 16 (16 * n)) = 8 * n := by
  unfold outputCount
  rw [BitVec.toNat_ofNat, alignUp_eq _ 16 n (by decide) (by omega) (by omega)]
  omega

theorem accStart_setCount (s : State) (c : Half) (init : Bool) (sa : Nat) :
    accStart (s.setCount c) init sa = accStart s init sa := by
  cases init <;> rfl

theorem resampleHistory_setCount (s : State) (c : Half) (init : Bool) (sa : Nat) :
    (s.setCount c).resampleHistory init sa = s.resampleHistory init sa := by
  cases init <;> rfl

theorem resampleLoop_withCount (s : State) (init : Bool) (pitch : Half) (sa : Nat) {n : Nat} (hn : 16 * n < 65536) :
    resampleLoop (s.withCount (16 * n)) init pitch sa
      = loopFrom (8 * n) (startOf s init sa) (resampleStep (pitchRatio pitch) s.outAddr) := by
  unfold resampleLoop startOf
  rw [accStart_setCount, show outputCount (s.withCount (16 * n)).eng.count.value = 8 * n from outputCount_ofNat hn]
  rfl

theorem sameControl_setBuffers (s : State) (inp out n : Half) : SameControl s (s.setBuffers inp out n) :=
  ⟨rfl, rfl, rfl, rfl, rfl, rfl⟩

/-- The command that goes on where the stream stands after k outputs (R309). -/
abbrev State.streamedOn (s first : State) (init : Bool) (pitch : Half) (sa k m : Nat) : State :=
  first.setBuffers (s.eng.inp.value + BitVec.ofNat 16 (2 * windowMoved (accStart s init sa) pitch (8 * k)))
    (s.eng.out.value + BitVec.ofNat 16 (16 * k)) (BitVec.ofNat 16 (16 * m))

section
variable {s first u : State} {init : Bool} {pitch : Half} {sa k m : Nat}
  (hsaved : WroteHalves sa (u.windowHalf (s.windowOf init pitch sa (8 * k))) 5 u first)
include hsaved

/-- It starts with the window that the first command saved. -/
theorem startOf_streamedOn : startOf (s.streamedOn first init pitch sa k m) false sa = s.windowOf init pitch sa (8 * k) := by
  have hip (a b : Half) : a + b - 8 = a - 8 + b := add_sub_right_comm a b 8
  unfold startOf State.windowOf windowAt
  congr 1
  · exact hip _ _
  · exact mmHalf_acc hsaved

theorem history_streamedOn {i : Nat} (hi : i < 4) :
    nth ((s.streamedOn first init pitch sa k m).resampleHistory false sa) i
      = u.sample ((s.windowOf init pitch sa (8 * k)).ip.toNat + 2 * i) := by
  rw [nth_resampleHistory _ _ _ hi, streamSample_of_block _ _ hi]
  refine (congrArg BitVec.toInt (mmHalf_window hsaved hi)).trans ?_
  exact toS16_of_bounds (sample_bounds _ _).1 (sample_bounds _ _).2

end

theorem resampleLoop_streamedOn {s first : State} {init : Bool} {pitch : Half} {sa k m : Nat} (hm : 16 * m < 65536) :
    resampleLoop (s.streamedOn first init pitch sa k m) false pitch sa
      = loopFrom (8 * m) (startOf (s.streamedOn first init pitch sa k m) false sa)
          fun j => resampleStep (pitchRatio pitch) s.outAddr (8 * k + j) := by
  have hcount : outputCount (s.streamedOn first init pitch sa k m).eng.count.value = 8 * m := outputCount_ofNat hm
  unfold resampleLoop
  rw [hcount]
  congr 1
  funext j
  refine resampleStep_congr ?_
  change ((s.eng.out.value + BitVec.ofNat 16 (16 * k)).toNat + 2 * j) % 65536 = (s.eng.out.value.toNat + _) % 65536
  rw [BitVec.toNat_add, BitVec.toNat_ofNat]
  omega

section
variable {s : State} {init : Bool} {pitch : Half} {block : Word} {k m : Nat}
  (hstore : storable s (s.resolved block) 10) (hinp : s.inpAddr % 2 = 0)
include hstore hinp

/-- The first command: outputs that end from another count's history end from its own, and the block holds the window
after them. -/
theorem resampleFirst_ends {c : Half} {v mid : State} {w : Window} (hready : Ready (.resample init pitch block) (s.setCount c))
    (hk : 16 * k < 65536) (hv : HistoryIn (s.setCount c) init (s.resolved block) v)
    (hloop : loopFrom (8 * k) (startOf s init (s.resolved block)) (resampleStep (pitchRatio pitch) s.outAddr) v
      = .ok w mid) :
    ∃ first, exec (.resample init pitch block) (s.withCount (16 * k)) = .next first ∧ ∃ u, Alike mid u ∧
      WroteHalves (s.resolved block) (u.windowHalf w) 5 u first := by
  obtain ⟨first, hfirst, _, u, ⟨rfl, hu⟩, hsaved⟩ := exec_resample_of_loop (s := s.withCount (16 * k))
    (Q := fun x u => x = w ∧ Alike mid u) (ready_setCount hready _) hstore hinp fun v' _ hv' => by
      have halike : Alike v v' := hv.stored.alike hv'.stored ⟨rfl, fun _ _ => rfl⟩ hv.params hv'.params
      have hruns := resampleSteps_alike (k := 0) (even_windowBase.2 hinp) halike (by simpa only [Nat.zero_add] using hloop)
      simp only [Nat.zero_add] at hruns
      rw [resampleLoop_withCount s init pitch _ hk]
      exact hruns.mono fun _ _ ⟨hx, _, hu⟩ => ⟨hx, hu⟩
  exact ⟨first, hfirst, u, hu, hsaved⟩

/-- The second command: outputs from 8k on that end after the first command's own end after its save. -/
theorem resampleSecond_ends {first u1 mid uw : State} {w : Window} (hm : 16 * m < 65536)
    (hfirst : SameControl s first)
    (hsaved : WroteHalves (s.resolved block) (u1.windowHalf (s.windowOf init pitch (s.resolved block) (8 * k))) 5 u1 first)
    (hmid : Alike mid u1)
    (hloop : loopFrom (8 * m) (s.windowOf init pitch (s.resolved block) (8 * k))
      (fun j => resampleStep (pitchRatio pitch) s.outAddr (8 * k + j)) mid = .ok w uw) :
    ∃ second, exec (.resample false pitch block) (s.streamedOn first init pitch (s.resolved block) k m) = .next second ∧
      ∃ u, Alike uw u ∧ WroteHalves (s.resolved block) (u.windowHalf w) 5 u second := by
  have hstart := startOf_streamedOn (m := m) hsaved
  have hip : (s.streamedOn first init pitch (s.resolved block) k m).eng.inp.value - 8
      = (s.windowOf init pitch (s.resolved block) (8 * k)).ip := congrArg Window.ip hstart
  have hwindow : (s.windowOf init pitch (s.resolved block) (8 * k)).ip.toNat % 2 = 0 :=
    windowAt_ip_even (even_windowBase.2 hinp) _ _ _
  have hcontrol : SameControl s (s.streamedOn first init pitch (s.resolved block) k m) :=
    hfirst.trans (sameControl_setBuffers _ _ _ _)
  have hblock := resolved_congr hcontrol block
  have hready : Ready (.resample false pitch block) (s.streamedOn first init pitch (s.resolved block) k m) := by
    simp [Ready, setupOf, Engine.isWritten, State.setBuffers, Reg.of]
  have hunder : Alike u1 (s.streamedOn first init pitch (s.resolved block) k m) :=
    ⟨hsaved.control.params, fun b _ => sample_of_sm (u := u1) hsaved.sm b⟩
  have hruns := exec_resample_of_loop (Q := fun x u => x = w ∧ Alike uw u) hready
    (by rw [hblock]; exact (storable_congr hcontrol).2 hstore) (even_windowBase.1 (hip ▸ hwindow)) fun v _ hv => by
      rw [hblock] at hv ⊢
      have hback := hv.stored.alike_self (fun i hi => by
        rw [history_streamedOn hsaved hi, hip]
        exact (hunder.samples _ (by omega)).symm) hv.params
      rw [resampleLoop_streamedOn hm, hstart]
      exact (resampleSteps_alike hwindow ((hmid.trans hunder).trans hback) hloop).mono fun _ _ ⟨hx, _, hu⟩ => ⟨hx, hu⟩
  rw [hblock] at hruns
  obtain ⟨second, hsecond, _, u, ⟨rfl, hu⟩, hsaved'⟩ := hruns
  exact ⟨second, hsecond, u, hu, hsaved'⟩

end

theorem Alike.windowHalf {s u : State} (h : Alike s u) {w : Window} (hw : w.ip.toNat % 2 = 0) (i : Nat) :
    u.windowHalf w i = s.windowHalf w i := by
  unfold State.windowHalf
  rw [h.samples _ (by omega)]

/-- Blocks of 10 bytes with the same 5 halves. -/
theorem read_of_halves {sa : Nat} {s t : State} (h : ∀ i, i < 5 → t.mmHalf (sa + 2 * i) = s.mmHalf (sa + 2 * i)) {b : Nat}
    (hb : inMain sa 10 b) : t.mm.read b = s.mm.read b := by
  obtain ⟨hlow, hhigh⟩ := hb
  have hread := read_of_mmHalf_eq (h ((b - sa) / 2) (by omega)) ((b - sa) % 2) (by omega)
  rwa [show sa + 2 * ((b - sa) / 2) + (b - sa) % 2 = b by omega] at hread

/-- Settles O60: the whole run's outputs are the first 8k and then 8m more; the first command saves the window between
them, and the second puts it back where it stands. -/
theorem resamplerStateRoundTrip : Obligations.ResamplerStateRoundTrip := by
  intro s whole init pitch block k m hlt hwhole
  have hready := ready_of_next hwhole
  have hstore : storable s (s.resolved block) 10 := endingMeansItsBlockWasStorable _ _ _ block rfl hwhole
  obtain ⟨hinp, w, v, uw, hv, hloop, hwsaved⟩ := exec_resample_run hwhole
  have hip : (s.eng.inp.value - 8).toNat % 2 = 0 := even_windowBase.2 hinp
  obtain ⟨w1, mid, hloop1, hloop2⟩ : ∃ w1 mid,
      loopFrom (8 * k) (startOf s init (s.resolved block)) (resampleStep (pitchRatio pitch) s.outAddr) v = .ok w1 mid ∧
      loopFrom (8 * m) w1 (fun j => resampleStep (pitchRatio pitch) s.outAddr (8 * k + j)) mid = .ok w uw := by
    rw [resampleLoop_withCount s init pitch _ hlt, Nat.mul_add, loopFrom_add] at hloop
    exact bind_ok_iff.1 hloop
  obtain rfl := resampleSteps_window hip hloop1
  obtain ⟨first, hfirst, u1, hmid, hsaved1⟩ := resampleFirst_ends hstore hinp hready (by omega) hv hloop1
  have hwfirst := exec_resample_within hfirst
  have hcontrol : SameControl s first := (sameControl_setCount s _ s.sm).trans hwfirst.control
  obtain ⟨second, hsecond, u2, hend, hsaved2⟩ := resampleSecond_ends hstore hinp (by omega) hcontrol hsaved1 hmid hloop2
  have hw : w.ip.toNat % 2 = 0 := by
    obtain ⟨_, _, -, -, heven, -⟩ := resampleSteps_alike (windowAt_ip_even hip _ _ _) ⟨rfl, fun _ _ => rfl⟩ hloop2
    exact heven
  refine ⟨first, second, hfirst, hsecond, fun a => ?_, fun b => ?_⟩
  · rw [scratch_of_sm hsaved2.sm, hend.scratch, scratch_of_sm hwsaved.sm]
  · by_cases hb : inMain (s.resolved block) 10 b
    · refine read_of_halves (fun i hi => ?_) hb
      exact (hsaved2.halves i hi).trans ((hend.windowHalf hw i).trans (hwsaved.halves i hi).symm)
    · have hout2 := (exec_resample_within hsecond).main
      rw [resolved_congr (hcontrol.trans (sameControl_setBuffers first _ _ _))] at hout2
      calc second.mm.read b = first.mm.read b := hout2 b hb
        _ = s.mm.read b := hwfirst.main b hb
        _ = whole.mm.read b := ((exec_resample_within hwhole).main b hb).symm

end Sys2Proof.Machine
end

section
/-! SUPPORT. The start of a list (70_reset_and_hazards.md R371): what an accepted Invoke clears and what it keeps. -/

namespace Sys2Proof.Machine

/-- Settles O10: an Invoke that is not refused passed its checks, so the state after it is the one `invoke_ok` names, with
the register file cleared and the memories and the log as they were. -/
theorem invokeLeavesEveryRegisterUnwritten : Obligations.InvokeLeavesEveryRegisterUnwritten := by
  intro s t addr size rest hs hh hst
  have hinvoke : invoke addr size { s with host := rest } = .ok () t :=
    runAct_next_iff.1 ((step_hostAction hs hh).symm.trans hst)
  obtain ⟨-, -, -, rfl⟩ := invoke_ok hinvoke
  exact ⟨clearWritten_unwritten s.eng, rfl, rfl, rfl⟩

end Sys2Proof.Machine
end
